-- ==== Sys2Proof/Word.lean ====
section
/-! DEFINITION. The word types of the block: a byte, the 32-bit words of the command port and of a
Queue Entry (R20, R96), and the 64-bit operands, results and bus addresses (`ADDR_W` of R7). -/

namespace Sys2Proof

/-- One byte of DMA memory or of the controller's register space (R36, R64). -/
abbrev Byte := BitVec 8

/-- A 32-bit word: `CMD`, `STATUS`, `ENTk`, `RENTk`, a word of a Queue Entry (R20 to R25, R96). -/
abbrev Word32 := BitVec 32

/-- A 64-bit word: `RES`, `ARGk`, a bus address, an interrupter register (R22, R23, R41, R42). -/
abbrev Word64 := BitVec 64

/-- The number of bus addresses: DMA memory and the register space are addressed by 64 bits (R36, R48). -/
def addressSpace : Nat := 0x10000000000000000

end Sys2Proof
end

