-- ==== Sys2Proof/Syntax.lean ====
section
/-! DEFINITION. The commands of the block, one constructor for each row of the opcode table (R91).
The operands of a command are not part of it: they stand in the port's `ARG` and `ENT` registers when
`CMD` is written (R90); only the number of the Ring or EventRing is in the command word. -/

namespace Sys2Proof

/-- A command (R91). `idx` is the `idx` field of the command word: the Ring of a `RING` command, the
EventRing of an `ER` command (R90). -/
inductive Instr where
  | poolAlloc
  | poolAllocArr
  | poolFree
  | ringInit (idx : Nat)
  | ringPush (idx : Nat)
  | ringBuf (idx : Nat)
  | erInit (idx : Nat)
  | erHasFront (idx : Nat)
  | erFront (idx : Nat)
  | erPop (idx : Nat)
  | epidMake
  | epidAddr
  | epidNum
  | epidIsIn
  | epcfgMake
  | epcfgEpid
  | epcfgType
  | epcfgMps
  | epcfgIval
  deriving DecidableEq, Repr

/-- The instance number a command carries; the commands that take none carry 0 in that field (R90, R91). -/
def Instr.idx : Instr → Nat
  | .ringInit i | .ringPush i | .ringBuf i => i
  | .erInit i | .erHasFront i | .erFront i | .erPop i => i
  | .poolAlloc | .poolAllocArr | .poolFree => 0
  | .epidMake | .epidAddr | .epidNum | .epidIsIn => 0
  | .epcfgMake | .epcfgEpid | .epcfgType | .epcfgMps | .epcfgIval => 0

end Sys2Proof
end

