-- ==== Sys2Proof/Decode.lean ====
section
/-! DEFINITION. The command word (R90 to R95): the opcode table with its masks, the decoder that
selects a row by mask and match (R93), the reasons a word is illegal (R94), and the encoder. -/

namespace Sys2Proof

/-- The three reasons of R94 why a word is illegal. The machine answers all of them alike, with
`ILLEGAL_COMMAND` (R222). -/
inductive DecodeError where
  /-- `op`, bits 7:0, is no operation code of R91. -/
  | unknownOp
  /-- `rsv`, bits 31:16, is not 0. -/
  | reservedNotZero
  /-- `idx`, bits 15:8, is not 0 on a command that takes no instance. -/
  | idxNotTaken
  deriving DecidableEq, Repr

/-- The fields of a command word (R90). -/
def opField (w : Word32) : BitVec 8 := w.extractLsb' 0 8
def idxField (w : Word32) : BitVec 8 := w.extractLsb' 8 8
def rsvField (w : Word32) : BitVec 16 := w.extractLsb' 16 16

/-- One row of the opcode table: the bits it fixes, their value, and the command it stands for, given
the `idx` field. -/
structure OpcodeRow where
  mask : Word32
  pat : Word32
  command : Nat → Instr

/-- `mask` of a command that takes no instance: every bit is fixed (R93). -/
def maskPlain : Word32 := 0xFFFFFFFF#32
/-- `mask` of a command that takes `idx`: bits 15:8 are free (R93). -/
def maskIdx : Word32 := 0xFFFF00FF#32

/-- The opcode table (R91, R93), in its order. -/
def opcodeTable : List OpcodeRow :=
  [ ⟨maskPlain, 0x01#32, fun _ => .poolAlloc⟩,
    ⟨maskPlain, 0x02#32, fun _ => .poolAllocArr⟩,
    ⟨maskPlain, 0x03#32, fun _ => .poolFree⟩,
    ⟨maskIdx, 0x10#32, .ringInit⟩,
    ⟨maskIdx, 0x11#32, .ringPush⟩,
    ⟨maskIdx, 0x12#32, .ringBuf⟩,
    ⟨maskIdx, 0x20#32, .erInit⟩,
    ⟨maskIdx, 0x21#32, .erHasFront⟩,
    ⟨maskIdx, 0x22#32, .erFront⟩,
    ⟨maskIdx, 0x23#32, .erPop⟩,
    ⟨maskPlain, 0x30#32, fun _ => .epidMake⟩,
    ⟨maskPlain, 0x31#32, fun _ => .epidAddr⟩,
    ⟨maskPlain, 0x32#32, fun _ => .epidNum⟩,
    ⟨maskPlain, 0x33#32, fun _ => .epidIsIn⟩,
    ⟨maskPlain, 0x38#32, fun _ => .epcfgMake⟩,
    ⟨maskPlain, 0x39#32, fun _ => .epcfgEpid⟩,
    ⟨maskPlain, 0x3A#32, fun _ => .epcfgType⟩,
    ⟨maskPlain, 0x3B#32, fun _ => .epcfgMps⟩,
    ⟨maskPlain, 0x3C#32, fun _ => .epcfgIval⟩ ]

/-- A word selects a row when the bits the row fixes have the row's values (R93). -/
def OpcodeRow.selects (r : OpcodeRow) (w : Word32) : Bool := w &&& r.mask == r.pat

/-- Why a word that selects no row is illegal (R94). -/
def decodeError (w : Word32) : DecodeError :=
  if rsvField w ≠ 0 then .reservedNotZero
  else if opcodeTable.any fun r => r.selects (w &&& 0xFF#32) then .idxNotTaken
  else .unknownOp

/-- The command a word stands for, or why it is illegal (R93, R94). Total on all words. -/
def decode (w : Word32) : Except DecodeError Instr :=
  match opcodeTable.find? fun r => r.selects w with
  | some r => .ok (r.command (idxField w).toNat)
  | none => .error (decodeError w)

/-- The operation code of a command (R91). -/
def Instr.opcode : Instr → Word32
  | .poolAlloc => 0x01#32
  | .poolAllocArr => 0x02#32
  | .poolFree => 0x03#32
  | .ringInit _ => 0x10#32
  | .ringPush _ => 0x11#32
  | .ringBuf _ => 0x12#32
  | .erInit _ => 0x20#32
  | .erHasFront _ => 0x21#32
  | .erFront _ => 0x22#32
  | .erPop _ => 0x23#32
  | .epidMake => 0x30#32
  | .epidAddr => 0x31#32
  | .epidNum => 0x32#32
  | .epidIsIn => 0x33#32
  | .epcfgMake => 0x38#32
  | .epcfgEpid => 0x39#32
  | .epcfgType => 0x3A#32
  | .epcfgMps => 0x3B#32
  | .epcfgIval => 0x3C#32

/-- The command word of a command: `op` in bits 7:0, `idx` in bits 15:8, zero above (R90). -/
def encode (i : Instr) : Word32 := i.opcode ||| (BitVec.ofNat 32 i.idx <<< 8)

/-- What the decoder reads from an instruction of `nbits` bits whose bits are `w`. A command is one 32-bit
word (R95): bits above `nbits` are 0, and a number with a bit above bit 31 is no command. -/
def decodeTableWord (nbits w : Nat) : Option Instr :=
  let v := w % 2 ^ nbits
  if v < 2 ^ 32 then (decode (BitVec.ofNat 32 v)).toOption else none

end Sys2Proof
end

