-- ==== Sys2Proof/Config.lean ====
section
/-! DEFINITION. The parameters of R7: the ones the spec leaves OPEN as one record of plain data that
the machine's state carries (so a statement about every state is a statement about every
parameter), the ones it fixes as constants, and the free values. -/

namespace Sys2Proof

/-- How the controller's `ERDP` register reacts to the status bits of a write: the OPEN parameter
`erdp_write_model` (R7, R47). -/
inductive ErdpWriteModel where
  | plain
  | rw1cBit3
  deriving DecidableEq, Repr

/-- The OPEN parameters of R7. Which values of them are a platform's is `Config.wellFormed`. -/
structure Config where
  /-- `POOL_BASE`: bus address of the first byte of the arena. -/
  poolBase : Nat
  /-- `POOL_CAPACITY`: number of bytes in the arena. -/
  poolCapacity : Nat
  /-- `NUM_RINGS`: number of Ring instances, 1 to 256. -/
  numRings : Nat
  /-- `NUM_ERINGS`: number of EventRing instances, 1 to 256. -/
  numERings : Nat
  /-- `HOSTPORT_BASE`: bus address of the command port. -/
  hostportBase : Nat
  /-- `erdp_write_model`. -/
  erdpWriteModel : ErdpWriteModel
  /-- The platform's interrupter register blocks, by the address of their first byte (R39, R68). The
  block never looks at this list: `ER.INIT` takes the address its caller gives (R151, R257), and that this
  is one of the list is the caller's duty, `State.RegsGenuine`. -/
  interrupters : List Nat
  deriving DecidableEq, Repr

/-- The first address after the arena (R29). -/
def Config.poolEnd (c : Config) : Nat := c.poolBase + c.poolCapacity

/-- The parameters the worked examples of the spec use (95_test_vectors.md; assumption 2). The spec keeps `HOSTPORT_BASE` symbolic
there; the number here is the model's (assumption 2). -/
def Config.worked : Config where
  poolBase := 0x00100000
  poolCapacity := 0x00020000
  numRings := 4
  numERings := 2
  hostportBase := 0xFE000000
  erdpWriteModel := .plain
  interrupters := [0xFEB00220]

/-- `ENTRY_BYTES`, the size of a Queue Entry (R7). -/
abbrev entryBytes : Nat := 16
/-- `RING_ALIGN` (R7). -/
abbrev ringAlign : Nat := 64
/-- `RING_BOUNDARY`: none (R7, 90_conflicts.md C6). -/
abbrev ringBoundary : Nat := 0
/-- `ER_ALIGN` (R7). -/
abbrev erAlign : Nat := 64
/-- `ER_BOUNDARY`: none (R7). -/
abbrev erBoundary : Nat := 0
/-- `ERST_ALIGN` (R7). -/
abbrev erstAlign : Nat := 64
/-- `ERST_BOUNDARY`: none (R7). -/
abbrev erstBoundary : Nat := 0
/-- `ERST_ENTRY_BYTES`, the size of a segment-table entry (R7). -/
abbrev erstEntryBytes : Nat := 16
/-- `ER_CAP_MAX`, the largest EventRing capacity (R7). -/
abbrev erCapMax : Nat := 65535
/-- `IR_OFF_ERSTSZ` (R7). -/
abbrev erstszOffset : Nat := 0x08
/-- `IR_OFF_ERSTBA` (R7). -/
abbrev erstbaOffset : Nat := 0x10
/-- `IR_OFF_ERDP` (R7). -/
abbrev erdpOffset : Nat := 0x18
/-- The size of an interrupter register block as far as this spec names it: `ERDP` ends it (R39 to R42). -/
abbrev interrupterBytes : Nat := 0x20
/-- The size of the command port (R48). -/
abbrev hostportBytes : Nat := 0x50

/-- FREE VALUE (assumption 5). What a 64-bit result register holds after a command whose result, as a natural number,
does not fit it: the spec states no value there (R9 asks the rule to say, and none does). Applied to
the state's count of the draws made so far. -/
opaque Config.freeWord : Nat → Word64

end Sys2Proof
end

