-- ==== Sys2Proof/Machine/State.lean ====
section
/-! DEFINITION. The state of the machine (R20 to R49): the command port, the pool, the Ring and EventRing
instances, DMA memory, the controller's register space, the controller's hidden state, and the order
in which the agents act next; the reasons a step can stop; and the state after reset. -/

namespace Sys2Proof.Machine

/-- Why the machine stops. -/
inductive Fault where
  /-- Raised by a memory or register access of the block or of the host some byte of which has no 64-bit
  bus address: that address does not exist (R36, R48). SAFE: the machine stops, no claim about what
  follows can be proved. -/
  | busAddress
  deriving DecidableEq, Repr

/-- Why a step has no meaning. -/
inductive Refusal where
  /-- Raised by an arm of the dispatcher for an instruction without a meaning; no arm does. SAFE. -/
  | notModelled (mnemonic : String)
  /-- Raised by a host access to the command port at another width than the register's own, or not
  naturally aligned, or between two registers: "outside this spec" (R26, U14). SAFE. -/
  | portAccess
  deriving DecidableEq, Repr

/-- The result codes of `STATUS[7:0]` (R210). -/
inductive ResultCode where
  | ok
  | allocationFailure
  | invalidCapacity
  | notInitialized
  | alreadyInitialized
  | badIndex
  | illegalCommand
  | halted
  deriving DecidableEq, Repr

/-- The lifecycle of an instance (R30, R32). -/
inductive Lifecycle where
  | uninit
  | ready
  | failed
  deriving DecidableEq, Repr

/-- A Queue Entry as its four words (R96). -/
structure Entry where
  w0 : Word32
  w1 : Word32
  w2 : Word32
  w3 : Word32
  deriving DecidableEq, Repr

/-- The command port (R20 to R26). -/
structure Port where
  cmd : Word32
  status : Word32
  res : Word64
  arg0 : Word64
  arg1 : Word64
  arg2 : Word64
  arg3 : Word64
  ent0 : Word32
  ent1 : Word32
  ent2 : Word32
  ent3 : Word32
  rent0 : Word32
  rent1 : Word32
  rent2 : Word32
  rent3 : Word32
  deriving DecidableEq, Repr

/-- A Ring instance (R30). -/
structure Ring where
  state : Lifecycle
  base : Word64
  cap : Word64
  widx : Word64
  pcs : Bool
  deriving DecidableEq, Repr

/-- An EventRing instance (R34). It holds no copy of the dequeue pointer: that is `ERDP`. -/
structure EventRing where
  state : Lifecycle
  base : Word64
  cap : Word64
  erst : Word64
  ccs : Bool
  regs : Word64
  deriving DecidableEq, Repr

/-- What the controller holds for a Ring it has been told about (R44): `c_dq`, `c_ccs`; and, the model's own
(assumption 9), the words of the entry at `c_dq` it has read so far, in the order of R192 (word 3, 0, 1), and the
entries it has consumed, oldest first. -/
structure Consumer where
  dq : Word64
  ccs : Bool
  got : List Word32
  taken : List Entry
  deriving DecidableEq, Repr

/-- What the controller holds for an interrupter whose `ERSTBA` has been written (R45): `h_base`, `h_size`,
`h_eq`, `h_pcs`. -/
structure Producer where
  base : Word64
  size : BitVec 16
  enq : Word64
  pcs : Bool
  deriving DecidableEq, Repr

/-- An action of the host while the block is idle (R12, R20 to R26, R108). -/
inductive HostAction where
  /-- A write of `width` bytes of `v` to the port register at offset `off`. -/
  | portWrite (off width : Nat) (v : Word64)
  /-- A read of `width` bytes at offset `off`. -/
  | portRead (off width : Nat)
  /-- A port write of the value the host read last: how `EPID.OF` hands `RES` on to `ARG0` (R108). -/
  | portForward (off width : Nat)
  /-- `HOST.WR32` (R108): a direct write of one 32-bit word to DMA memory. -/
  | memWrite32 (addr : Word64) (v : Word32)
  /-- `HOST.RD32` (R108). -/
  | memRead32 (addr : Word64)
  deriving DecidableEq, Repr

/-- A step of the controller (44_controller_agent.md). -/
inductive ControllerAction where
  /-- Out-of-scope logic tells the controller of Ring `i` (R191). -/
  | tellRing (i : Nat)
  /-- The next read of the consume step or the link step on Ring `i` (R192, R193). -/
  | consume (i : Nat)
  /-- A write of word 0, 1 or 2 of the slot at `h_eq`, ahead of its word 3 (R198). -/
  | writeWord (regs : Nat) (k : Fin 3) (v : Word32)
  /-- The produce step on the interrupter at `regs`, with an opaque payload: word 3 becomes visible, no
  earlier than words 0, 1, 2 (R197, R198). -/
  | produce (regs : Nat) (payload : Entry)
  /-- The controller changes the status bits of `ERDP` on its own (R47, R201). -/
  | latch (regs : Nat) (status : BitVec 4)
  deriving DecidableEq, Repr

/-- One entry of the order in which the agents act (R70). -/
inductive Move where
  | host (a : HostAction)
  | controller (a : ControllerAction)
  /-- The reset input is asserted (R240). -/
  | reset
  /-- The block's next memory or register event happens here. -/
  | block
  deriving DecidableEq, Repr

/-- A byte-addressed space: the bytes that differ from what an unlisted address reads as, by address. -/
abbrev Memory := List Host.Cell

/-- The whole state. -/
structure State where
  /-- The parameters of R7; no step changes them. -/
  cfg : Config
  /-- The command port (R20 to R26). -/
  port : Port
  /-- `pool.cursor` (R28). -/
  cursor : Nat
  /-- `ring[0] .. ring[NUM_RINGS-1]` (R30). -/
  rings : List Ring
  /-- `er[0] .. er[NUM_ERINGS-1]` (R34). -/
  erings : List EventRing
  /-- DMA memory (R36). -/
  mem : Memory
  /-- The controller's register space (R39 to R42, R64). -/
  mmio : Memory
  /-- The controller's state for each Ring, `none` until it is told (R44, R191). -/
  consumers : List (Option Consumer)
  /-- The controller's state for each interrupter whose `ERSTBA` was written, by `regs` (R45, R196). -/
  producers : List (Nat × Producer)
  /-- The model's own: the order in which the agents act next, first entry first (R70; assumption 3). -/
  agenda : List Move
  /-- The model's own: the value the host's last read returned (assumption 11). -/
  hostData : Word64
  /-- The model's own: how many free values have been drawn (assumption 5). -/
  draws : Nat
  deriving DecidableEq, Repr

/-- The command port after reset (R49): every register 0. -/
def Port.reset : Port where
  cmd := 0
  status := 0
  res := 0
  arg0 := 0
  arg1 := 0
  arg2 := 0
  arg3 := 0
  ent0 := 0
  ent1 := 0
  ent2 := 0
  ent3 := 0
  rent0 := 0
  rent1 := 0
  rent2 := 0
  rent3 := 0

/-- A Ring after reset (R49): `UNINIT`. The spec gives the other fields no value; 0 here is DESIGN CHOICE
(assumption 4), and no rule reads them. -/
def Ring.reset : Ring where
  state := .uninit
  base := 0
  cap := 0
  widx := 0
  pcs := false

/-- An EventRing after reset (R49), as for a Ring (assumption 4). -/
def EventRing.reset : EventRing where
  state := .uninit
  base := 0
  cap := 0
  erst := 0
  ccs := false
  regs := 0

/-- The machine at power-up with the given parameters (R7, R49): the block reset, nothing listed in
memory or in the register space (assumptions 1 and 6), the controller told of nothing, nobody about
to act. -/
def State.powerUp (cfg : Config) : State where
  cfg := cfg
  port := Port.reset
  cursor := cfg.poolBase
  rings := List.replicate cfg.numRings Ring.reset
  erings := List.replicate cfg.numERings EventRing.reset
  mem := []
  mmio := []
  consumers := List.replicate cfg.numRings none
  producers := []
  agenda := []
  hostData := 0
  draws := 0

/-- The machine right after reset (R49), with the parameters of the spec's worked examples, 4 Rings and
2 EventRings among them (assumption 2: the spec leaves them OPEN). -/
def State.reset : State := State.powerUp Config.worked

end Sys2Proof.Machine
end

