-- ==== Sys2Proof/Machine/Flags.lean ====
section
/-! DEFINITION. The single bits the block lives by: the cycle bit and the toggle flag of an entry (R96 to R99),
`STATUS.FAULT` and `STATUS.code` (R21), the status bits of `ERDP` (R42, R47, R103). -/

namespace Sys2Proof.Machine

/-- A cycle bit as bit 0 of a word (R8: true is 1). -/
def bit32 (c : Bool) : Word32 := if c then 1#32 else 0#32

/-- `cycle_of` (R98): bit 0 of word 3. -/
def cycleOf (w3 : Word32) : Bool := w3.getLsbD 0

/-- `stamp` (R98): bit 0 replaced by the cycle bit, bits 31:1 kept. -/
def stamp (w3 : Word32) (c : Bool) : Word32 := (w3 &&& 0xFFFFFFFE#32) ||| bit32 c

/-- The toggle flag, bit 1 of word 3 of a Link entry (R97). -/
def toggleOf (w3 : Word32) : Bool := w3.getLsbD 1

/-- Bits 15:10 of word 3 hold `LINK_TYPE` (R97, R193). -/
def isLink (w3 : Word32) : Bool := w3.extractLsb' 10 6 == 6#6

/-- The zero entry (R99). -/
def zeroEntry : Entry where
  w0 := 0
  w1 := 0
  w2 := 0
  w3 := 0

/-- `link_entry` (R97): pointer `base`, type 6, toggle flag set, cycle bit `c`. -/
def linkEntry (base : Word64) (c : Bool) : Entry where
  w0 := base.extractLsb' 0 32
  w1 := base.extractLsb' 32 32
  w2 := 0
  w3 := 0x00001802#32 ||| bit32 c

/-- The pointer field of a Link entry, `w1 ++ w0[31:4] ++ 0b0000` (R193). -/
def linkTarget (w0 w1 : Word32) : Word64 :=
  (w1.setWidth 64 <<< 32) ||| (w0.setWidth 64 &&& 0xFFFFFFF0#64)

/-- The pointer bits of `ERDP` (R42). -/
def erdpPtrMask : Word64 := 0xFFFFFFFFFFFFFFF0#64
/-- `ERDP_STATUS_MASK` (R7, R42). -/
def erdpStatusMask : Word64 := 0xF#64

/-- `erdp_ptr` (R103). -/
def erdpPtr (v : Word64) : Word64 := v &&& erdpPtrMask

/-- `erdp_merge` (R103): the pointer `p`, a natural number whose bits 63:4 are taken, and the status bits of
`old`. -/
def erdpMerge (old : Word64) (p : Nat) : Word64 :=
  (BitVec.ofNat 64 p &&& erdpPtrMask) ||| (old &&& erdpStatusMask)

/-- `erdp_write_model` (R47): the register's status bits after a write of `w` when it held `old`. -/
def erdpStatusAfter (model : ErdpWriteModel) (old w : Word64) : Word64 :=
  match model with
  | .plain => w &&& 0xF#64
  | .rw1cBit3 => (w &&& 0x7#64) ||| (old &&& ~~~w &&& 0x8#64)

/-- What `ERDP` holds after a write of `w` when it held `old` (R201): the pointer field of `w`, and the status
bits the controller makes of both. -/
def erdpAfter (model : ErdpWriteModel) (old w : Word64) : Word64 :=
  (w &&& erdpPtrMask) ||| erdpStatusAfter model old w

/-- Bits 63:6 of a table or segment address; bits 5:0 are reserved (R41, R100). -/
def align64Mask : Word64 := 0xFFFFFFFFFFFFFFC0#64

/-- `STATUS.FAULT`, bit 31 (R21). -/
def faultBit : Word32 := 0x80000000#32

/-- `STATUS.FAULT` is set: the block is halted (R217). -/
def State.halted (s : State) : Bool := s.port.status.getLsbD 31

/-- `STATUS.code` as it stands in bits 7:0 (R210). -/
def ResultCode.word : ResultCode → Word32
  | .ok => 0
  | .allocationFailure => 1
  | .invalidCapacity => 2
  | .notInitialized => 3
  | .alreadyInitialized => 4
  | .badIndex => 5
  | .illegalCommand => 6
  | .halted => 7

/-- `STATUS` after a command (R21): the code, zeros in bits 30:8, and `FAULT`, which a fault sets and nothing
here clears. -/
def statusAfter (old : Word32) (c : ResultCode) (setFault : Bool) : Word32 :=
  (if setFault then faultBit else old &&& faultBit) ||| c.word

/-- The two bits that code a lifecycle state (R30). -/
def Lifecycle.code : Lifecycle → BitVec 2
  | .uninit => 0
  | .ready => 1
  | .failed => 2

end Sys2Proof.Machine
end

