-- ==== Sys2Proof/Machine/Operands.lean ====
section
/-! DEFINITION. The operand forms (R92): scalar operands are the `ARG` registers read as unsigned numbers or as
bit fields, the entry operand of `RING.PUSH` is `ENT0..3`, and the result of `ER.FRONT` goes to
`RENT0..3`. -/

namespace Sys2Proof.Machine

/-- A scalar operand as an unsigned number (R120). -/
def operandNat (arg : Word64) : Nat := arg.toNat

/-- The bits `hi = lo + width - 1` down to `lo` of an operand, zero-extended to 64 bits (R8, R10 `zext_64`). -/
def operandField (arg : Word64) (lo width : Nat) : Word64 := (arg.extractLsb' lo width).setWidth 64

/-- A truth operand: true unless 0 (R171). -/
def operandTrue (arg : Word64) : Bool := arg ≠ 0

/-- The Queue Entry operand of `RING.PUSH` (R24). -/
def Port.entry (p : Port) : Entry where
  w0 := p.ent0
  w1 := p.ent1
  w2 := p.ent2
  w3 := p.ent3

/-- The port with an entry as the operand of `RING.PUSH` (R24). -/
def Port.withEntry (p : Port) (e : Entry) : Port :=
  { p with ent0 := e.w0, ent1 := e.w1, ent2 := e.w2, ent3 := e.w3 }

/-- The port with a command word in `CMD` (R20). -/
def Port.withCmd (p : Port) (w : Word32) : Port := { p with cmd := w }

/-- The port with the entry read by `ER.FRONT` (R25, R156). -/
def Port.withFront (p : Port) (e : Entry) : Port :=
  { p with rent0 := e.w0, rent1 := e.w1, rent2 := e.w2, rent3 := e.w3 }

/-- The entry `RENT0..3` hold (R25). -/
def Port.front (p : Port) : Entry where
  w0 := p.rent0
  w1 := p.rent1
  w2 := p.rent2
  w3 := p.rent3

/-- A bit as a 64-bit result (R155, R174). -/
def bit64 (b : Bool) : Word64 := if b then 1#64 else 0#64

end Sys2Proof.Machine
end

