-- ==== Sys2Proof/Machine/Memory.lean ====
section
/-! DEFINITION. Byte-addressed memory held as the bytes that differ from 0, by strictly rising address; the
little-endian accesses built from it (R61, R62, R64). The same table operations serve the
controller's own table of producers. -/

namespace Sys2Proof.Machine

variable {α : Type}

/-- What a table holds under a key. -/
def tableGet : List (Nat × α) → Nat → Option α
  | [], _ => none
  | (k, v) :: t, x => if k = x then some v else tableGet t x

/-- A table without a key. -/
def tableDrop (t : List (Nat × α)) (x : Nat) : List (Nat × α) := t.filter fun c => c.1 ≠ x

/-- A table with an entry put before the first larger key. -/
def tableInsert : List (Nat × α) → Nat → α → List (Nat × α)
  | [], x, v => [(x, v)]
  | c :: t, x, v => if x < c.1 then (x, v) :: c :: t else c :: tableInsert t x v

/-- A table with the entry of a key replaced or added. -/
def tablePut (t : List (Nat × α)) (x : Nat) (v : α) : List (Nat × α) := tableInsert (tableDrop t x) x v

/-- The keys of a table rise strictly: its canonical order. -/
abbrev tableSorted (t : List (Nat × α)) : Prop := t.Pairwise fun a b => a.1 < b.1

/-- What an unlisted address reads as. The contents of memory at power-up are unspecified (R36, U19); 0 is
DESIGN CHOICE (assumption 1). -/
def Memory.background : Byte := 0

/-- The byte at an address. -/
def Memory.peek (m : Memory) (a : Nat) : Byte := (tableGet m a).getD Memory.background

/-- Memory with one byte changed; the value an unlisted address reads as is not listed. -/
def Memory.poke (m : Memory) (a : Nat) (b : Byte) : Memory :=
  if b = Memory.background then tableDrop m a else tablePut m a b

/-- The canonical form: addresses strictly rise, lie in the address space, and no listed byte is the one an
unlisted address reads as. -/
abbrev Memory.wf (m : Memory) : Prop :=
  tableSorted m ∧ ∀ c ∈ m, c.1 < addressSpace ∧ c.2 ≠ Memory.background

/-- `MemRead`, `MmioRead` (R62, R64): `n` bytes at `a`, the byte at the lowest address least significant. -/
def Memory.read (m : Memory) : Nat → Nat → Nat
  | _, 0 => 0
  | a, n + 1 => (m.peek a).toNat + 256 * Memory.read m (a + 1) n

/-- `MemWrite`, `MmioWrite` (R62, R64): the low `8 * n` bits of `v` at `a`, little-endian. -/
def Memory.write (m : Memory) : Nat → Nat → Nat → Memory
  | _, 0, _ => m
  | a, n + 1, v => Memory.write (m.poke a (BitVec.ofNat 8 v)) (a + 1) n (v / 256)

/-- The 32-bit word at `a` (R37). -/
def Memory.read32 (m : Memory) (a : Nat) : Word32 := BitVec.ofNat 32 (m.read a 4)

/-- The 64-bit word at `a` (R61). -/
def Memory.read64 (m : Memory) (a : Nat) : Word64 := BitVec.ofNat 64 (m.read a 8)

/-- Memory with a 32-bit word written at `a` (R37). -/
def Memory.write32 (m : Memory) (a : Nat) (v : Word32) : Memory := m.write a 4 v.toNat

/-- Memory with a 64-bit word written at `a` (R61). -/
def Memory.write64 (m : Memory) (a : Nat) (v : Word64) : Memory := m.write a 8 v.toNat

/-- The Queue Entry at `a` (R37). -/
def Memory.entryAt (m : Memory) (a : Nat) : Entry where
  w0 := m.read32 a
  w1 := m.read32 (a + 4)
  w2 := m.read32 (a + 8)
  w3 := m.read32 (a + 12)

/-- Memory with a Queue Entry written at `a`, words 0, 1, 2 and then word 3 (R37, R198). -/
def Memory.writeEntry (m : Memory) (a : Nat) (e : Entry) : Memory :=
  (((m.write32 a e.w0).write32 (a + 4) e.w1).write32 (a + 8) e.w2).write32 (a + 12) e.w3

end Sys2Proof.Machine
end

