-- ==== Sys2Proof/Machine/Controller.lean ====
section
/-! DEFINITION. The controller: the three interrupter registers it owns (R39 to R43, R47) and the steps it takes
on its own (44_controller_agent.md). A step it may not take changes nothing: its duties are kept by
these definitions, its liberties stand in the agenda. -/

namespace Sys2Proof.Machine

/-- `ERSTSZ` of the interrupter at `regs` (R40). -/
def State.erstsz (s : State) (regs : Nat) : Word32 := s.mmio.read32 (regs + erstszOffset)

/-- `ERSTBA` of the interrupter at `regs` (R41). -/
def State.erstba (s : State) (regs : Nat) : Word64 := s.mmio.read64 (regs + erstbaOffset)

/-- `ERDP` of the interrupter at `regs` (R42). -/
def State.erdp (s : State) (regs : Nat) : Word64 := s.mmio.read64 (regs + erdpOffset)

/-- What the controller makes of a write of `w` to `ERDP` (R201). -/
def State.erdpWrite (s : State) (regs : Nat) (w : Word64) : State :=
  { s with
    mmio := s.mmio.write64 (regs + erdpOffset) (erdpAfter s.cfg.erdpWriteModel (s.erdp regs) w) }

/-- The start of the producer (R196): the controller reads the segment-table entry at the address just
written to `ERSTBA`. -/
def segmentAt (mem : Memory) (table : Word64) : Producer :=
  let t := (table &&& align64Mask).toNat
  let base := mem.read64 t &&& align64Mask
  { base := base
    size := (mem.read64 (t + 8)).setWidth 16
    enq := base
    pcs := true }

/-- What the controller makes of a write of `w` to `ERSTBA`: it stores the value (R201) and starts producing into
the segment the table describes (R196). -/
def State.erstbaWrite (s : State) (regs : Nat) (w : Word64) : State :=
  { s with
    mmio := s.mmio.write64 (regs + erstbaOffset) w
    producers := tablePut s.producers regs (segmentAt s.mem w) }

/-- The link step (R193): `c_dq` goes to the entry's pointer and, with the toggle flag, `c_ccs` flips. -/
def Consumer.follow (c : Consumer) (w3 w0 w1 : Word32) : Consumer :=
  { c with dq := linkTarget w0 w1, ccs := if toggleOf w3 then !c.ccs else c.ccs, got := [] }

/-- The end of the consume step (R192): the entry is read whole and passed. No address follows the last one:
there the controller takes no step (assumption 9). -/
def Consumer.take (c : Consumer) (e : Entry) : Consumer :=
  if c.dq.toNat + entryBytes < addressSpace then
    { c with dq := BitVec.ofNat 64 (c.dq.toNat + entryBytes), got := [], taken := c.taken ++ [e] }
  else c

/-- The next read of the consume step or the link step (R192, R193): word 3 first, a stale one changes nothing;
then words 0, 1, and 2, one event each, so that others may act in between (R70). A Link entry is followed
when its pointer has been read, any other entry is passed when all of it has. -/
def Consumer.look (mem : Memory) (c : Consumer) : Consumer :=
  let word (k : Nat) : Word32 := mem.read32 (c.dq.toNat + 4 * k)
  match c.got with
  | [] => if cycleOf (word 3) = c.ccs then { c with got := [word 3] } else c
  | [w3] => { c with got := [w3, word 0] }
  | [w3, w0] => if isLink w3 then c.follow w3 w0 (word 1) else { c with got := [w3, w0, word 1] }
  | w3 :: w0 :: w1 :: _ => c.take { w0 := w0, w1 := w1, w2 := word 2, w3 := w3 }

/-- The producer passes its segment's last slot (R198). -/
def Producer.wraps (p : Producer) : Bool :=
  p.enq.toNat + entryBytes == p.base.toNat + entryBytes * p.size.toNat

/-- Where `h_eq` goes next (R198). -/
def Producer.nextEnq (p : Producer) : Nat :=
  if p.wraps then p.base.toNat else p.enq.toNat + entryBytes

/-- The producer may write the slot at `h_eq`: advancing would not reach the dequeue pointer (R199), and the slot
and the next one have addresses (assumption 9). -/
def Producer.mayProduce (p : Producer) (dequeue : Word64) : Bool :=
  p.nextEnq ≠ dequeue.toNat && p.enq.toNat + entryBytes ≤ addressSpace && p.nextEnq < addressSpace

/-- The producer after one event entry (R198). -/
def Producer.advance (p : Producer) : Producer :=
  { p with enq := BitVec.ofNat 64 p.nextEnq, pcs := if p.wraps then !p.pcs else p.pcs }

/-- A write of one of the words 0, 1, 2 of the slot at `h_eq`, ahead of its word 3 (R197 to R199). -/
def State.writeWord (s : State) (regs : Nat) (k : Fin 3) (v : Word32) : State :=
  match tableGet s.producers regs with
  | none => s
  | some p =>
    if p.mayProduce (erdpPtr (s.erdp regs)) then { s with mem := s.mem.write32 (p.enq.toNat + 4 * k.val) v }
    else s

/-- The produce step on the interrupter at `regs` (R197 to R199): the entry is whole when its word 3 is there. -/
def State.produce (s : State) (regs : Nat) (payload : Entry) : State :=
  match tableGet s.producers regs with
  | none => s
  | some p =>
    if p.mayProduce (erdpPtr (s.erdp regs)) then
      { s with
        mem := s.mem.writeEntry p.enq.toNat { payload with w3 := stamp payload.w3 p.pcs }
        producers := tablePut s.producers regs p.advance }
    else s

/-- The controller is told of Ring `i` (R191): it starts at the base with expected cycle value 1. -/
def State.tellRing (s : State) (i : Nat) : State :=
  match s.rings[i]? with
  | none => s
  | some r =>
    if r.state = .ready then
      { s with consumers := s.consumers.set i (some { dq := r.base, ccs := true, got := [], taken := [] }) }
    else s

/-- The next read of the consume or link step on Ring `i`, once the controller has been told of it (R191 to R193). -/
def State.consume (s : State) (i : Nat) : State :=
  match s.consumers[i]? with
  | some (some c) => { s with consumers := s.consumers.set i (some (c.look s.mem)) }
  | some none => s
  | none => s

/-- The address `regs` is that of an interrupter of the platform, or of one the block has registered. -/
def State.isInterrupter (s : State) (regs : Nat) : Bool :=
  s.cfg.interrupters.contains regs || (tableGet s.producers regs).isSome

/-- The controller changes the status bits of `ERDP` on its own (R47, R201); the pointer bits stay. -/
def State.latch (s : State) (regs : Nat) (status : BitVec 4) : State :=
  if s.isInterrupter regs && regs + interrupterBytes ≤ addressSpace then
    { s with
      mmio := s.mmio.write64 (regs + erdpOffset) (erdpPtr (s.erdp regs) ||| status.setWidth 64) }
  else s

/-- One step of the controller. -/
def State.controllerStep (s : State) : ControllerAction → State
  | .tellRing i => s.tellRing i
  | .consume i => s.consume i
  | .writeWord regs k v => s.writeWord regs k v
  | .produce regs payload => s.produce regs payload
  | .latch regs status => s.latch regs status

end Sys2Proof.Machine
end

