-- ==== Sys2Proof/Machine/Ops.lean ====
section
/-! DEFINITION. The operations every command is made of: how a command ends (R10, R214 to R217), reset
(R240), the block's memory and register events with the controller between them (R60 to R64, R70),
and the checks of the dispatcher that look at state (R216). -/

namespace Sys2Proof.Machine

/-- What a step or a command answers. -/
abbrev Outcome := Host.Outcome State Fault Refusal

/-- A part of a command: it goes on with a value, or the step ends early with an outcome (the block was
reset between two events, or an access had no address). -/
abbrev Run (α : Type) := Except Outcome α

/-- The outcome of a command run to its end. -/
def Run.outcome : Run State → Outcome
  | .ok s => .next s
  | .error o => o

/-! ### How a command ends -/

/-- The shared end of every command: `STATUS` and `RES` (R21, R22). This is also how an error is taken:
there is no trap entry, an error is reported in `STATUS` and `RES` and nowhere else (R224). -/
def State.endWith (s : State) (c : ResultCode) (setFault : Bool) (res : Word64) : State :=
  { s with port := { s.port with status := statusAfter s.port.status c setFault, res := res } }

/-- `done v` (R10). -/
def State.done (s : State) (v : Word64) : State := s.endWith .ok false v

/-- `done v` for a natural number: where it does not fit 64 bits the spec states no value and `RES` is a free
value (assumption 5). -/
def State.doneNat (s : State) (v : Nat) : State :=
  if v < addressSpace then s.done (BitVec.ofNat 64 v)
  else State.done { s with draws := s.draws + 1 } (Config.freeWord s.draws)

/-- `fail c` (R10, R214). -/
def State.fail (s : State) (c : ResultCode) : State := s.endWith c false 0

/-- `fault c` (R10, R215): as `fail`, and `STATUS.FAULT` is set. -/
def State.takeFault (s : State) (c : ResultCode) : State := s.endWith c true 0

/-- `refuse HALTED` (R10, R217). -/
def State.refuseHalted (s : State) : State := s.endWith .halted false 0

/-- The reset input (R240): every piece of the block's own state as R49 says; DMA memory, the controller's
registers and the controller's own state stay (R241). It is the only way out of the halted state. -/
def State.assertReset (s : State) : State :=
  { s with
    port := Port.reset
    cursor := s.cfg.poolBase
    rings := s.rings.map fun _ => Ring.reset
    erings := s.erings.map fun _ => EventRing.reset }

/-! ### Events -/

/-- What happens between two events of a command (R70): the controller takes the steps the agenda lists
before the block's next event; a reset abandons the command (R240); a host action waits, since the
host is held while a command runs (R71). -/
def betweenEvents : List Move → State → Run State
  | [], s => .ok { s with agenda := [] }
  | .block :: rest, s => .ok { s with agenda := rest }
  | .host a :: rest, s => .ok { s with agenda := .host a :: rest }
  | .reset :: rest, s => .error (.next { s.assertReset with agenda := rest })
  | .controller a :: rest, s => betweenEvents rest (s.controllerStep a)

/-- The state in which the block's next event happens. -/
def State.nextEvent (s : State) : Run State := betweenEvents s.agenda s

/-- An access of `n` bytes at `a` has addresses (R36, R48). -/
def inAddressSpace (a n : Nat) : Bool := a + n ≤ addressSpace

/-- `MemWrite(a, 4, v)` (R62). -/
def State.memWrite32 (s : State) (a : Nat) (v : Word32) : Run State := do
  let s ← s.nextEvent
  if inAddressSpace a 4 then .ok { s with mem := s.mem.write32 a v } else .error (.fault .busAddress)

/-- `MemWrite(a, 8, v)` (R62). -/
def State.memWrite64 (s : State) (a : Nat) (v : Word64) : Run State := do
  let s ← s.nextEvent
  if inAddressSpace a 8 then .ok { s with mem := s.mem.write64 a v } else .error (.fault .busAddress)

/-- `MemRead(a, 4)` (R62). -/
def State.memRead32 (s : State) (a : Nat) : Run (Word32 × State) := do
  let s ← s.nextEvent
  if inAddressSpace a 4 then .ok (s.mem.read32 a, s) else .error (.fault .busAddress)

/-- `MmioWrite` of `ERSTSZ` (R40, R64). -/
def State.erstszEvent (s : State) (regs : Nat) (v : Word32) : Run State := do
  let s ← s.nextEvent
  if inAddressSpace (regs + erstszOffset) 4 then
    .ok { s with mmio := s.mmio.write32 (regs + erstszOffset) v }
  else .error (.fault .busAddress)

/-- `MmioWrite` of `ERSTBA` (R41, R64), with its effect on the controller (R43, R196). -/
def State.erstbaEvent (s : State) (regs : Nat) (v : Word64) : Run State := do
  let s ← s.nextEvent
  if inAddressSpace (regs + erstbaOffset) 8 then .ok (s.erstbaWrite regs v)
  else .error (.fault .busAddress)

/-- `MmioRead` of `ERDP` (R42, R64). -/
def State.erdpReadEvent (s : State) (regs : Nat) : Run (Word64 × State) := do
  let s ← s.nextEvent
  if inAddressSpace (regs + erdpOffset) 8 then .ok (s.erdp regs, s) else .error (.fault .busAddress)

/-- `MmioWrite` of `ERDP` (R42, R64), with the controller's choice of status bits (R47, R201). -/
def State.erdpWriteEvent (s : State) (regs : Nat) (v : Word64) : Run State := do
  let s ← s.nextEvent
  if inAddressSpace (regs + erdpOffset) 8 then .ok (s.erdpWrite regs v)
  else .error (.fault .busAddress)

/-- The four word writes of a Queue Entry, word 3 last (R72, R139). -/
def State.entryEvents (s : State) (a : Nat) (e : Entry) : Run State := do
  let s ← s.memWrite32 a e.w0
  let s ← s.memWrite32 (a + 4) e.w1
  let s ← s.memWrite32 (a + 8) e.w2
  s.memWrite32 (a + 12) e.w3

/-- The zero-fill of `n` slots from `a` upward, words 0 to 3 in each (R136, R151). -/
def zeroFill : Nat → Nat → State → Run State
  | 0, _, s => .ok s
  | n + 1, a, s => do
    let s ← s.entryEvents a zeroEntry
    zeroFill n (a + entryBytes) s

/-! ### Instances and the dispatcher -/

/-- The state with Ring `i` changed. -/
def State.setRing (s : State) (i : Nat) (r : Ring) : State := { s with rings := s.rings.set i r }

/-- The state with EventRing `j` changed. -/
def State.setEventRing (s : State) (j : Nat) (e : EventRing) : State :=
  { s with erings := s.erings.set j e }

/-- Step 1 of the dispatcher (R216): a halted block refuses every command (R217). -/
def State.unlessHalted (s : State) (o : Outcome) : Outcome :=
  if s.halted then .next s.refuseHalted else o

/-- The fault of a command whose instance is not in the state it needs (steps 4 and 5 of R216; R219, R220). -/
def wrongState (need : Lifecycle) : ResultCode :=
  if need = .uninit then .alreadyInitialized else .notInitialized

/-- Steps 1, 3, 4 and 5 of the dispatcher for a `RING` command (R216, R135). -/
def State.onRing (s : State) (i : Nat) (need : Lifecycle) (run : Ring → Outcome) : Outcome :=
  s.unlessHalted <|
    match s.rings[i]? with
    | none => .next (s.takeFault .badIndex)
    | some r => if r.state = need then run r else .next (s.takeFault (wrongState need))

/-- Steps 1, 3, 4 and 5 of the dispatcher for an `ER` command (R216, R150). -/
def State.onEventRing (s : State) (j : Nat) (need : Lifecycle) (run : EventRing → Outcome) : Outcome :=
  s.unlessHalted <|
    match s.erings[j]? with
    | none => .next (s.takeFault .badIndex)
    | some e => if e.state = need then run e else .next (s.takeFault (wrongState need))

end Sys2Proof.Machine
end

