-- ==== Sys2Proof/Machine/Endpoint.lean ====
section
/-! DEFINITION. The nine EndpointID and EndpointConfig commands (43_endpoint.md): each computes `RES` from the `ARG`
registers and touches nothing else (R170). -/

namespace Sys2Proof.Machine

/-- `number * 2 + direction`, kept to 64 bits (R171). -/
def endpointMake (number : Word64) (dirIn : Bool) : Word64 :=
  BitVec.ofNat 64 (number.toNat * 2 + dirIn.toNat)

/-- The endpoint number of an EndpointID (R173). -/
def endpointNumber (id : Word64) : Word64 := BitVec.ofNat 64 (id.toNat / 2)

/-- The direction bit of an EndpointID (R174). -/
def endpointIsIn (id : Word64) : Bool := id.getLsbD 0

/-- The packed EndpointConfig (R105, R177): each operand cut to its field. -/
def configPack (id type mps ival : Word64) : Word64 :=
  operandField id 0 5 ||| (operandField type 0 2 <<< 8) ||| (operandField mps 0 16 <<< 16)
    ||| (operandField ival 0 8 <<< 32)

/-- A command that only computes a result (R170). Its formula is applied to every operand, as R170 and D31 have the
hardware do; that the model answers with the value also for an operand outside the source's ranges, where
R170 and U10 ask a model for a violated precondition, is DESIGN CHOICE, safe (assumption 20): the precondition
is the predicate `operandsInRange`. -/
def State.combinational (s : State) (v : Word64) : Outcome := s.unlessHalted <| .next (s.done v)

/-- `EPID.MAKE number, dir_in` (R171). -/
def execEpidMake (s : State) : Outcome :=
  s.combinational (endpointMake s.port.arg0 (operandTrue s.port.arg1))

/-- `EPID.ADDR id` (R172): an EndpointID is its address. -/
def execEpidAddr (s : State) : Outcome := s.combinational s.port.arg0

/-- `EPID.NUM id` (R173). -/
def execEpidNum (s : State) : Outcome := s.combinational (endpointNumber s.port.arg0)

/-- `EPID.ISIN id` (R174). -/
def execEpidIsIn (s : State) : Outcome := s.combinational (bit64 (endpointIsIn s.port.arg0))

/-- `EPCFG.MAKE id, type, mps, ival` (R177). -/
def execEpcfgMake (s : State) : Outcome :=
  s.combinational (configPack s.port.arg0 s.port.arg1 s.port.arg2 s.port.arg3)

/-- `EPCFG.EPID cfg` (R178). -/
def execEpcfgEpid (s : State) : Outcome := s.combinational (operandField s.port.arg0 0 5)

/-- `EPCFG.TYPE cfg` (R179). -/
def execEpcfgType (s : State) : Outcome := s.combinational (operandField s.port.arg0 8 2)

/-- `EPCFG.MPS cfg` (R180). -/
def execEpcfgMps (s : State) : Outcome := s.combinational (operandField s.port.arg0 16 16)

/-- `EPCFG.IVAL cfg` (R181). -/
def execEpcfgIval (s : State) : Outcome := s.combinational (operandField s.port.arg0 32 8)

end Sys2Proof.Machine
end

