-- ==== Sys2Proof/Machine/Pool.lean ====
section
/-! DEFINITION. The MemoryPool commands (40_pool.md): the allocator of R121, and `POOL.ALLOC`,
`POOL.ALLOCARR`, `POOL.FREE`. -/

namespace Sys2Proof.Machine

/-- `align_up` (R9): the least multiple of `a` not below `x`; `x` itself for `a = 0`. -/
def alignUp (x a : Nat) : Nat := if a = 0 then x else (x + (a - 1)) / a * a

/-- `crosses` (R9): the bytes `[s, s+n)` lie on both sides of some multiple of `b`. -/
def crosses (s n b : Nat) : Bool :=
  if b = 0 ∨ n = 0 then false else s / b ≠ (s + n - 1) / b

/-- Where a region would start (R121): alignment first, then the move to the next boundary multiple. -/
def regionStart (cursor size alignment boundary : Nat) : Nat :=
  let s0 := alignUp cursor alignment
  if crosses s0 size boundary then alignUp s0 boundary else s0

/-- `pool_alloc` (R121): the start of the region, or nothing where the command fails. The operands and the cursor
alone decide it (R29), so a request that fails by the alignment re-check is decided anew at a later cursor; that
this follows R121 and not the wording of R123 is DEDUCED, unsafe if R123 is meant to bind (assumption 15). -/
def placeRegion (limit cursor size alignment boundary : Nat) : Option Nat :=
  let s := regionStart cursor size alignment boundary
  if alignment > 0 ∧ s % alignment ≠ 0 then none
  else if s + size > limit then none
  else some s

/-- `pool_alloc` on the state: the start of the region and the state with the cursor behind it (R121). -/
def State.allocate (s : State) (size alignment boundary : Nat) : Option (Nat × State) :=
  match placeRegion s.cfg.poolEnd s.cursor size alignment boundary with
  | none => none
  | some a => some (a, { s with cursor := a + size })

/-- The end of an allocating command: the region's start, or `fail ALLOCATION_FAILURE` (R121, R211). -/
def State.allocCommand (s : State) (size alignment boundary : Nat) : Outcome :=
  match s.allocate size alignment boundary with
  | none => .next (s.fail .allocationFailure)
  | some (a, s') => .next (s'.doneNat a)

/-- `POOL.ALLOC size, alignment, boundary` (R121). -/
def execPoolAlloc (s : State) : Outcome :=
  s.unlessHalted <|
    s.allocCommand (operandNat s.port.arg0) (operandNat s.port.arg1) (operandNat s.port.arg2)

/-- `POOL.ALLOCARR count, elementSize, alignment, boundary` (R124): the product never wraps. -/
def execPoolAllocArr (s : State) : Outcome :=
  s.unlessHalted <|
    s.allocCommand (operandNat s.port.arg0 * operandNat s.port.arg1)
      (operandNat s.port.arg2) (operandNat s.port.arg3)

/-- `POOL.FREE region` (R125): no effect, the operand is not looked at. -/
def execPoolFree (s : State) : Outcome :=
  s.unlessHalted <| .next (s.done 0)

end Sys2Proof.Machine
end

