-- ==== Sys2Proof/Machine/EventRing.lean ====
section
/-! DEFINITION. The EventRing commands (42_event_ring.md): `ER.INIT`, `ER.HASFRONT`, `ER.FRONT`, `ER.POP`, and
the `ERDP` update of `event_ring_dequeue_sync` (R159). -/

namespace Sys2Proof.Machine

/-- The address of slot `k` of an event buffer (R80). -/
def EventRing.slot (e : EventRing) (k : Nat) : Nat := e.base.toNat + entryBytes * k

/-- The first address after the last slot (R80, R154). -/
def EventRing.segmentEnd (e : EventRing) : Nat := e.slot e.cap.toNat

/-- The address of the EventRing's interrupter block (R34). -/
def EventRing.regsAddr (e : EventRing) : Nat := e.regs.toNat

/-- An `INIT` of EventRing `j` that fails: the instance is `FAILED` (R151, R214). -/
def State.failEventRing (s : State) (j : Nat) (e : EventRing) (c : ResultCode) : Outcome :=
  .next ((s.setEventRing j { e with state := .failed }).fail c)

/-- An EventRing just initialised (R151). -/
def EventRing.fresh (base cap erst : Nat) (regs : Word64) : EventRing where
  state := .ready
  base := BitVec.ofNat 64 base
  cap := BitVec.ofNat 64 cap
  erst := BitVec.ofNat 64 erst
  ccs := true
  regs := regs

/-- The `ERDP` update (R159): one read, one write derived from it, no other event of the block between
them. `next` computes the new pointer from the pointer read; it is answered. -/
def State.erdpUpdate (s : State) (regs : Nat) (next : Nat → Nat) : Run (Nat × State) := do
  let (old, s) ← s.erdpReadEvent regs
  let p := next (erdpPtr old).toNat
  let s ← s.erdpWriteEvent regs (erdpMerge old p)
  return (p, s)

/-- The memory and register events of `ER.INIT` (R151): zero-fill, segment table, `ERSTSZ`, `ERDP`, and
`ERSTBA` last. -/
def State.registerEvents (s : State) (m b t regs : Nat) : Run State := do
  let s ← zeroFill m b s
  let s ← s.memWrite64 t (BitVec.ofNat 64 b)
  let s ← s.memWrite64 (t + 8) (BitVec.ofNat 64 m)
  let s ← s.erstszEvent regs 1
  let (_, s) ← s.erdpUpdate regs fun _ => b
  s.erstbaEvent regs (BitVec.ofNat 64 t)

/-- The pseudocode of `ER.INIT` (R151) on an `UNINIT` instance. -/
def State.eventRingInit (s : State) (j : Nat) (e : EventRing) : Outcome :=
  let m := operandNat s.port.arg0
  let regs := s.port.arg1
  if m < 1 ∨ m > erCapMax then s.failEventRing j e .invalidCapacity
  else match s.allocate (m * entryBytes) erAlign erBoundary with
    | none => s.failEventRing j e .allocationFailure
    | some (b, s) => match s.allocate erstEntryBytes erstAlign erstBoundary with
      | none => s.failEventRing j e .allocationFailure
      | some (t, s) => Run.outcome do
        let s ← s.registerEvents m b t regs.toNat
        return (s.setEventRing j (EventRing.fresh b m t regs)).done (BitVec.ofNat 64 b)

/-- The dequeue pointer and word 3 of the entry there, in that order (R153, R155, R156): the word-3 read is the
acquire of R73. -/
def State.frontEvents (s : State) (e : EventRing) : Run (Nat × Word32 × State) := do
  let (v, s) ← s.erdpReadEvent e.regsAddr
  let dq := (erdpPtr v).toNat
  let (w3, s) ← s.memRead32 (dq + 12)
  return (dq, w3, s)

/-- The pseudocode of `ER.HASFRONT` (R155). -/
def State.hasFront (s : State) (e : EventRing) : Outcome :=
  Run.outcome do
    let (_, w3, s) ← s.frontEvents e
    return s.done (bit64 (cycleOf w3 == e.ccs))

/-- The pseudocode of `ER.FRONT` (R156): word 3 first, then words 0, 1, 2. -/
def State.front (s : State) (e : EventRing) : Outcome :=
  Run.outcome do
    let (dq, w3, s) ← s.frontEvents e
    let (w0, s) ← s.memRead32 dq
    let (w1, s) ← s.memRead32 (dq + 4)
    let (w2, s) ← s.memRead32 (dq + 8)
    let entry : Entry := { w0 := w0, w1 := w1, w2 := w2, w3 := w3 }
    return State.done { s with port := s.port.withFront entry } (BitVec.ofNat 64 dq)

/-- One slot forward, back to the base after the last one (R158). -/
def EventRing.nextSlot (e : EventRing) (dq : Nat) : Nat :=
  if dq + entryBytes = e.segmentEnd then e.base.toNat else dq + entryBytes

/-- The EventRing after a pop at `dq`: the consumer cycle bit flips at the wrap (R158). -/
def EventRing.popped (e : EventRing) (dq : Nat) : EventRing :=
  if dq + entryBytes = e.segmentEnd then { e with ccs := !e.ccs } else e

/-- The pseudocode of `ER.POP` (R158). -/
def State.pop (s : State) (j : Nat) (e : EventRing) : Outcome :=
  Run.outcome do
    let (old, s) ← s.erdpReadEvent e.regsAddr
    let dq := (erdpPtr old).toNat
    let p := e.nextSlot dq
    let s ← s.erdpWriteEvent e.regsAddr (erdpMerge old p)
    return (s.setEventRing j (e.popped dq)).doneNat p

/-- `ER.INIT@j capacity, regs` (R151). -/
def execErInit (j : Nat) (s : State) : Outcome :=
  s.onEventRing j .uninit fun e => s.eventRingInit j e

/-- `ER.HASFRONT@j` (R155). -/
def execErHasFront (j : Nat) (s : State) : Outcome :=
  s.onEventRing j .ready fun e => s.hasFront e

/-- `ER.FRONT@j` (R156). -/
def execErFront (j : Nat) (s : State) : Outcome :=
  s.onEventRing j .ready fun e => s.front e

/-- `ER.POP@j` (R158). -/
def execErPop (j : Nat) (s : State) : Outcome :=
  s.onEventRing j .ready fun e => s.pop j e

end Sys2Proof.Machine
end

