-- ==== Sys2Proof/Machine/Ring.lean ====
section
/-! DEFINITION. The Ring commands (41_ring.md): `RING.INIT`, `RING.PUSH`, `RING.BUF`. -/

namespace Sys2Proof.Machine

/-- The address of slot `k` of a Ring (R80). -/
def Ring.slot (r : Ring) (k : Nat) : Nat := r.base.toNat + entryBytes * k

/-- An `INIT` of Ring `i` that fails: the instance is `FAILED`, nothing else has changed (R136, R214). -/
def State.failRing (s : State) (i : Nat) (r : Ring) (c : ResultCode) : Outcome :=
  .next ((s.setRing i { r with state := .failed }).fail c)

/-- A Ring just initialised (R136). -/
def Ring.fresh (base cap : Nat) : Ring where
  state := .ready
  base := BitVec.ofNat 64 base
  cap := BitVec.ofNat 64 cap
  widx := 0
  pcs := true

/-- The pseudocode of `RING.INIT` (R136) on an `UNINIT` instance. -/
def State.ringInit (s : State) (i : Nat) (r : Ring) : Outcome :=
  let n := operandNat s.port.arg0
  if n < 2 then s.failRing i r .invalidCapacity
  else match s.allocate (n * entryBytes) ringAlign ringBoundary with
    | none => s.failRing i r .allocationFailure
    | some (b, s) => Run.outcome do
      let s ← zeroFill n b s
      return (s.setRing i (Ring.fresh b n)).done (BitVec.ofNat 64 b)

/-- The cursor would land on the last slot (R139). -/
def Ring.wrapsNext (r : Ring) : Bool := r.widx.toNat + 1 == r.cap.toNat - 1

/-- The Ring after a push (R139). -/
def Ring.advance (r : Ring) : Ring :=
  if r.wrapsNext then { r with widx := 0, pcs := !r.pcs }
  else { r with widx := BitVec.ofNat 64 (r.widx.toNat + 1) }

/-- The entry a push writes: the operand, stamped with the producer cycle bit (R98, R139). -/
def Ring.stamped (r : Ring) (e : Entry) : Entry := { e with w3 := stamp e.w3 r.pcs }

/-- The writes of the wrap: the Link entry in the last slot, with the cycle bit before the wrap (R139). -/
def State.linkEvents (s : State) (r : Ring) : Run State :=
  if r.wrapsNext then s.entryEvents (r.slot (r.cap.toNat - 1)) (linkEntry r.base r.pcs) else .ok s

/-- The pseudocode of `RING.PUSH` (R139) on a `READY` instance. -/
def State.ringPush (s : State) (i : Nat) (r : Ring) : Outcome :=
  let a := r.slot r.widx.toNat
  Run.outcome do
    let s ← s.entryEvents a (r.stamped s.port.entry)
    let s ← s.linkEvents r
    return (s.setRing i r.advance).done (BitVec.ofNat 64 a)

/-- `RING.INIT@i capacity` (R136). -/
def execRingInit (i : Nat) (s : State) : Outcome :=
  s.onRing i .uninit fun r => s.ringInit i r

/-- `RING.PUSH@i entry` (R139). -/
def execRingPush (i : Nat) (s : State) : Outcome :=
  s.onRing i .ready fun r => s.ringPush i r

/-- `RING.BUF@i` (R142). -/
def execRingBuf (i : Nat) (s : State) : Outcome :=
  s.onRing i .ready fun r => .next (s.done r.base)

end Sys2Proof.Machine
end

