-- ==== Sys2Proof/Machine/Dispatch.lean ====
section
/-! DEFINITION. One arm per command of the opcode table. -/

namespace Sys2Proof.Machine

def exec (i : Instr) (s : State) : Host.Outcome State Fault Refusal :=
  match i with
  | .poolAlloc => Sys2Proof.Machine.execPoolAlloc s
  | .poolAllocArr => Sys2Proof.Machine.execPoolAllocArr s
  | .poolFree => Sys2Proof.Machine.execPoolFree s
  | .ringInit idx => Sys2Proof.Machine.execRingInit idx s
  | .ringPush idx => Sys2Proof.Machine.execRingPush idx s
  | .ringBuf idx => Sys2Proof.Machine.execRingBuf idx s
  | .erInit idx => Sys2Proof.Machine.execErInit idx s
  | .erHasFront idx => Sys2Proof.Machine.execErHasFront idx s
  | .erFront idx => Sys2Proof.Machine.execErFront idx s
  | .erPop idx => Sys2Proof.Machine.execErPop idx s
  | .epidMake => Sys2Proof.Machine.execEpidMake s
  | .epidAddr => Sys2Proof.Machine.execEpidAddr s
  | .epidNum => Sys2Proof.Machine.execEpidNum s
  | .epidIsIn => Sys2Proof.Machine.execEpidIsIn s
  | .epcfgMake => Sys2Proof.Machine.execEpcfgMake s
  | .epcfgEpid => Sys2Proof.Machine.execEpcfgEpid s
  | .epcfgType => Sys2Proof.Machine.execEpcfgType s
  | .epcfgMps => Sys2Proof.Machine.execEpcfgMps s
  | .epcfgIval => Sys2Proof.Machine.execEpcfgIval s

end Sys2Proof.Machine
end

