-- ==== Sys2Proof/Machine/Host.lean ====
section
/-! DEFINITION. The host's side: the register map of the command port (R20 to R26), the write of `CMD` that runs
a command (R20, R216), and direct accesses to DMA memory (R12, R108). -/

namespace Sys2Proof.Machine

/-- A write of a 32-bit value to `CMD` (R20): the register keeps it, and the command it encodes runs. A word
that encodes none is `ILLEGAL_COMMAND` unless the block is halted (steps 1 and 2 of R216). -/
def State.command (s : State) (w : Word32) : Outcome :=
  let s := { s with port := s.port.withCmd w }
  match decode w with
  | .ok i => exec i s
  | .error _ => s.unlessHalted <| .next (s.takeFault .illegalCommand)

/-- The offsets of the port that hold no register, accessed naturally aligned at 4 or 8 bytes (R26). -/
def unusedAccess (off width : Nat) : Bool :=
  (off == 0x0C && width == 4) ||
    (hostportBytes ≤ off && (width == 4 || width == 8) && off % width == 0)

/-- What a host read of the port answers (R20 to R26), zero-extended; nothing where the access is not of one
register's full width (U14). -/
def Port.read (p : Port) (off width : Nat) : Option Word64 :=
  match off, width with
  | 0x00, 4 => some (p.cmd.setWidth 64)
  | 0x04, 4 => some (p.status.setWidth 64)
  | 0x08, 8 => some p.res
  | 0x10, 8 => some p.arg0
  | 0x18, 8 => some p.arg1
  | 0x20, 8 => some p.arg2
  | 0x28, 8 => some p.arg3
  | 0x30, 4 => some (p.ent0.setWidth 64)
  | 0x34, 4 => some (p.ent1.setWidth 64)
  | 0x38, 4 => some (p.ent2.setWidth 64)
  | 0x3C, 4 => some (p.ent3.setWidth 64)
  | 0x40, 4 => some (p.rent0.setWidth 64)
  | 0x44, 4 => some (p.rent1.setWidth 64)
  | 0x48, 4 => some (p.rent2.setWidth 64)
  | 0x4C, 4 => some (p.rent3.setWidth 64)
  | off, width => if unusedAccess off width then some 0 else none

/-- What a host write to a port register other than `CMD` does (R21 to R26): `ARG` and `ENT` registers take the
value, read-only registers and unused offsets ignore it; nothing where the access is not of one
register's full width (U14). -/
def Port.write (p : Port) (off width : Nat) (v : Word64) : Option Port :=
  match off, width with
  | 0x04, 4 => some p
  | 0x08, 8 => some p
  | 0x10, 8 => some { p with arg0 := v }
  | 0x18, 8 => some { p with arg1 := v }
  | 0x20, 8 => some { p with arg2 := v }
  | 0x28, 8 => some { p with arg3 := v }
  | 0x30, 4 => some { p with ent0 := v.setWidth 32 }
  | 0x34, 4 => some { p with ent1 := v.setWidth 32 }
  | 0x38, 4 => some { p with ent2 := v.setWidth 32 }
  | 0x3C, 4 => some { p with ent3 := v.setWidth 32 }
  | 0x40, 4 => some p
  | 0x44, 4 => some p
  | 0x48, 4 => some p
  | 0x4C, 4 => some p
  | off, width => if unusedAccess off width then some p else none

/-- A host write to the port: at offset 0 it starts a command (R20). -/
def State.portWrite (s : State) (off width : Nat) (v : Word64) : Outcome :=
  if off = 0 ∧ width = 4 then s.command (v.setWidth 32)
  else match s.port.write off width v with
    | some p => .next { s with port := p }
    | none => .refused .portAccess

/-- A host read of the port. -/
def State.portRead (s : State) (off width : Nat) : Outcome :=
  match s.port.read off width with
  | some v => .next { s with hostData := v }
  | none => .refused .portAccess

/-- One action of the host. -/
def State.hostStep (s : State) : HostAction → Outcome
  | .portWrite off width v => s.portWrite off width v
  | .portRead off width => s.portRead off width
  | .portForward off width => s.portWrite off width s.hostData
  | .memWrite32 addr v =>
    if inAddressSpace addr.toNat 4 then .next { s with mem := s.mem.write32 addr.toNat v }
    else .fault .busAddress
  | .memRead32 addr =>
    if inAddressSpace addr.toNat 4 then .next { s with hostData := (s.mem.read32 addr.toNat).setWidth 64 }
    else .fault .busAddress

/-- What happens next while the block is idle, with the rest of the agenda already in place (R70, R244).
An event of the block that is listed while no command runs happens nowhere. -/
def State.act (s : State) : Move → Outcome
  | .host a => s.hostStep a
  | .controller a => .next (s.controllerStep a)
  | .reset => .next s.assertReset
  | .block => .next s

end Sys2Proof.Machine
end

