-- ==== Sys2Proof/Machine/Step.lean ====
section
/-! DEFINITION. One step of the machine, and where a command word stands so that the next step runs it. -/

namespace Sys2Proof.Machine

/-- One step: the first entry of the agenda happens. With an empty agenda the block is idle and waits for
a `CMD` write (R242), and nothing changes. A command runs to its end within one step; the moves of
the controller between its events are taken from the agenda. -/
def step (s : State) : Host.Outcome State Fault Refusal :=
  match s.agenda with
  | [] => .next s
  | m :: rest => State.act { s with agenda := rest } m

/-- The state in which the host's next action is the write of a command word to `CMD` (assumption 3). -/
def State.withFetchWord (s : State) (nbits w : Nat) : State :=
  { s with agenda := .host (.portWrite 0 4 (BitVec.ofNat 64 (w % 2 ^ nbits % 2 ^ 32))) :: s.agenda }

end Sys2Proof.Machine
end

