-- ==== Sys2Proof/WellFormed.lean ====
section
/-! DEFINITION. Which commands have a command word, and which parameters describe a platform the spec
allows. -/

namespace Sys2Proof

/-- A command has a word when its instance number fits the 8 bits of the `idx` field (R90). -/
def Instr.wellFormed (i : Instr) : Bool := i.idx < 256

/-- Two ranges of bus addresses, each a start and a length, that share no address. -/
def rangesDisjoint (a b : Nat × Nat) : Bool :=
  a.1 + a.2 ≤ b.1 || b.1 + b.2 ≤ a.1

/-- The ranges of the address map (R68): the arena, the command port, every interrupter block. -/
def Config.ranges (c : Config) : List (Nat × Nat) :=
  (c.poolBase, c.poolCapacity) :: (c.hostportBase, hostportBytes) ::
    c.interrupters.map fun r => (r, interrupterBytes)

/-- The arena ends inside the address space: `POOL_BASE + POOL_CAPACITY <= 2^64` (R7). -/
def Config.arenaFits (c : Config) : Bool := c.poolEnd ≤ addressSpace

/-- Every range of the address map ends inside the address space (R48). -/
def Config.mapFits (c : Config) : Bool := c.ranges.all fun r => r.1 + r.2 ≤ addressSpace

/-- There are 1 to 256 Rings and 1 to 256 EventRings (R7, R33). -/
def Config.countsInRange (c : Config) : Bool :=
  1 ≤ c.numRings && c.numRings ≤ 256 && 1 ≤ c.numERings && c.numERings ≤ 256

/-- Every interrupter block starts at a multiple of 8 (R66, R151). -/
def Config.interruptersAligned (c : Config) : Bool := c.interrupters.all fun r => r % 8 = 0

/-- The arena, the command port and the interrupter blocks are pairwise disjoint (R68). -/
def Config.mapDisjoint (c : Config) : Bool :=
  decide (c.ranges.Pairwise fun a b => rangesDisjoint a b = true)

/-- The parameters describe a platform the spec allows (R7, R66, R68). -/
def Config.wellFormed (c : Config) : Bool :=
  c.arenaFits && c.countsInRange && c.mapFits && c.interruptersAligned && c.mapDisjoint

end Sys2Proof
end

