-- ==== Sys2Proof/Safety.lean ====
section
/-! DEFINITION. The words claims use: a block that is not halted, a controller that stays quiet during a
command, and the invariants that hold between commands (R28, R31, R35). -/

namespace Sys2Proof.Machine

/-- The block accepts commands: `STATUS.FAULT` is clear. A run that reaches a state that is not live "has
gone wrong" (R244). -/
abbrev State.live (s : State) : Prop := s.halted = false

/-- Nobody acts before the host's next action: no controller step and no reset falls between the
events of a command that starts now (R70, R71). -/
def quiet : List Move → Bool
  | [] => true
  | .host _ :: _ => true
  | .controller _ :: _ => false
  | .reset :: _ => false
  | .block :: _ => false

/-- A command that starts in this state runs without interference. -/
abbrev State.undisturbed (s : State) : Prop := quiet s.agenda = true

/-- The reset input is not asserted by anything the agenda lists. -/
abbrev noReset (l : List Move) : Prop := Move.reset ∉ l

/-- The invariants of a `READY` Ring (R31 a, c, e), its buffer below the pool cursor (R122). -/
abbrev Ring.invariant (c : Config) (cursor : Nat) (r : Ring) : Prop :=
  r.state = .ready →
    r.base.toNat % 64 = 0 ∧ c.poolBase ≤ r.base.toNat ∧
      r.base.toNat + 16 * r.cap.toNat ≤ cursor ∧ r.widx.toNat + 2 ≤ r.cap.toNat

/-- The invariants of a `READY` EventRing that concern its own fields (R34, R35 a): both regions aligned,
the buffer before the table, the table below the pool cursor. -/
abbrev EventRing.invariant (c : Config) (cursor : Nat) (e : EventRing) : Prop :=
  e.state = .ready →
    e.base.toNat % 64 = 0 ∧ e.erst.toNat % 64 = 0 ∧ c.poolBase ≤ e.base.toNat ∧
      1 ≤ e.cap.toNat ∧ e.cap.toNat ≤ 65535 ∧
      e.base.toNat + 16 * e.cap.toNat ≤ e.erst.toNat ∧ e.erst.toNat + 16 ≤ cursor

/-- `STATUS` as R21, R210 and R213 have it: bits 30:8 are 0, the code is one of the eight, and `FAULT` is set
exactly when the code is that of a fault or of the halt. -/
abbrev Port.statusLegal (p : Port) : Prop :=
  p.status.extractLsb' 8 23 = 0 ∧ (p.status.extractLsb' 0 8).toNat ≤ 7 ∧
    (p.status.getLsbD 31 = true ↔ 3 ≤ (p.status.extractLsb' 0 8).toNat)

/-- What holds of the block between any two steps, on any platform whose arena has addresses: the cursor stays in
the arena (R28), every `READY` instance has its invariants (R31, R35), memories and the controller's table
are in canonical form, `STATUS` is legal (R21). -/
structure State.BlockInv (s : State) : Prop where
  arena : s.cfg.arenaFits = true
  cursorLow : s.cfg.poolBase ≤ s.cursor
  cursorHigh : s.cursor ≤ s.cfg.poolEnd
  rings : ∀ r ∈ s.rings, r.invariant s.cfg s.cursor
  erings : ∀ e ∈ s.erings, e.invariant s.cfg s.cursor
  mem : s.mem.wf
  mmio : s.mmio.wf
  producers : tableSorted s.producers
  status : s.port.statusLegal

/-- What holds between any two steps on a platform the spec allows: besides the invariants of the block, the
parameters are in their ranges and the arena, the command port and the interrupter blocks are pairwise
disjoint (R7, R66, R68), and there are as many instances as the parameters say (R30, R34). -/
structure State.Inv (s : State) : Prop extends s.BlockInv where
  platform : s.cfg.wellFormed = true
  ringCount : s.rings.length = s.cfg.numRings
  eringCount : s.erings.length = s.cfg.numERings
  consumerCount : s.consumers.length = s.cfg.numRings

/-- The caller's duty for the operand `regs` of `ER.INIT` (R151, R257), kept so far: every `READY` EventRing sits on an
interrupter of the platform, and no two on the same one. -/
structure State.RegsGenuine (s : State) : Prop where
  onPlatform : ∀ e ∈ s.erings, e.state = .ready → e.regsAddr ∈ s.cfg.interrupters
  apart : s.erings.Pairwise fun e f => e.state = .ready → f.state = .ready → e.regsAddr ≠ f.regsAddr

/-- The command the next entry of the agenda writes to `CMD`, if it writes one (R20). -/
def State.nextCommand (s : State) : Option Instr :=
  let decoded (v : Word64) : Option Instr := (decode (v.setWidth 32)).toOption
  match s.agenda with
  | .host (.portWrite 0 4 v) :: _ => decoded v
  | .host (.portForward 0 4) :: _ => decoded s.hostData
  | _ => none

/-- The operand `regs` keeps the caller's duty: it is an interrupter of the platform on which no `READY` EventRing
sits yet (R257). -/
def State.regsOperandGenuine (s : State) : Prop :=
  s.port.arg1.toNat ∈ s.cfg.interrupters ∧ ∀ e ∈ s.erings, e.state = .ready → e.regs ≠ s.port.arg1

/-- The operands of a command lie in the ranges the source gives them (43_endpoint.md): the precondition of U10. An
out-of-range operand has the value of the command's formula all the same (R170, D31; assumption 20). The
extractors ignore the bits outside their field (R178), and they and the other commands have no such precondition. -/
def operandsInRange (i : Instr) (p : Port) : Prop :=
  match i with
  | .epidMake => p.arg0.toNat < 16
  | .epidAddr | .epidNum | .epidIsIn => p.arg0.toNat < 32
  | .epcfgMake => p.arg0.toNat < 32 ∧ p.arg1.toNat < 4 ∧ p.arg2.toNat < 65536 ∧ p.arg3.toNat < 256
  | .epcfgEpid | .epcfgType | .epcfgMps | .epcfgIval | .poolAlloc | .poolAllocArr | .poolFree
  | .ringInit _ | .ringPush _ | .ringBuf _ | .erInit _ | .erHasFront _ | .erFront _ | .erPop _ => True

/-- The regions of the arena an instance owns, as starts and lengths: a `READY` Ring its buffer, a `READY`
EventRing its buffer and its segment table; an instance in another state none (R30, R34). -/
def Ring.regions (r : Ring) : List (Nat × Nat) :=
  if r.state = .ready then [(r.base.toNat, 16 * r.cap.toNat)] else []

def EventRing.regions (e : EventRing) : List (Nat × Nat) :=
  if e.state = .ready then [(e.base.toNat, 16 * e.cap.toNat), (e.erst.toNat, 16)] else []

/-- All regions the instances own. -/
def State.regions (s : State) : List (Nat × Nat) :=
  s.rings.flatMap Ring.regions ++ s.erings.flatMap EventRing.regions

/-- No two regions share a byte (R69, R122 d). -/
abbrev State.regionsDisjoint (s : State) : Prop :=
  s.regions.Pairwise fun a b => rangesDisjoint a b = true

/-- The dequeue pointer of an EventRing stands at one of its slots (R35 b, R153). -/
def State.dequeueAt (s : State) (e : EventRing) (k : Nat) : Prop :=
  k < e.cap.toNat ∧ (erdpPtr (s.erdp e.regsAddr)).toNat = e.slot k

/-- No other interrupter's registers overlap those at `regs` (R39, R68, R257). -/
def State.registersApart (s : State) (regs : Nat) : Prop :=
  ∀ x, s.isInterrupter x = true →
    x = regs ∨ rangesDisjoint (x, interrupterBytes) (regs, interrupterBytes) = true

/-- The address `regs` has room for an interrupter block in the address space (R39, R48). -/
abbrev regsFit (regs : Word64) : Prop := regs.toNat + interrupterBytes ≤ addressSpace

/-- The state after a command that wrote only `STATUS` and `RES` (R21, R22). -/
def State.withResult (s : State) (status : Word32) (res : Word64) : State :=
  { s with port := { s.port with status := status, res := res } }

/-- `P` pushes onto Ring `i` lead from one state to another: before each push the host chooses the entry and the
order in which the agents act next, no reset among it (R140). -/
inductive Pushes (i : Nat) : Nat → State → State → Prop
  | none (s : State) : Pushes i 0 s s
  | push {n : Nat} {s t u : State} (e : Entry) (l : List Move) : Pushes i n s t → noReset l →
      exec (.ringPush i)
        { t with port := t.port.withEntry e, agenda := l } = .next u →
      Pushes i (n + 1) s u

/-- `Q` pops of EventRing `j` lead from one state to another: before each pop the host chooses the order in which the
agents act next, the controller before and between the events of the pop, no reset among it (R160). Nobody
but the block writes the pointer of `ERDP`: the controller's steps never do (R201). -/
inductive Pops (j : Nat) : Nat → State → State → Prop
  | none (s : State) : Pops j 0 s s
  | pop {n : Nat} {s t u : State} (l : List Move) : Pops j n s t → noReset l →
      exec (.erPop j) { t with agenda := l } = .next u →
      Pops j (n + 1) s u

/-- An EventRing and the controller's producer agree on what is unconsumed (R200): the producer has the
segment of the EventRing, the dequeue pointer stands at slot `k`, the unconsumed entries `q`, oldest
first, fill the slots from there on cyclically, fewer than there are slots (R199), the producer stands behind
them, and every slot carries the cycle bit of the lap in which it was written last (R198). -/
structure EventsQueued (s : State) (e : EventRing) (p : Producer) (k : Nat) (q : List Entry) : Prop where
  ready : e.state = .ready
  fits : e.segmentEnd ≤ addressSpace
  aligned : e.base.toNat % 64 = 0
  registers : regsFit e.regs
  producer : tableGet s.producers e.regsAddr = some p
  base : p.base = e.base
  size : p.size.toNat = e.cap.toNat
  dequeue : s.dequeueAt e k
  room : q.length < e.cap.toNat
  enqueue : p.enq.toNat = e.slot ((k + q.length) % e.cap.toNat)
  lap : p.pcs = if k + q.length < e.cap.toNat then e.ccs else !e.ccs
  entries : ∀ n, ∀ h : n < q.length,
    s.mem.entryAt (e.slot ((k + n) % e.cap.toNat)) = q[n]
  cycles : ∀ x, x < e.cap.toNat →
    cycleOf (s.mem.read32 (e.slot x + 12)) =
      if x < (k + q.length) % e.cap.toNat then p.pcs else !p.pcs

/-- A Ring and the controller's consumer agree on what is unconsumed (R195): the consumer stands at slot `k`
(the last slot is the Link entry's), in the Ring's lap or one lap behind; the unconsumed entries `q`,
oldest first, fill the slots from there on, the Link entry between the last usable slot and slot 0; what it
has read of the entry at slot `k` is what is there. -/
structure EntriesQueued (s : State) (r : Ring) (c : Consumer) (k : Nat) (q : List Entry) : Prop where
  ready : r.state = .ready
  fits : r.slot r.cap.toNat ≤ addressSpace
  aligned : r.base.toNat % 64 = 0
  cursor : r.widx.toNat + 2 ≤ r.cap.toNat
  position : c.dq.toNat = r.slot k
  sameLap : c.ccs = r.pcs → k + q.length = r.widx.toNat
  lapBehind : c.ccs ≠ r.pcs → k < r.cap.toNat ∧ r.widx.toNat ≤ k ∧
    k + q.length = r.cap.toNat - 1 + r.widx.toNat ∧
    s.mem.entryAt (r.slot (r.cap.toNat - 1)) = linkEntry r.base (!r.pcs)
  entries : ∀ n, ∀ h : n < q.length,
    s.mem.entryAt (r.slot (if k + n < r.cap.toNat - 1 then k + n else k + n - (r.cap.toNat - 1))) = q[n]
  payload : ∀ e ∈ q, isLink e.w3 = false
  cycles : ∀ x, x < r.cap.toNat - 1 →
    cycleOf (s.mem.read32 (r.slot x + 12)) = if x < r.widx.toNat then r.pcs else !r.pcs
  reading : c.got = ((fun e : Entry => [e.w3, e.w0, e.w1]) (s.mem.entryAt (r.slot k))).take c.got.length
  begun : c.got ≠ [] → k + 1 < r.cap.toNat ∧ q ≠ [] ∨ k + 1 = r.cap.toNat ∧ c.got.length ≤ 2

end Sys2Proof.Machine
end

