-- ==== Sys2Proof/Certificates/Slice0/Obligations.lean ====
section
/-! DEFINITION. The statements for the provers: what the commands do, what they leave alone, how errors are
taken, what the controller does between commands and between events, and the invariants of every step. -/

open Sys2Proof Sys2Proof.Machine

/-! ### Decoding (30_encoding.md section 1) -/

/-- Decoding the word of a well-formed command gives the command back, at every instance number (R90 to R93). -/
def Obligations.DecodeOfEncodeIsCommand : Prop :=
  ∀ i : Instr, i.wellFormed = true → decode (encode i) = .ok i

/-- A word that decodes is the word of a well-formed command, so no bit of it is dropped (R90, R93). -/
def Obligations.DecodedWordIsEncoding : Prop :=
  ∀ (w : Word32) (i : Instr), decode w = .ok i → i.wellFormed = true ∧ encode i = w

/-- R93: the mask and match of the table's two kinds of row, and that no word selects two rows. -/
def Obligations.OpcodeRowsSelectDisjointWords : Prop :=
  (∀ r ∈ opcodeTable, r.mask = 0xFFFF00FF#32 ∨ r.mask = 0xFFFFFFFF#32) ∧
    (∀ r ∈ opcodeTable, r.pat.toNat < 256) ∧
    (∀ r ∈ opcodeTable, ∀ w : Word32, r.selects w = true ↔ w &&& r.mask = r.pat) ∧
    (∀ r ∈ opcodeTable, ∀ k : Nat, k < 256 →
      ((r.command k).idx = k ↔ (r.mask = 0xFFFF00FF#32 ∨ k = 0))) ∧
    opcodeTable.Pairwise fun a b => ∀ w : Word32, ¬(a.selects w = true ∧ b.selects w = true)

/-- R94: a word is illegal exactly when its `op` is not listed, or its reserved bits are not 0, or its `idx` is
not 0 on a command that takes no instance. -/
def Obligations.IllegalWordsAreExactlyTheUnlisted : Prop :=
  ∀ w : Word32,
    (∃ e, decode w = .error e) ↔
      ((w.extractLsb' 0 8).toNat ∉
          [0x01, 0x02, 0x03, 0x10, 0x11, 0x12, 0x20, 0x21, 0x22, 0x23, 0x30, 0x31, 0x32, 0x33,
            0x38, 0x39, 0x3A, 0x3B, 0x3C] ∨
        w.extractLsb' 16 16 ≠ 0 ∨
        (w.extractLsb' 8 8 ≠ 0 ∧
          (w.extractLsb' 0 8).toNat ∉ [0x10, 0x11, 0x12, 0x20, 0x21, 0x22, 0x23]))

/-- Words written out from R90 and R91, one or more of each family, decode to their commands. -/
def Obligations.WrittenOutWordsDecode : Prop :=
  decode 0x00000001#32 = .ok .poolAlloc ∧ decode 0x00000002#32 = .ok .poolAllocArr ∧
    decode 0x00000110#32 = .ok (.ringInit 1) ∧ decode 0x00000211#32 = .ok (.ringPush 2) ∧
    decode 0x0000FF12#32 = .ok (.ringBuf 255) ∧ decode 0x00000120#32 = .ok (.erInit 1) ∧
    decode 0x00000221#32 = .ok (.erHasFront 2) ∧ decode 0x00000323#32 = .ok (.erPop 3) ∧
    decode 0x00000030#32 = .ok .epidMake ∧ decode 0x0000003C#32 = .ok .epcfgIval

/-! ### A step and the command port (10_state.md section 1) -/

/-- When the host's next action is a write of a command word to `CMD`, the step keeps the word in `CMD` and is
the command's meaning there (R20); the action is gone from the agenda (assumption 3). -/
def Obligations.StepRunsDecodedCommand : Prop :=
  ∀ (s : State) (rest : List Move) (w : Word32) (i : Instr),
    s.agenda = .host (.portWrite 0 4 (w.setWidth 64)) :: rest → decode w = .ok i →
    step s = exec i { s with agenda := rest, port := s.port.withCmd w }

/-- A command word that encodes nothing: `ILLEGAL_COMMAND` on a live block (R222), `HALTED` on a halted one, which
comes first (R216); no other state changes. -/
def Obligations.StepOnIllegalWord : Prop :=
  ∀ (s : State) (rest : List Move) (w : Word32) (e : DecodeError),
    s.agenda = .host (.portWrite 0 4 (w.setWidth 64)) :: rest → decode w = .error e →
    (s.live → step s = .next (State.withResult
      { s with agenda := rest, port := s.port.withCmd w } 0x80000006#32 0)) ∧
    (s.halted = true → step s = .next (State.withResult
      { s with agenda := rest, port := s.port.withCmd w } 0x80000007#32 0))

/-- The register map of the port (R20 to R26), at every offset and width. A write of `CMD` keeps the word and runs what
it encodes; the operand registers keep what the host writes; writes to `STATUS`, `RES` and `RENT` registers and
to unused offsets are ignored; a read answers the register, of an unused offset 0, and changes nothing but
what the host holds (assumption 11). The model's own (assumption 12): an unused offset answers 4-byte
accesses, and from 0x50 up 8-byte ones too, naturally aligned; every access that is of no register's own width at
its offset and of no unused offset is refused (R26 and U14 place it outside the spec). -/
def Obligations.HostAccessesToThePort : Prop :=
  ∀ (s : State) (rest : List Move) (v : Word64),
    let p := s.port
    let after (q : Port) : Outcome := .next { s with agenda := rest, port := q }
    let write (off width : Nat) : State := { s with agenda := .host (.portWrite off width v) :: rest }
    let read (off width : Nat) : State := { s with agenda := .host (.portRead off width) :: rest }
    let commanded : State := { s with agenda := rest, port := p.withCmd (v.setWidth 32) }
    let registers : List (Nat × Nat) := [(0x00, 4), (0x04, 4), (0x08, 8), (0x10, 8), (0x18, 8), (0x20, 8),
      (0x28, 8), (0x30, 4), (0x34, 4), (0x38, 4), (0x3C, 4), (0x40, 4), (0x44, 4), (0x48, 4), (0x4C, 4)]
    let unused (off width : Nat) : Prop :=
      (off = 0x0C ∧ width = 4) ∨ (0x50 ≤ off ∧ (width = 4 ∨ width = 8) ∧ off % width = 0)
    (∀ i, decode (v.setWidth 32) = .ok i → step (write 0x00 4) = exec i commanded) ∧
    (∀ e, decode (v.setWidth 32) = .error e →
      step (write 0x00 4) =
        .next (commanded.withResult (if s.halted then 0x80000007#32 else 0x80000006#32) 0)) ∧
    step (write 0x10 8) = after { p with arg0 := v } ∧
    step (write 0x18 8) = after { p with arg1 := v } ∧
    step (write 0x20 8) = after { p with arg2 := v } ∧
    step (write 0x28 8) = after { p with arg3 := v } ∧
    step (write 0x30 4) = after { p with ent0 := v.setWidth 32 } ∧
    step (write 0x34 4) = after { p with ent1 := v.setWidth 32 } ∧
    step (write 0x38 4) = after { p with ent2 := v.setWidth 32 } ∧
    step (write 0x3C 4) = after { p with ent3 := v.setWidth 32 } ∧
    (∀ x ∈ [(0x04, 4), (0x08, 8), (0x40, 4), (0x44, 4), (0x48, 4), (0x4C, 4)],
      step (write x.1 x.2) = after p) ∧
    (∀ x ∈ [(0x00, 4, p.cmd.setWidth 64), (0x04, 4, p.status.setWidth 64), (0x08, 8, p.res),
        (0x10, 8, p.arg0), (0x18, 8, p.arg1), (0x20, 8, p.arg2), (0x28, 8, p.arg3),
        (0x30, 4, p.ent0.setWidth 64), (0x34, 4, p.ent1.setWidth 64), (0x38, 4, p.ent2.setWidth 64),
        (0x3C, 4, p.ent3.setWidth 64), (0x40, 4, p.rent0.setWidth 64), (0x44, 4, p.rent1.setWidth 64),
        (0x48, 4, p.rent2.setWidth 64), (0x4C, 4, p.rent3.setWidth 64)],
      step (read x.1 x.2.1) = .next { s with agenda := rest, hostData := x.2.2 }) ∧
    (∀ off width, unused off width →
      step (write off width) = after p ∧
        step (read off width) = .next { s with agenda := rest, hostData := 0 }) ∧
    ∀ off width, (off, width) ∉ registers → ¬unused off width →
      step (read off width) = .refused .portAccess ∧ step (write off width) = .refused .portAccess

/-! ### Errors, the halt, reset (60_exceptions.md, 70_reset_and_hazards.md) -/

/-- R217: while `FAULT` is set every command, and every command word the host writes, legal or not, ends with code 7,
`RES` 0, `FAULT` still set, and no other effect (a written word stands in `CMD`, R20); the host can still
read every port register; and only reset clears `FAULT`. The host's direct accesses to DMA memory read and write
the one word at their address and nothing else, in every state, halted or not (R12, R108; assumption 13).
A value read goes to the model's own field `hostData` (assumption 11). -/
def Obligations.HaltedBlockRefusesEveryCommand : Prop :=
  (∀ (i : Instr) (s : State), s.halted = true → exec i s = .next (s.withResult 0x80000007#32 0)) ∧
  (∀ (s : State) (rest : List Move) (w : Word32), s.halted = true →
    s.agenda = .host (.portWrite 0 4 (w.setWidth 64)) :: rest →
    step s = .next (State.withResult { s with agenda := rest, port := s.port.withCmd w } 0x80000007#32 0)) ∧
  (∀ (s : State) (rest : List Move) (off width : Nat) (v : Word64), s.halted = true →
    s.agenda = .host (.portRead off width) :: rest → s.port.read off width = some v →
    step s = .next { s with agenda := rest, hostData := v }) ∧
  (∀ (s : State) (rest : List Move) (a : Word64), a.toNat + 4 ≤ addressSpace →
    (s.agenda = .host (.memRead32 a) :: rest →
      step s = .next { s with agenda := rest, hostData := (s.mem.read32 a.toNat).setWidth 64 }) ∧
    ∀ v, s.agenda = .host (.memWrite32 a v) :: rest →
      step s = .next { s with agenda := rest, mem := s.mem.write32 a.toNat v }) ∧
  (∀ s t : State, s.halted = true → noReset s.agenda → step s = .next t → t.halted = true) ∧
  ∀ (s : State) (rest : List Move), s.agenda = .reset :: rest → ∃ t, step s = .next t ∧ t.live

/-- R221: an instance number outside the range halts the block with code 5, and no other state changes. The range is
`NUM_RINGS` or `NUM_ERINGS` of the parameters, which with the invariants is the number of instances held (R7). -/
def Obligations.BadIndexFaults : Prop :=
  ∀ (s : State) (k : Nat), s.live →
    (s.rings.length ≤ k ∨ (s.Inv ∧ s.cfg.numRings ≤ k) → ∀ i ∈ [Instr.ringInit k, .ringPush k, .ringBuf k],
      exec i s = .next (s.withResult 0x80000005#32 0)) ∧
    (s.erings.length ≤ k ∨ (s.Inv ∧ s.cfg.numERings ≤ k) → ∀ i ∈ [Instr.erInit k, .erHasFront k, .erFront k, .erPop k],
      exec i s = .next (s.withResult 0x80000005#32 0))

/-- R220: `INIT` of an instance that is `READY` or `FAILED` halts the block with code 4. -/
def Obligations.SecondInitFaults : Prop :=
  ∀ (s : State) (k : Nat), s.live →
    (∀ r, s.rings[k]? = some r → r.state = .ready ∨ r.state = .failed →
      exec (.ringInit k) s = .next (s.withResult 0x80000004#32 0)) ∧
    (∀ e, s.erings[k]? = some e → e.state = .ready ∨ e.state = .failed →
      exec (.erInit k) s = .next (s.withResult 0x80000004#32 0))

/-- R219: another command on an instance that is `UNINIT` or `FAILED` halts the block with code 3. -/
def Obligations.UseBeforeInitFaults : Prop :=
  ∀ (s : State) (k : Nat), s.live →
    (∀ r, s.rings[k]? = some r → r.state = .uninit ∨ r.state = .failed →
      ∀ i ∈ [Instr.ringPush k, .ringBuf k], exec i s = .next (s.withResult 0x80000003#32 0)) ∧
    (∀ e, s.erings[k]? = some e → e.state = .uninit ∨ e.state = .failed →
      ∀ i ∈ [Instr.erHasFront k, .erFront k, .erPop k],
        exec i s = .next (s.withResult 0x80000003#32 0))

/-- Which values `STATUS` can have after each command (R213, R210, R21; 0 where a reset abandoned it, assumption 14): the code is one the
table of R213 lists for it, bits 30:8 are 0, and `FAULT` is set exactly with codes 3 to 7. -/
def Obligations.StatusAfterEachCommand : Prop :=
  ∀ (i : Instr) (s t : State), exec i s = .next t →
    t.port.status ∈
      match i with
      | .poolAlloc | .poolAllocArr => [0#32, 1#32, 0x80000007#32]
      | .poolFree => [0#32, 0x80000007#32]
      | .ringInit _ | .erInit _ =>
        [0#32, 1#32, 2#32, 0x80000004#32, 0x80000005#32, 0x80000007#32]
      | .ringPush _ | .ringBuf _ | .erHasFront _ | .erFront _ | .erPop _ =>
        [0#32, 0x80000003#32, 0x80000005#32, 0x80000007#32]
      | .epidMake | .epidAddr | .epidNum | .epidIsIn | .epcfgMake | .epcfgEpid | .epcfgType
      | .epcfgMps | .epcfgIval => [0#32, 0x80000007#32]

/-- R218: a command that ends badly has issued no memory or register event: memory, registers, the controller and
the rest of the agenda are as before, `RES` is 0 and `RENT`, `ARG`, `ENT` and `CMD` are unchanged. -/
def Obligations.ErrorsArePrecise : Prop :=
  ∀ (i : Instr) (s t : State), exec i s = .next t → t.port.status ≠ 0 →
    t.mem = s.mem ∧ t.mmio = s.mmio ∧ t.consumers = s.consumers ∧ t.producers = s.producers ∧
      t.agenda = s.agenda ∧ t.port = { s.port with status := t.port.status, res := 0 }

/-- Only a reset leaves the halted state (R217, R240): as long as none is asserted, a halted block stays halted and
keeps its cursor and its instances, whatever the host and the controller do. -/
def Obligations.OnlyResetLeavesTheHalt : Prop :=
  ∀ s t : State, s.halted = true → noReset s.agenda → step s = .next t →
    t.halted = true ∧ t.cursor = s.cursor ∧ t.rings = s.rings ∧ t.erings = s.erings

/-- R241: reset does not touch DMA memory, any controller register or the controller's own state; the block's own
state goes to the values of R49, and every instance is `UNINIT`. -/
def Obligations.ResetInputResetsTheBlockAlone : Prop :=
  ∀ (s : State) (rest : List Move),
    ∃ t, step { s with agenda := .reset :: rest } = .next t ∧
      t.mem = s.mem ∧ t.mmio = s.mmio ∧ t.consumers = s.consumers ∧ t.producers = s.producers ∧
      t.cfg = s.cfg ∧ t.agenda = rest ∧
      t.port.cmd = 0 ∧ t.port.status = 0 ∧ t.port.res = 0 ∧
      t.port.arg0 = 0 ∧ t.port.arg1 = 0 ∧ t.port.arg2 = 0 ∧ t.port.arg3 = 0 ∧
      t.port.entry = zeroEntry ∧ t.port.front = zeroEntry ∧
      t.cursor = s.cfg.poolBase ∧
      t.rings.length = s.rings.length ∧ (∀ r ∈ t.rings, r.state = .uninit) ∧
      t.erings.length = s.erings.length ∧ ∀ e ∈ t.erings, e.state = .uninit

/-- A reset that is asserted between two events of a command abandons the command (R240). Which events had been issued
then is unspecified (R240, U15); the model's choice (assumption 14) is that the agenda says so, and here it is the
first word write of a `RING.PUSH`: that word is in memory, the rest of the entry is not, the whole block is as
R49 has it after reset (the fields of instances but their state by assumption 4), and memory elsewhere, the register
space, the controller and the host are as before (R241). -/
def Obligations.ResetBetweenEventsAbandonsThePush : Prop :=
  ∀ (s : State) (rest : List Move) (i : Nat) (r : Ring), s.BlockInv → s.live →
    s.agenda = .block :: .reset :: rest → s.rings[i]? = some r → r.state = .ready →
    ∃ t, exec (.ringPush i) s = .next t ∧
      t = { s with
        port := Port.reset
        cursor := s.cfg.poolBase
        rings := s.rings.map fun _ => Ring.reset
        erings := s.erings.map fun _ => EventRing.reset
        mem := t.mem
        agenda := rest } ∧
      t.port.status = 0 ∧ (∀ r' ∈ t.rings, r'.state = .uninit) ∧ (∀ e ∈ t.erings, e.state = .uninit) ∧
      t.mem.read32 (r.slot r.widx.toNat) = s.port.ent0 ∧
      ∀ x, x < r.slot r.widx.toNat ∨ r.slot r.widx.toNat + 4 ≤ x → t.mem.peek x = s.mem.peek x

/-! ### MemoryPool (40_pool.md) -/

/-- `align_up` is the least multiple not below its argument, and `crosses` says that a multiple lies strictly
inside the range (R9, R126). -/
def Obligations.AlignUpAndCrossesMeanWhatTheySay : Prop :=
  (∀ x a : Nat, 0 < a →
    a ∣ alignUp x a ∧ x ≤ alignUp x a ∧ ∀ m, a ∣ m → x ≤ m → alignUp x a ≤ m) ∧
  (∀ x a : Nat, x % a = 0 → alignUp x a = x) ∧ (∀ x : Nat, alignUp x 0 = x) ∧
  (∀ a : Nat, alignUp 0 a = 0) ∧
  ∀ p n b : Nat, crosses p n b = true ↔ 0 < b ∧ 0 < n ∧ ∃ m, b ∣ m ∧ p < m ∧ m ≤ p + n - 1

/-- R121: where `POOL.ALLOC` puts a region, when it fails, and that nothing but the cursor, `STATUS` and `RES`
changes. (A start address of `2^64` has a statement of its own.) -/
def Obligations.PoolAllocPlacesTheRegion : Prop :=
  ∀ s : State, s.live →
    let size := s.port.arg0.toNat
    let alignment := s.port.arg1.toNat
    let boundary := s.port.arg2.toNat
    let s0 := alignUp s.cursor alignment
    let p := if crosses s0 size boundary then alignUp s0 boundary else s0
    let bad := (alignment > 0 ∧ p % alignment ≠ 0) ∨ s.cfg.poolBase + s.cfg.poolCapacity < p + size
    (bad → exec .poolAlloc s = .next (s.withResult 1 0)) ∧
    (¬bad → p < addressSpace →
      exec .poolAlloc s =
        .next (State.withResult { s with cursor := p + size } 0 (BitVec.ofNat 64 p)))

/-- R124: `POOL.ALLOCARR` is `POOL.ALLOC` with the natural product as its size; the product never wraps, so one of
`2^64` or more always fails on a well-formed platform (assumption 17). -/
def Obligations.PoolAllocArrayMultipliesWithoutWrap : Prop :=
  ∀ s : State, s.live →
    let size := s.port.arg0.toNat * s.port.arg1.toNat
    let alignment := s.port.arg2.toNat
    let boundary := s.port.arg3.toNat
    let s0 := alignUp s.cursor alignment
    let p := if crosses s0 size boundary then alignUp s0 boundary else s0
    let bad := (alignment > 0 ∧ p % alignment ≠ 0) ∨ s.cfg.poolBase + s.cfg.poolCapacity < p + size
    (bad → exec .poolAllocArr s = .next (s.withResult 1 0)) ∧
    (¬bad → p < addressSpace →
      exec .poolAllocArr s =
        .next (State.withResult { s with cursor := p + size } 0 (BitVec.ofNat 64 p))) ∧
    (s.BlockInv → s.cfg.wellFormed = true → addressSpace ≤ size →
      exec .poolAllocArr s = .next (s.withResult 1 0))

/-- The model's choice (assumption 5), where a result does not fit `RES`: the command completes with some value in
`RES`, and every other effect is as its rule says. `POOL.ALLOC` and `POOL.ALLOCARR` that find their region's
start at `2^64` or above, by the cursor or by padding, hand it out (R121, R124; with an arena inside the address
space it is the empty region at `2^64`, corner case c). `ER.POP` from the last 16 bytes of the address space, outside
the contract (U8), writes the pointer bits of `2^64`, all 0, with the status bits read, of which the register keeps what
`erdp_write_model` says (R158, R103, R201). The count of free values drawn is the model's own. -/
def Obligations.ResultsThatDoNotFitAreSomeValue : Prop :=
  (∀ s : State, s.live →
    let start (size alignment boundary : Nat) : Nat :=
      let s0 := alignUp s.cursor alignment
      if crosses s0 size boundary then alignUp s0 boundary else s0
    let completes (i : Instr) (size alignment boundary : Nat) : Prop :=
      let p := start size alignment boundary
      addressSpace ≤ p → (alignment = 0 ∨ p % alignment = 0) →
        p + size ≤ s.cfg.poolBase + s.cfg.poolCapacity →
        ∃ v, exec i s =
          .next (State.withResult { s with cursor := p + size, draws := s.draws + 1 } 0 v)
    completes .poolAlloc s.port.arg0.toNat s.port.arg1.toNat s.port.arg2.toNat ∧
    completes .poolAllocArr (s.port.arg0.toNat * s.port.arg1.toNat) s.port.arg2.toNat s.port.arg3.toNat) ∧
  ∀ (s : State) (j : Nat) (e : EventRing), s.live → s.undisturbed →
    s.erings[j]? = some e → e.state = .ready → regsFit e.regs →
    let old := s.erdp e.regsAddr
    old &&& 0xFFFFFFFFFFFFFFF0#64 = 0xFFFFFFFFFFFFFFF0#64 → e.segmentEnd ≠ addressSpace →
    ∃ t v, exec (.erPop j) s = .next t ∧
      t = State.withResult { s with mmio := t.mmio, draws := s.draws + 1 } 0 v ∧
      t.erdp e.regsAddr = erdpAfter s.cfg.erdpWriteModel old (old &&& 0xF#64) ∧
      erdpPtr (t.erdp e.regsAddr) = 0 ∧
      ∀ x, x < e.regsAddr + 0x18 ∨ e.regsAddr + 0x20 ≤ x → t.mmio.peek x = s.mmio.peek x

/-- R122: the guarantees of a successful allocation. -/
def Obligations.PoolAllocGuarantees : Prop :=
  ∀ s t : State, s.live → s.cfg.poolBase ≤ s.cursor → s.cfg.arenaFits = true →
    exec .poolAlloc s = .next t → t.port.status = 0 →
    (0 < s.port.arg0.toNat ∨ s.cfg.poolEnd < addressSpace) →
    let size := s.port.arg0.toNat
    let res := t.port.res.toNat
    (0 < s.port.arg1.toNat → res % s.port.arg1.toNat = 0) ∧
    (0 < s.port.arg2.toNat → 1 ≤ size → size ≤ s.port.arg2.toNat →
      res / s.port.arg2.toNat = (res + size - 1) / s.port.arg2.toNat) ∧
    (s.cfg.poolBase ≤ s.cursor ∧ s.cursor ≤ res ∧ res + size = t.cursor ∧
      t.cursor ≤ s.cfg.poolBase + s.cfg.poolCapacity) ∧
    (∀ lo len, lo + len ≤ s.cursor → rangesDisjoint (lo, len) (res, size) = true) ∧
    s.cursor ≤ t.cursor

/-- R123, as R121 gives it: a failed request changes nothing but `STATUS` and `RES`; repeated with the same operands
it fails again while the place it is tried at is the same, and at every later cursor if it found no room ("once
exhausted, stays exhausted") or if its operands are not those of corner case (e) of R121. What the alignment re-check
of that case does at a later cursor is assumption 15. -/
def Obligations.NoRoomStaysNoRoom : Prop :=
  (∀ s t : State, s.live → exec .poolAlloc s = .next t → t.port.status ≠ 0 → t = s.withResult 1 0) ∧
  ∀ s t : State, s.live → t.live → t.cfg = s.cfg →
    t.port.arg0 = s.port.arg0 → t.port.arg1 = s.port.arg1 → t.port.arg2 = s.port.arg2 →
    let size := s.port.arg0.toNat
    let alignment := s.port.arg1.toNat
    let boundary := s.port.arg2.toNat
    let start (u : State) : Nat := regionStart u.cursor size alignment boundary
    let fails (u : State) : Prop := exec .poolAlloc u = .next (u.withResult 1 0)
    (start t = start s → fails s → fails t) ∧
    (s.cursor ≤ t.cursor → s.cfg.poolEnd < start s + size → fails s ∧ fails t) ∧
    (s.cursor ≤ t.cursor → alignment = 0 ∨ boundary = 0 ∨ boundary % alignment = 0 → fails s → fails t)

/-- R123 as it is worded says of every failed request that it fails again with the same operands. That
is false of the allocator of R121: a request whose boundary move broke the alignment (corner case e) can
succeed at a later cursor (assumption 15). This statement is the wording of R123 and is expected to fail. -/
def Obligations.EveryFailedRequestFailsAgain : Prop :=
  ∀ s t : State, s.Inv → t.Inv → s.live → t.live → t.cfg = s.cfg → s.cursor ≤ t.cursor →
    t.port.arg0 = s.port.arg0 → t.port.arg1 = s.port.arg1 → t.port.arg2 = s.port.arg2 →
    exec .poolAlloc s = .next (s.withResult 1 0) → exec .poolAlloc t = .next (t.withResult 1 0)

/-- R125: `POOL.FREE`, the word 3, answers 0 and changes nothing, whatever its operand. -/
def Obligations.PoolFreeHasNoEffect : Prop :=
  decode 0x00000003#32 = .ok .poolFree ∧ ∀ s : State, s.live → exec .poolFree s = .next (s.withResult 0 0)

/-- R28: the pool cursor never moves backward, whatever happens in a step, unless the reset input is asserted. -/
def Obligations.CursorNeverMovesBack : Prop :=
  ∀ s t : State, noReset s.agenda → step s = .next t → s.cursor ≤ t.cursor

/-! ### Ring (41_ring.md) -/

/-- R136, success: the buffer is allocated and zero, the Ring is `READY` with cursor 0 and producer cycle bit 1, `RES`
is the base; every other byte and every other piece of state is unchanged. -/
def Obligations.RingInitSucceeds : Prop :=
  ∀ (s : State) (i : Nat) (r : Ring), s.live → s.undisturbed → s.cfg.arenaFits = true →
    s.rings[i]? = some r → r.state = .uninit →
    let n := s.port.arg0.toNat
    let b := alignUp s.cursor 64
    2 ≤ n → b + 16 * n ≤ s.cfg.poolBase + s.cfg.poolCapacity →
    ∃ t, exec (.ringInit i) s = .next t ∧
      t = State.withResult
        { s with
          cursor := b + 16 * n
          mem := t.mem
          rings := s.rings.set i
            { state := .ready, base := BitVec.ofNat 64 b, cap := s.port.arg0, widx := 0, pcs := true } }
        0 (BitVec.ofNat 64 b) ∧
      ∀ x, t.mem.peek x = if b ≤ x ∧ x < b + 16 * n then 0 else s.mem.peek x

/-- R136, failure: a capacity below 2, or no room; the instance is `FAILED`, the pool untouched, and nothing else
changes. -/
def Obligations.RingInitFails : Prop :=
  ∀ (s : State) (i : Nat) (r : Ring), s.live → s.rings[i]? = some r → r.state = .uninit →
    let n := s.port.arg0.toNat
    let failed := { s with rings := s.rings.set i { r with state := .failed } }
    (n < 2 → exec (.ringInit i) s = .next (failed.withResult 2 0)) ∧
    (2 ≤ n → s.cfg.poolBase + s.cfg.poolCapacity < alignUp s.cursor 64 + 16 * n →
      exec (.ringInit i) s = .next (failed.withResult 1 0))

/-- R139 inside a lap: the entry is in the slot at the write cursor with the producer cycle bit in bit 0 of word
3, the cursor advances, `RES` is the slot's address; every other byte, register and instance is unchanged. -/
def Obligations.RingPushWithinALap : Prop :=
  ∀ (s : State) (i : Nat) (r : Ring), s.BlockInv → s.live → s.undisturbed →
    s.rings[i]? = some r → r.state = .ready → r.widx.toNat + 2 < r.cap.toNat →
    let a := r.base.toNat + 16 * r.widx.toNat
    ∃ t, exec (.ringPush i) s = .next t ∧
      t = State.withResult
        { s with mem := t.mem, rings := s.rings.set i { r with widx := r.widx + 1 } }
        0 (BitVec.ofNat 64 a) ∧
      t.mem.entryAt a =
        { w0 := s.port.ent0, w1 := s.port.ent1, w2 := s.port.ent2
          w3 := (s.port.ent3 &&& 0xFFFFFFFE#32) ||| (if r.pcs then 1#32 else 0#32) } ∧
      ∀ x, x < a ∨ a + 16 ≤ x → t.mem.peek x = s.mem.peek x

/-- R139 at the end of a lap: besides the entry, the last slot holds a Link entry with pointer `base`, type 6, the
toggle flag, and the cycle bit before the wrap; the cursor goes to 0 and the producer cycle bit flips. -/
def Obligations.RingPushWraps : Prop :=
  ∀ (s : State) (i : Nat) (r : Ring), s.BlockInv → s.live → s.undisturbed →
    s.rings[i]? = some r → r.state = .ready → r.widx.toNat + 2 = r.cap.toNat →
    let a := r.base.toNat + 16 * r.widx.toNat
    let l := r.base.toNat + 16 * (r.cap.toNat - 1)
    ∃ t, exec (.ringPush i) s = .next t ∧
      t = State.withResult
        { s with mem := t.mem, rings := s.rings.set i { r with widx := 0, pcs := !r.pcs } }
        0 (BitVec.ofNat 64 a) ∧
      t.mem.entryAt a =
        { w0 := s.port.ent0, w1 := s.port.ent1, w2 := s.port.ent2
          w3 := (s.port.ent3 &&& 0xFFFFFFFE#32) ||| (if r.pcs then 1#32 else 0#32) } ∧
      t.mem.entryAt l =
        { w0 := r.base.extractLsb' 0 32, w1 := r.base.extractLsb' 32 32, w2 := 0
          w3 := if r.pcs then 0x00001803#32 else 0x00001802#32 } ∧
      ∀ x, x < a ∨ a + 16 ≤ x → x < l ∨ l + 16 ≤ x → t.mem.peek x = s.mem.peek x

/-- R142: `RING.BUF` answers the base of the buffer and changes nothing else. -/
def Obligations.RingBufAnswersTheBase : Prop :=
  ∀ (s : State) (i : Nat) (r : Ring), s.live → s.rings[i]? = some r → r.state = .ready →
    exec (.ringBuf i) s = .next (s.withResult 0 r.base)

/-- `RING.PUSH` on a `READY` Ring always succeeds (R218), and its effect on the block's own state does not
depend on what the controller does between its events. -/
def Obligations.PushSucceedsWhateverTheControllerDoes : Prop :=
  ∀ (s : State) (i : Nat) (r : Ring), s.BlockInv → s.live → noReset s.agenda →
    s.rings[i]? = some r → r.state = .ready →
    ∃ t, exec (.ringPush i) s = .next t ∧
      t.port = { s.port with status := 0, res := BitVec.ofNat 64 (r.base.toNat + 16 * r.widx.toNat) } ∧
      t.cursor = s.cursor ∧ t.erings = s.erings ∧ t.cfg = s.cfg ∧
      t.rings = s.rings.set i
        (if r.widx.toNat + 2 = r.cap.toNat then { r with widx := 0, pcs := !r.pcs }
          else { r with widx := r.widx + 1 })

/-- R140 (d) and (f), for every number of pushes onto a fresh Ring and every choice of entries and of controller
steps between the events: the write cursor and the producer cycle bit in closed form, and the slot address the
last push answered. -/
def Obligations.PushesInClosedForm : Prop :=
  ∀ (s t : State) (i P b C : Nat), s.live → 2 ≤ C →
    s.rings[i]? = some (Ring.fresh b C) → b + 16 * C ≤ addressSpace →
    Pushes i P s t →
    t.rings[i]? = some
      { Ring.fresh b C with
        widx := BitVec.ofNat 64 (P % (C - 1))
        pcs := decide (P / (C - 1) % 2 = 0) } ∧
    (0 < P → t.port.res = BitVec.ofNat 64 (b + 16 * ((P - 1) % (C - 1))))

/-- The formats the block writes, and what the controller's registers make of them. Stamping replaces bit 0 and keeps bits 31:1 (R98). A Link entry has type 6, the
toggle flag, its cycle bit, and a pointer field that reads back as the base (R97). A value written to `ERDP`
has the new pointer and the status bits read (R103); the register then holds that pointer and the
status bits `erdp_write_model` gives (R47, R201). The controller stores what is written to `ERSTSZ` and `ERSTBA`, and
changing status bits of `ERDP` on its own it keeps the pointer (R201; that they may take any value is
assumption 9). -/
def Obligations.EntryAndRegisterFormats : Prop :=
  (∀ (w : Word32) (c : Bool), cycleOf (stamp w c) = c ∧
    ∀ k, 1 ≤ k → k < 32 → (stamp w c).getLsbD k = w.getLsbD k) ∧
  (∀ (b : Word64) (c : Bool), b.toNat % 16 = 0 →
    let e := linkEntry b c
    e.w0 = b.extractLsb' 0 32 ∧ e.w1 = b.extractLsb' 32 32 ∧ linkTarget e.w0 e.w1 = b ∧ isLink e.w3 = true ∧ toggleOf e.w3 = true ∧ cycleOf e.w3 = c ∧
      e.w2 = 0 ∧ e.w3 = if c then 0x00001803#32 else 0x00001802#32) ∧
  (∀ (old : Word64) (p : Nat), p < addressSpace → p % 16 = 0 →
    erdpPtr (erdpMerge old p) = BitVec.ofNat 64 p ∧ erdpMerge old p &&& 0xF#64 = old &&& 0xF#64) ∧
  (∀ old w : Word64, erdpPtr (erdpAfter .plain old w) = erdpPtr w ∧
    erdpAfter .plain old w &&& 0xF#64 = w &&& 0xF#64) ∧
  (∀ old w : Word64, erdpPtr (erdpAfter .rw1cBit3 old w) = erdpPtr w ∧
    erdpAfter .rw1cBit3 old w &&& 0x7#64 = w &&& 0x7#64 ∧
    (erdpAfter .rw1cBit3 old w).getLsbD 3 = (old.getLsbD 3 && !w.getLsbD 3)) ∧
  ∀ (s : State) (regs : Nat), regs + 0x20 ≤ addressSpace →
    (s.undisturbed →
      (∀ v, ∃ t, s.erstszEvent regs v = .ok t ∧ t.erstsz regs = v) ∧
      (∀ w, ∃ t, s.erstbaEvent regs w = .ok t ∧ t.erstba regs = w) ∧
      ∀ w, ∃ t, s.erdpWriteEvent regs w = .ok t ∧
        t.erdp regs = erdpAfter s.cfg.erdpWriteModel (s.erdp regs) w) ∧
    (s.isInterrupter regs = true →
      ∀ v : BitVec 4, (s.controllerStep (.latch regs v)).erdp regs =
        (s.erdp regs &&& 0xFFFFFFFFFFFFFFF0#64) ||| v.setWidth 64)

/-! ### EventRing (42_event_ring.md) -/

/-- R151, success: both regions are allocated, the buffer is zero, the segment table describes it, `ERSTSZ`, `ERDP` and
`ERSTBA` are programmed (the status bits of `ERDP` by `erdp_write_model` from the ones read), the instance is
`READY`, the controller starts producing there (R196; the table is read at the write of `ERSTBA`, assumption
9), and nothing else changes. -/
def Obligations.EventRingInitSucceeds : Prop :=
  ∀ (s : State) (j : Nat) (e : EventRing), s.live → s.undisturbed → s.cfg.arenaFits = true →
    s.erings[j]? = some e → e.state = .uninit →
    let m := s.port.arg0.toNat
    let regs := s.port.arg1.toNat
    let b := alignUp s.cursor 64
    let tbl := alignUp (b + 16 * m) 64
    1 ≤ m → m ≤ 65535 → tbl + 16 ≤ s.cfg.poolBase + s.cfg.poolCapacity → regsFit s.port.arg1 →
    ∃ t, exec (.erInit j) s = .next t ∧
      t = State.withResult
        { s with
          cursor := tbl + 16
          mem := t.mem
          mmio := t.mmio
          producers := tablePut s.producers regs
            { base := BitVec.ofNat 64 b, size := BitVec.ofNat 16 m, enq := BitVec.ofNat 64 b, pcs := true }
          erings := s.erings.set j
            { state := .ready, base := BitVec.ofNat 64 b, cap := s.port.arg0
              erst := BitVec.ofNat 64 tbl, ccs := true, regs := s.port.arg1 } }
        0 (BitVec.ofNat 64 b) ∧
      (∀ x, b ≤ x → x < b + 16 * m → t.mem.peek x = 0) ∧
      t.mem.read64 tbl = BitVec.ofNat 64 b ∧ t.mem.read64 (tbl + 8) = s.port.arg0 ∧
      (∀ x, x < b ∨ b + 16 * m ≤ x → x < tbl ∨ tbl + 16 ≤ x → t.mem.peek x = s.mem.peek x) ∧
      t.erstsz regs = 1 ∧ t.erstba regs = BitVec.ofNat 64 tbl ∧
      t.erdp regs = erdpAfter s.cfg.erdpWriteModel (s.erdp regs)
        (BitVec.ofNat 64 b ||| (s.erdp regs &&& 0xF#64)) ∧
      erdpPtr (t.erdp regs) = BitVec.ofNat 64 b ∧
      ∀ x, x < regs + 0x08 ∨ (regs + 0x0C ≤ x ∧ x < regs + 0x10) ∨ regs + 0x20 ≤ x →
        t.mmio.peek x = s.mmio.peek x

/-- R151, failure: a capacity of 0 or above 65535; no room for the buffer; no room for the table, where the
cursor keeps the advance past the buffer. The instance is `FAILED` and nothing else changes. -/
def Obligations.EventRingInitFails : Prop :=
  ∀ (s : State) (j : Nat) (e : EventRing), s.live → s.erings[j]? = some e → e.state = .uninit →
    let m := s.port.arg0.toNat
    let limit := s.cfg.poolBase + s.cfg.poolCapacity
    let b := alignUp s.cursor 64
    let tbl := alignUp (b + 16 * m) 64
    let failed := { s with erings := s.erings.set j { e with state := .failed } }
    (m < 1 ∨ 65535 < m → exec (.erInit j) s = .next (failed.withResult 2 0)) ∧
    (1 ≤ m → m ≤ 65535 → limit < b + 16 * m → exec (.erInit j) s = .next (failed.withResult 1 0)) ∧
    (1 ≤ m → m ≤ 65535 → b + 16 * m ≤ limit → limit < tbl + 16 →
      exec (.erInit j) s = .next (State.withResult { failed with cursor := b + 16 * m } 1 0))

/-- The model's choice (assumption 8): `ER.INIT` with a `regs` whose interrupter block would not lie below `2^64` stops at
the access that has no address. -/
def Obligations.EventRingInitBeyondTheAddressSpaceStops : Prop :=
  ∀ (s : State) (j : Nat) (e : EventRing), s.live → s.undisturbed → s.cfg.arenaFits = true →
    s.erings[j]? = some e → e.state = .uninit →
    let m := s.port.arg0.toNat
    1 ≤ m → m ≤ 65535 →
    alignUp (alignUp s.cursor 64 + 16 * m) 64 + 16 ≤ s.cfg.poolBase + s.cfg.poolCapacity →
    ¬regsFit s.port.arg1 → exec (.erInit j) s = .fault .busAddress

/-- R155: `ER.HASFRONT` compares the cycle bit at the dequeue pointer with the consumer cycle bit, and changes
nothing else. -/
def Obligations.HasFrontComparesCycleBits : Prop :=
  ∀ (s : State) (j : Nat) (e : EventRing), s.live → s.undisturbed →
    s.erings[j]? = some e → e.state = .ready → regsFit e.regs →
    let dq := (s.erdp e.regs.toNat &&& 0xFFFFFFFFFFFFFFF0#64).toNat
    exec (.erHasFront j) s =
      .next (s.withResult 0 (if (s.mem.read32 (dq + 12)).getLsbD 0 = e.ccs then 1 else 0))

/-- R156: `ER.FRONT` copies the entry at the dequeue pointer to `RENT0..3`, answers the slot's address, and changes
nothing else. -/
def Obligations.FrontReadsTheEntry : Prop :=
  ∀ (s : State) (j : Nat) (e : EventRing), s.live → s.undisturbed →
    s.erings[j]? = some e → e.state = .ready → regsFit e.regs →
    let dq := s.erdp e.regs.toNat &&& 0xFFFFFFFFFFFFFFF0#64
    exec (.erFront j) s =
      .next (State.withResult
        { s with
          port := s.port.withFront
            { w0 := s.mem.read32 dq.toNat, w1 := s.mem.read32 (dq.toNat + 4)
              w2 := s.mem.read32 (dq.toNat + 8), w3 := s.mem.read32 (dq.toNat + 12) } }
        0 dq)

/-- R158: `ER.POP` moves the dequeue pointer one slot forward, or to the base with the consumer cycle bit flipped
where it passes the last slot; the status bits are written back as read, and what the register then
holds of them is `erdp_write_model`'s; DMA memory and everything else is unchanged. -/
def Obligations.PopAdvancesTheDequeuePointer : Prop :=
  ∀ (s : State) (j : Nat) (e : EventRing), s.live → s.undisturbed →
    s.erings[j]? = some e → e.state = .ready → regsFit e.regs →
    let old := s.erdp e.regs.toNat
    let dq := (old &&& 0xFFFFFFFFFFFFFFF0#64).toNat
    let atEnd := dq + 16 = e.base.toNat + 16 * e.cap.toNat
    let p := if atEnd then e.base.toNat else dq + 16
    p < addressSpace →
    ∃ t, exec (.erPop j) s = .next t ∧
      t = State.withResult
        { s with
          mmio := t.mmio
          erings := s.erings.set j (if atEnd then { e with ccs := !e.ccs } else e) }
        0 (BitVec.ofNat 64 p) ∧
      t.erdp e.regs.toNat = erdpAfter s.cfg.erdpWriteModel old
        ((BitVec.ofNat 64 p &&& 0xFFFFFFFFFFFFFFF0#64) ||| (old &&& 0xF#64)) ∧
      erdpPtr (t.erdp e.regs.toNat) = BitVec.ofNat 64 p &&& 0xFFFFFFFFFFFFFFF0#64 ∧
      ∀ x, x < e.regs.toNat + 0x18 ∨ e.regs.toNat + 0x20 ≤ x → t.mmio.peek x = s.mmio.peek x

/-- R160 (a), for every number of pops of a fresh EventRing and every choice of controller steps before and between
their events, where no other interrupter's registers overlap: the dequeue pointer and the consumer cycle bit in
closed form. -/
def Obligations.PopsInClosedForm : Prop :=
  ∀ (s t : State) (j Q : Nat) (e : EventRing), s.BlockInv → s.live →
    s.erings[j]? = some e → e.state = .ready → e.ccs = true → regsFit e.regs →
    s.registersApart e.regsAddr → s.dequeueAt e 0 →
    Pops j Q s t →
    t.erings[j]? = some { e with ccs := decide (Q / e.cap.toNat % 2 = 0) } ∧
      t.dequeueAt e (Q % e.cap.toNat)

/-- R152: after a successful `ER.INIT` and before the controller writes anything, `ER.HASFRONT` answers 0. -/
def Obligations.FreshEventRingHasNoFront : Prop :=
  ∀ (s t : State) (j : Nat) (l : List Move), s.live → s.undisturbed → s.cfg.arenaFits = true →
    exec (.erInit j) s = .next t → t.port.status = 0 → quiet l = true →
    exec (.erHasFront j) { t with agenda := l } = .next (State.withResult { t with agenda := l } 0 0)

/-- The EventRing commands on a `READY` instance always succeed (R150, R218), whatever the controller does between
their events. -/
def Obligations.EventRingCommandsAlwaysSucceed : Prop :=
  ∀ (s : State) (j : Nat) (e : EventRing), s.live → noReset s.agenda →
    s.erings[j]? = some e → e.state = .ready → regsFit e.regs →
    ∀ i ∈ [Instr.erHasFront j, .erFront j, .erPop j],
      ∃ t, exec i s = .next t ∧ t.port.status = 0 ∧ t.cursor = s.cursor ∧ t.rings = s.rings

/-- No result of a command depends on the status bits of `ERDP` or on `erdp_write_model` (R47): two states that
differ only in the register space and in that parameter, with the same pointer in the `ERDP` of the EventRing
addressed, answer alike, and leave the same memory. -/
def Obligations.ErdpStatusBitsDoNotShow : Prop :=
  ∀ (s t : State) (m : Memory) (model : ErdpWriteModel) (j : Nat), s.undisturbed →
    let s' := { s with mmio := m, cfg := { s.cfg with erdpWriteModel := model } }
    (∀ e, s.erings[j]? = some e → e.state = .ready →
      erdpPtr (s'.erdp e.regsAddr) = erdpPtr (s.erdp e.regsAddr)) →
    ∀ i ∈ [Instr.erInit j, .erHasFront j, .erFront j, .erPop j], exec i s = .next t →
      ∃ t', exec i s' = .next t' ∧ t'.port = t.port ∧ t'.erings = t.erings ∧ t'.mem = t.mem ∧
        t'.cursor = t.cursor ∧ t'.producers = t.producers

/-- The window of the read-modify-write (R75, R255): the controller latches status bits between the read and the
write of `ER.POP`. The data written carries the bits read before; under `plain` the latch is overwritten,
under `rw1c_bit3` a latched bit 3 that was read as 0 survives. -/
def Obligations.LatchBetweenReadAndWrite : Prop :=
  ∀ (s : State) (rest : List Move) (j : Nat) (e : EventRing) (v : BitVec 4), s.live → quiet rest = true →
    s.agenda = .block :: .controller (.latch e.regsAddr v) :: rest →
    s.erings[j]? = some e → e.state = .ready → regsFit e.regs → s.isInterrupter e.regsAddr = true →
    ∃ t, exec (.erPop j) s = .next t ∧ t.agenda = rest ∧
      (s.cfg.erdpWriteModel = .plain →
        t.erdp e.regsAddr &&& 0xF#64 = s.erdp e.regsAddr &&& 0xF#64) ∧
      (s.cfg.erdpWriteModel = .rw1cBit3 →
        t.erdp e.regsAddr &&& 0x7#64 = s.erdp e.regsAddr &&& 0x7#64 ∧
        (t.erdp e.regsAddr).getLsbD 3 = (v.getLsbD 3 && !(s.erdp e.regsAddr).getLsbD 3))

/-! ### EndpointID and EndpointConfig (43_endpoint.md) -/

/-- R171 to R174: the words and the results of the four EndpointID commands; nothing but `STATUS` and `RES`
changes. The formulas are those rules' own for every operand (R170); that the model answers with them outside the
ranges of U10 too, instead of refusing, is assumption 20. Within the ranges the results are a number, a
direction, an address. -/
def Obligations.EndpointIdCommandsCompute : Prop :=
  (decode 0x00000030#32 = .ok .epidMake ∧ decode 0x00000031#32 = .ok .epidAddr ∧
    decode 0x00000032#32 = .ok .epidNum ∧ decode 0x00000033#32 = .ok .epidIsIn) ∧
  ∀ s : State, s.live →
    exec .epidMake s = .next (s.withResult 0
      (BitVec.ofNat 64 (s.port.arg0.toNat * 2 + if s.port.arg1 ≠ 0 then 1 else 0))) ∧
    exec .epidAddr s = .next (s.withResult 0 s.port.arg0) ∧
    exec .epidNum s = .next (s.withResult 0 (BitVec.ofNat 64 (s.port.arg0.toNat / 2))) ∧
    exec .epidIsIn s = .next (s.withResult 0 (BitVec.ofNat 64 (s.port.arg0.toNat % 2))) ∧
    ∀ x ∈ [(Instr.epidMake, 32), (.epidAddr, 32), (.epidNum, 16), (.epidIsIn, 2)],
      operandsInRange x.1 s.port → ∃ t, exec x.1 s = .next t ∧ t.port.res.toNat < x.2

/-- R177 to R181: the words and the results of the five EndpointConfig commands, as numbers; nothing but `STATUS` and
`RES` changes. An operand wider than its field is cut to it (R177); that the model does so instead of refusing it (U10)
is assumption 20. With operands in range nothing is cut. -/
def Obligations.EndpointConfigCommandsCompute : Prop :=
  (decode 0x00000038#32 = .ok .epcfgMake ∧ decode 0x00000039#32 = .ok .epcfgEpid ∧
    decode 0x0000003A#32 = .ok .epcfgType ∧ decode 0x0000003B#32 = .ok .epcfgMps ∧
    decode 0x0000003C#32 = .ok .epcfgIval) ∧
  ∀ s : State, s.live →
    let a := s.port.arg0.toNat
    exec .epcfgMake s = .next (s.withResult 0 (BitVec.ofNat 64
      (a % 2 ^ 5 + s.port.arg1.toNat % 2 ^ 2 * 2 ^ 8 + s.port.arg2.toNat % 2 ^ 16 * 2 ^ 16
        + s.port.arg3.toNat % 2 ^ 8 * 2 ^ 32))) ∧
    (operandsInRange .epcfgMake s.port → exec .epcfgMake s = .next (s.withResult 0 (BitVec.ofNat 64
      (a + s.port.arg1.toNat * 2 ^ 8 + s.port.arg2.toNat * 2 ^ 16 + s.port.arg3.toNat * 2 ^ 32)))) ∧
    exec .epcfgEpid s = .next (s.withResult 0 (BitVec.ofNat 64 (a % 2 ^ 5))) ∧
    exec .epcfgType s = .next (s.withResult 0 (BitVec.ofNat 64 (a / 2 ^ 8 % 2 ^ 2))) ∧
    exec .epcfgMps s = .next (s.withResult 0 (BitVec.ofNat 64 (a / 2 ^ 16 % 2 ^ 16))) ∧
    exec .epcfgIval s = .next (s.withResult 0 (BitVec.ofNat 64 (a / 2 ^ 32 % 2 ^ 8)))

/-- R175: the laws of EndpointID, through the commands: the accessors undo `EPID.MAKE`, `EPID.MAKE` undoes the
accessors, and numbers and directions correspond one to one to the addresses below 32. -/
def Obligations.EndpointIdLaws : Prop :=
  (∀ (s u : State) (n d : Nat), n < 16 → d < 2 → s.live → u.live →
    s.port.arg0 = BitVec.ofNat 64 n → s.port.arg1 = BitVec.ofNat 64 d →
    ∃ t, exec .epidMake s = .next t ∧
      (u.port.arg0 = t.port.res →
        exec .epidNum u = .next (u.withResult 0 (BitVec.ofNat 64 n)) ∧
        exec .epidIsIn u = .next (u.withResult 0 (BitVec.ofNat 64 d)) ∧
        exec .epidAddr u = .next (u.withResult 0 (BitVec.ofNat 64 (2 * n + d))))) ∧
  (∀ (s u : State) (a : Nat), a < 32 → s.live → u.live → u.port.arg0 = BitVec.ofNat 64 a →
    ∃ t t', exec .epidNum u = .next t ∧ exec .epidIsIn u = .next t' ∧
      (s.port.arg0 = t.port.res → s.port.arg1 = t'.port.res →
        exec .epidMake s = .next (s.withResult 0 (BitVec.ofNat 64 a)))) ∧
  ∀ a, a < 32 → ∃! x : Nat × Nat, x.1 < 16 ∧ x.2 < 2 ∧ 2 * x.1 + x.2 = a

/-- R182: the laws of EndpointConfig, through the commands: each extractor applied to a packed value returns the
operand, and packing the extracted fields returns the value with its reserved bits cleared. -/
def Obligations.EndpointConfigLaws : Prop :=
  (∀ s u : State, s.live → u.live → s.port.arg0.toNat < 32 → s.port.arg1.toNat < 4 →
    s.port.arg2.toNat < 65536 → s.port.arg3.toNat < 256 →
    ∃ t, exec .epcfgMake s = .next t ∧
      (u.port.arg0 = t.port.res →
        exec .epcfgEpid u = .next (u.withResult 0 s.port.arg0) ∧
        exec .epcfgType u = .next (u.withResult 0 s.port.arg1) ∧
        exec .epcfgMps u = .next (u.withResult 0 s.port.arg2) ∧
        exec .epcfgIval u = .next (u.withResult 0 s.port.arg3))) ∧
  ∀ s u : State, s.live → u.live →
    ∃ t0 t1 t2 t3, exec .epcfgEpid u = .next t0 ∧ exec .epcfgType u = .next t1 ∧
      exec .epcfgMps u = .next t2 ∧ exec .epcfgIval u = .next t3 ∧
      (s.port.arg0 = t0.port.res → s.port.arg1 = t1.port.res → s.port.arg2 = t2.port.res →
        s.port.arg3 = t3.port.res →
        exec .epcfgMake s = .next (s.withResult 0 (u.port.arg0 &&& 0x000000FFFFFF031F#64)))

/-! ### The controller (44_controller_agent.md) -/

/-- How the controller is told of a Ring (R191: it starts at the base with expected cycle value 1, and takes no step
before), and the consume step (R192) and the link step (R193) on the entry at `c_dq`, of which nothing has been read
yet. The model's choices (assumption 9): the controller may be told of a `READY` Ring at any time, also again; each
read of a word is an event, word 3 first; a stale entry stops at that one; a Link entry is followed with the
third read, its word 2 not read; any other entry is taken, into the list `taken`, and passed with the fourth. -/
def Obligations.ConsumeAndLinkSteps : Prop :=
  (∀ (s : State) (i : Nat) (r : Ring), s.rings[i]? = some r → r.state = .ready →
    s.controllerStep (.tellRing i) =
      { s with
        consumers := s.consumers.set i (some { dq := r.base, ccs := true, got := [], taken := [] }) }) ∧
  (∀ (s : State) (i : Nat), (∀ r, s.rings[i]? = some r → r.state ≠ .ready) →
    s.controllerStep (.tellRing i) = s) ∧
  (∀ (s : State) (i : Nat), s.consumers[i]? = some none → s.controllerStep (.consume i) = s) ∧
  ∀ (s : State) (i : Nat) (c : Consumer), s.consumers[i]? = some (some c) → c.got = [] →
    let e := s.mem.entryAt c.dq.toNat
    let reads (n : Nat) : State := (fun t => t.controllerStep (.consume i))^[n] s
    let after (c' : Consumer) : State := { s with consumers := s.consumers.set i (some c') }
    (e.w3.getLsbD 0 ≠ c.ccs → reads 1 = s) ∧
    (e.w3.getLsbD 0 = c.ccs → e.w3.extractLsb' 10 6 ≠ 6 → c.dq.toNat + 16 < addressSpace →
      reads 4 = after { c with dq := c.dq + 16, taken := c.taken ++ [e] }) ∧
    (e.w3.getLsbD 0 = c.ccs → e.w3.extractLsb' 10 6 = 6 →
      reads 3 =
        after { c with dq := linkTarget e.w0 e.w1, ccs := if e.w3.getLsbD 1 then !c.ccs else c.ccs })

/-- The produce step (R198; as one event, assumption 9) and the full rule (R199): nothing happens where advancing would reach the dequeue
pointer; else the entry is written at `h_eq` with the producer's cycle bit, and `h_eq` advances or wraps. -/
def Obligations.ProduceStepAndFullRule : Prop :=
  ∀ (s : State) (regs : Nat) (p : Producer) (e : Entry), tableGet s.producers regs = some p →
    let atEnd := p.enq.toNat + 16 = p.base.toNat + 16 * p.size.toNat
    let next := if atEnd then p.base.toNat else p.enq.toNat + 16
    (next = (erdpPtr (s.erdp regs)).toNat → s.controllerStep (.produce regs e) = s) ∧
    (next ≠ (erdpPtr (s.erdp regs)).toNat → p.enq.toNat + 16 ≤ addressSpace → next < addressSpace →
      let t := s.controllerStep (.produce regs e)
      t = { s with mem := t.mem, producers := t.producers } ∧
      t.mem.entryAt p.enq.toNat =
        { e with w3 := (e.w3 &&& 0xFFFFFFFE#32) ||| (if p.pcs then 1#32 else 0#32) } ∧
      (∀ x, x < p.enq.toNat ∨ p.enq.toNat + 16 ≤ x → t.mem.peek x = s.mem.peek x) ∧
      tableGet t.producers regs =
        some { p with enq := BitVec.ofNat 64 next, pcs := if atEnd then !p.pcs else p.pcs } ∧
      ∀ x, x ≠ regs → tableGet t.producers x = tableGet s.producers x)

/-- What the controller never does (R194, R199, R202): its steps change no byte of DMA memory but those of the slot
at a producer's `h_eq`, and no bit of the register space but the four status bits of an `ERDP`. That its steps
are these is assumption 9. -/
def Obligations.ControllerWritesOnlyItsOwn : Prop :=
  ∀ (s : State) (a : ControllerAction),
    (∀ x, (s.controllerStep a).mem.peek x ≠ s.mem.peek x →
      ∃ regs p, tableGet s.producers regs = some p ∧ p.nextEnq ≠ (erdpPtr (s.erdp regs)).toNat ∧
        ((∃ e, a = .produce regs e ∧ p.enq.toNat ≤ x ∧ x < p.enq.toNat + 16) ∨
          ∃ k v, a = .writeWord regs k v ∧ p.enq.toNat ≤ x ∧ x < p.enq.toNat + 12)) ∧
    (∀ x, (s.controllerStep a).mmio.peek x ≠ s.mmio.peek x →
      ∃ regs v, a = .latch regs v ∧ x = regs + 0x18) ∧
    ∀ x, (s.controllerStep a).mmio.peek x &&& 0xF0#8 = s.mmio.peek x &&& 0xF0#8

/-- R72: the controller, looking before the block has written word 3 of an entry whose slot was stale, sees nothing
new, however many of the other words are already written. The entry is the pushed one, whose word 3 is the fourth
write of a push, or the Link entry of a push that wraps, whose word 3 is the eighth. That a look is one event of
the controller is assumption 9. -/
def Obligations.ConsumerSeesNoHalfWrittenEntry : Prop :=
  ∀ (s : State) (rest : List Move) (i k : Nat) (r : Ring) (c : Consumer), s.BlockInv → s.live →
    s.rings[i]? = some r → r.state = .ready → quiet rest = true →
    s.agenda = List.replicate k Move.block ++ Move.controller (.consume i) :: rest →
    s.consumers[i]? = some (some c) → c.got = [] →
    (c.dq.toNat = r.slot r.widx.toNat ∧ k ≤ 3 ∨
      r.widx.toNat + 2 = r.cap.toNat ∧ c.dq.toNat = r.slot (r.cap.toNat - 1) ∧ k ≤ 7) →
    cycleOf (s.mem.read32 (c.dq.toNat + 12)) ≠ c.ccs →
    ∃ t, exec (.ringPush i) s = .next t ∧ t.consumers = s.consumers ∧ t.agenda = rest

/-- R195, for one push or one read of the consumer at a time: the controller takes exactly the pushed entries,
each once, in push order, each as pushed and stamped, and follows the Link entry once per lap. `q` are the
entries pushed and not yet consumed. The proviso of R195 (at most `cap - 1` unconsumed) is not
enough: a push that wraps while the consumer still stands at the Link entry of the lap before rewrites that entry
with the next lap's cycle bit, and the consumer stops there for good (last part; assumption 16). The reads of
one word each and the record of the entries taken are assumption 9. -/
def Obligations.RingDeliversInOrder : Prop :=
  ∀ (s : State) (i k : Nat) (r : Ring) (c : Consumer) (q : List Entry),
    s.rings[i]? = some r → s.consumers[i]? = some (some c) → EntriesQueued s r c k q →
    -- a push appends the stamped entry
    (s.live → s.undisturbed → q.length < r.cap.toNat - 1 → isLink s.port.ent3 = false →
      (k + 1 = r.cap.toNat → r.widx.toNat + 2 ≠ r.cap.toNat) →
      ∃ t r', exec (.ringPush i) s = .next t ∧ t.rings[i]? = some r' ∧
        t.consumers[i]? = some (some c) ∧
        EntriesQueued t r' c k (q ++ [{ s.port.entry with w3 := stamp s.port.ent3 r.pcs }])) ∧
    -- a read of the consumer goes on with the oldest entry and takes it with the last of the four reads, or
    -- goes on with the Link entry and follows it with the last of the three, or finds nothing
    (∃ c' k' q', (s.controllerStep (.consume i)).rings[i]? = some r ∧
      (s.controllerStep (.consume i)).consumers[i]? = some (some c') ∧
      EntriesQueued (s.controllerStep (.consume i)) r c' k' q' ∧
      c'.taken ++ q' = c.taken ++ q ∧
      (q ≠ [] → k + 1 < r.cap.toNat →
        4 * c'.taken.length + c'.got.length = 4 * c.taken.length + c.got.length + 1) ∧
      (k + 1 = r.cap.toNat → c'.taken = c.taken ∧
        if c.got.length < 2 then k' = k ∧ c'.got.length = c.got.length + 1
        else k' = 0 ∧ c'.ccs = r.pcs ∧ c'.got = [])) ∧
    -- a push that wraps over a Link entry the consumer has not begun to read stalls it
    (s.live → s.undisturbed → k + 1 = r.cap.toNat → r.widx.toNat + 2 = r.cap.toNat → c.got = [] →
      ∃ t, exec (.ringPush i) s = .next t ∧ t.controllerStep (.consume i) = t)

/-- R200: the block returns through `ER.FRONT` exactly the entries the controller wrote, each once, in the order
written, each complete, and `ER.HASFRONT` answers 1 exactly when one is unconsumed. `q` are the entries
written and not yet popped. The controller's steps are those of assumption 9. -/
def Obligations.EventRingDeliversInOrder : Prop :=
  ∀ (s : State) (j k : Nat) (e : EventRing) (p : Producer) (q : List Entry),
    s.erings[j]? = some e → EventsQueued s e p k q →
    -- the controller's entry joins the queue, unless the ring is full
    (∀ payload, q.length + 1 < e.cap.toNat →
      ∃ p', EventsQueued (s.controllerStep (.produce e.regsAddr payload)) e p' k
        (q ++ [{ payload with w3 := stamp payload.w3 p.pcs }])) ∧
    (∀ payload, q.length + 1 = e.cap.toNat →
      s.controllerStep (.produce e.regsAddr payload) = s) ∧
    -- words written ahead of word 3 change nothing of what is queued
    (∀ n v, EventsQueued (s.controllerStep (.writeWord e.regsAddr n v)) e p k q) ∧
    (s.live → s.undisturbed →
      exec (.erHasFront j) s = .next (s.withResult 0 (if q = [] then 0 else 1)) ∧
      (∀ x rest, q = x :: rest →
        (∃ t, exec (.erFront j) s = .next t ∧ t.port.front = x ∧ t.mem = s.mem) ∧
        ∃ t e', exec (.erPop j) s = .next t ∧ t.erings[j]? = some e' ∧
          EventsQueued t e' p ((k + 1) % e.cap.toNat) rest))

/-! ### Every step -/

/-- R33: a command addressed to one instance changes no field of another, and the other commands change none,
whatever the controller does meanwhile. -/
def Obligations.InstancesAreIndependent : Prop :=
  ∀ (i : Instr) (s t : State), noReset s.agenda → exec i s = .next t →
    (∀ k, (i ∉ [Instr.ringInit k, .ringPush k, .ringBuf k]) → t.rings[k]? = s.rings[k]?) ∧
    (∀ k, (i ∉ [Instr.erInit k, .erHasFront k, .erFront k, .erPop k]) → t.erings[k]? = s.erings[k]?) ∧
    t.rings.length = s.rings.length ∧ t.erings.length = s.erings.length ∧ t.cfg = s.cfg ∧
    t.hostData = s.hostData

/-- With the invariants of the block no command but those that follow a caller's `regs` can stop: every other one
ends in a next state, whatever the controller does and whether or not the reset input is asserted (R218). That those others can stop is
assumption 8. -/
def Obligations.CommandsDoNotStop : Prop :=
  ∀ (i : Instr) (s : State), s.BlockInv →
    (∀ k, i ∉ [Instr.erInit k, .erHasFront k, .erFront k, .erPop k]) → ∃ t, exec i s = .next t

/-- The machine at power-up satisfies the invariants of the block for every platform whose arena fits the address
space, and all invariants for every platform the spec allows (R7, R68); and so does the state after reset. Its
memory, its registers, the fields of its instances and, for the state after reset, the parameters are the model's
choice (assumptions 1, 2, 4, 6). -/
def Obligations.PowerUpHasTheInvariants : Prop :=
  (∀ cfg : Config, cfg.arenaFits = true →
    (State.powerUp cfg).BlockInv ∧ (State.powerUp cfg).regionsDisjoint ∧ (State.powerUp cfg).RegsGenuine) ∧
  (∀ cfg : Config, cfg.wellFormed = true → (State.powerUp cfg).Inv) ∧
  State.reset.Inv ∧ State.reset.regionsDisjoint ∧ State.reset.RegsGenuine

/-- Every step, of the host, of the controller, of the block, and reset, keeps the invariants of the block (R21, R28,
R31, R35) on any platform, and with them those of a platform the spec allows (R7, R30, R34, R68). -/
def Obligations.EveryStepKeepsTheInvariants : Prop :=
  (∀ s t : State, s.BlockInv → step s = .next t → t.BlockInv) ∧
  ∀ s t : State, s.Inv → step s = .next t → t.Inv

/-- The regions of the instances stay pairwise disjoint in every step (R69, R122 d): no Ring buffer, event buffer
or segment table ever shares a byte with another. If the caller gives each `ER.INIT` a genuine `regs` (R257), every
`READY` EventRing stays on an interrupter of its own; and then its registers are aligned, inside the address
space, and disjoint from the arena, the command port and the registers of every other EventRing (R66, R68). -/
def Obligations.EveryStepKeepsRegionsDisjoint : Prop :=
  (∀ s t : State, s.BlockInv → s.regionsDisjoint → step s = .next t → t.regionsDisjoint) ∧
  (∀ s t : State, s.RegsGenuine → (∀ j, s.nextCommand = some (.erInit j) → s.regsOperandGenuine) →
    step s = .next t → t.RegsGenuine) ∧
  ∀ s : State, s.Inv → s.RegsGenuine → ∀ (j : Nat) (e : EventRing), s.erings[j]? = some e → e.state = .ready →
    e.regsAddr % 8 = 0 ∧ regsFit e.regs ∧
      rangesDisjoint (s.cfg.poolBase, s.cfg.poolCapacity) (e.regsAddr, interrupterBytes) = true ∧
      rangesDisjoint (s.cfg.hostportBase, hostportBytes) (e.regsAddr, interrupterBytes) = true ∧
      ∀ (k : Nat) (f : EventRing), s.erings[k]? = some f → f.state = .ready → k ≠ j →
        rangesDisjoint (f.regsAddr, interrupterBytes) (e.regsAddr, interrupterBytes) = true
end

