-- ==== Sys2Proof/Laws/Memory.lean ====
section
/-! SUPPORT. The laws of tables and of byte-addressed memory: read after write, writes to one place leave every
other place, and every operation keeps the canonical form. -/

namespace Sys2Proof.Machine

variable {α : Type}

/-! ### Tables -/

@[simp] theorem tableGet_nil (x : Nat) : tableGet ([] : List (Nat × α)) x = none := rfl

theorem tableGet_cons (c : Nat × α) (t : List (Nat × α)) (x : Nat) :
    tableGet (c :: t) x = if c.1 = x then some c.2 else tableGet t x := rfl

@[simp] theorem tableDrop_nil (x : Nat) : tableDrop ([] : List (Nat × α)) x = [] := rfl

theorem tableDrop_cons (c : Nat × α) (t : List (Nat × α)) (x : Nat) :
    tableDrop (c :: t) x = if c.1 = x then tableDrop t x else c :: tableDrop t x := by
  by_cases h : c.1 = x <;> simp [tableDrop, h]

theorem tableGet_drop (t : List (Nat × α)) (x y : Nat) :
    tableGet (tableDrop t x) y = if x = y then none else tableGet t y := by
  induction t with
  | nil => simp
  | cons c t ih =>
    rw [tableDrop_cons]
    by_cases hc : c.1 = x
    · rw [if_pos hc, ih, tableGet_cons]
      by_cases hxy : x = y <;> simp [hxy, hc]
    · rw [if_neg hc, tableGet_cons, tableGet_cons, ih]
      by_cases hxy : x = y
      · subst hxy; simp [hc]
      · simp [hxy]

theorem tableGet_insert (t : List (Nat × α)) (x y : Nat) (v : α) (h : tableGet t x = none) :
    tableGet (tableInsert t x v) y = if x = y then some v else tableGet t y := by
  induction t with
  | nil => simp [tableInsert, tableGet_cons]
  | cons c t ih =>
    rw [tableGet_cons] at h
    by_cases hc : c.1 = x
    · simp [hc] at h
    · rw [if_neg hc] at h
      rw [tableInsert]
      split
      · rw [tableGet_cons]
      · rw [tableGet_cons, ih h, tableGet_cons]
        by_cases hxy : x = y
        · subst hxy; simp [hc]
        · simp [hxy]

/-- What a table holds after a put: the new value under its key, what it held elsewhere. -/
theorem tableGet_put (t : List (Nat × α)) (x y : Nat) (v : α) :
    tableGet (tablePut t x v) y = if x = y then some v else tableGet t y := by
  rw [tablePut, tableGet_insert _ _ _ _ (by simp [tableGet_drop]), tableGet_drop]
  by_cases h : x = y <;> simp [h]

theorem mem_tableDrop (t : List (Nat × α)) (x : Nat) (c : Nat × α) :
    c ∈ tableDrop t x ↔ c ∈ t ∧ c.1 ≠ x := by simp [tableDrop]

theorem mem_tableInsert (t : List (Nat × α)) (x : Nat) (v : α) (c : Nat × α) :
    c ∈ tableInsert t x v ↔ c = (x, v) ∨ c ∈ t := by
  induction t with
  | nil => simp [tableInsert]
  | cons d t ih =>
    rw [tableInsert]
    split
    · simp
    · simp only [List.mem_cons, ih]; tauto

theorem tableSorted_drop (t : List (Nat × α)) (x : Nat) (h : tableSorted t) :
    tableSorted (tableDrop t x) := List.Pairwise.filter _ h

theorem tableSorted_insert (t : List (Nat × α)) (x : Nat) (v : α) (h : tableSorted t)
    (hx : ∀ c ∈ t, c.1 ≠ x) : tableSorted (tableInsert t x v) := by
  induction t with
  | nil => simp [tableInsert, tableSorted]
  | cons d t ih =>
    rw [tableSorted, List.pairwise_cons] at h
    rw [tableInsert]
    split
    · rename_i hlt
      rw [tableSorted, List.pairwise_cons]
      refine ⟨fun c hc => ?_, List.pairwise_cons.mpr h⟩
      rcases List.mem_cons.mp hc with rfl | hc
      · exact hlt
      · exact hlt.trans (h.1 c hc)
    · rename_i hge
      rw [tableSorted, List.pairwise_cons]
      refine ⟨fun c hc => ?_, ih h.2 fun c hc => hx c (List.mem_cons_of_mem _ hc)⟩
      rcases (mem_tableInsert _ _ _ _).mp hc with rfl | hc
      · have := hx d List.mem_cons_self
        show d.1 < x
        omega
      · exact h.1 c hc

/-- A put keeps the canonical order. -/
theorem tableSorted_put (t : List (Nat × α)) (x : Nat) (v : α) (h : tableSorted t) :
    tableSorted (tablePut t x v) :=
  tableSorted_insert _ _ _ (tableSorted_drop _ _ h) fun _ hc => ((mem_tableDrop _ _ _).mp hc).2

/-! ### One byte -/

/-- Read after write, for one byte and for every other byte. -/
theorem Memory.peek_poke (m : Memory) (a x : Nat) (b : Byte) :
    (m.poke a b).peek x = if a = x then b else m.peek x := by
  unfold Memory.poke Memory.peek
  split
  · rename_i h
    rw [tableGet_drop]
    by_cases hx : a = x <;> simp [hx, h]
  · rw [tableGet_put]
    by_cases hx : a = x <;> simp [hx]

/-- A byte write keeps the canonical form. -/
theorem Memory.wf_poke (m : Memory) (a : Nat) (b : Byte) (h : m.wf) (ha : a < addressSpace) :
    (m.poke a b).wf := by
  unfold Memory.poke
  split
  · exact ⟨tableSorted_drop _ _ h.1, fun c hc => h.2 c ((mem_tableDrop _ _ _).mp hc).1⟩
  · rename_i hb
    refine ⟨tableSorted_put _ _ _ h.1, fun c hc => ?_⟩
    rcases (mem_tableInsert _ _ _ _).mp hc with rfl | hc
    · exact ⟨ha, hb⟩
    · exact h.2 c ((mem_tableDrop _ _ _).mp hc).1

theorem Memory.wf_nil : Memory.wf [] := ⟨List.Pairwise.nil, fun _ h => absurd h List.not_mem_nil⟩

/-! ### Little-endian accesses -/

@[simp] theorem Memory.read_zero (m : Memory) (a : Nat) : m.read a 0 = 0 := rfl

theorem Memory.read_succ (m : Memory) (a n : Nat) :
    m.read a (n + 1) = (m.peek a).toNat + 256 * m.read (a + 1) n := rfl

theorem Memory.read_lt (m : Memory) (a n : Nat) : m.read a n < 256 ^ n := by
  induction n generalizing a with
  | zero => simp
  | succ n ih =>
    have h1 := ih (a + 1)
    have h2 := (m.peek a).isLt
    rw [Memory.read_succ, pow_succ]
    omega

/-- Two memories that agree on the bytes read give the same value. -/
theorem Memory.read_congr (m m' : Memory) (a n : Nat)
    (h : ∀ x, a ≤ x → x < a + n → m.peek x = m'.peek x) : m.read a n = m'.read a n := by
  induction n generalizing a with
  | zero => rfl
  | succ n ih =>
    rw [Memory.read_succ, Memory.read_succ, h a (le_refl a) (by omega),
      ih (a + 1) fun x h1 h2 => h x (by omega) (by omega)]

/-- Every byte after a write: byte `k` of the value inside the bytes written, the old byte outside. -/
theorem Memory.peek_write (m : Memory) (a n v x : Nat) :
    (m.write a n v).peek x =
      if a ≤ x ∧ x < a + n then BitVec.ofNat 8 (v / 256 ^ (x - a)) else m.peek x := by
  induction n generalizing m a v with
  | zero =>
    have : ¬(a ≤ x ∧ x < a + 0) := by omega
    rw [if_neg this]; rfl
  | succ n ih =>
    rw [Memory.write, ih, Memory.peek_poke]
    by_cases h1 : a + 1 ≤ x ∧ x < a + 1 + n
    · have h2 : a ≤ x ∧ x < a + (n + 1) := by omega
      rw [if_pos h1, if_pos h2, Nat.div_div_eq_div_mul]
      have : x - a = (x - (a + 1)) + 1 := by omega
      rw [this, pow_succ, mul_comm 256]
    · rw [if_neg h1]
      by_cases h3 : a = x
      · subst h3
        have h2 : a ≤ a ∧ a < a + (n + 1) := by omega
        rw [if_pos rfl, if_pos h2]; simp
      · have h2 : ¬(a ≤ x ∧ x < a + (n + 1)) := by omega
        rw [if_neg h3, if_neg h2]

/-- A write leaves every byte outside it. -/
theorem Memory.peek_write_outside (m : Memory) (a n v x : Nat) (h : x < a ∨ a + n ≤ x) :
    (m.write a n v).peek x = m.peek x := by
  rw [Memory.peek_write, if_neg (by omega)]

/-- A read beside a write is not changed by it. -/
theorem Memory.read_write_outside (m : Memory) (a n v b k : Nat) (h : b + k ≤ a ∨ a + n ≤ b) :
    (m.write a n v).read b k = m.read b k :=
  Memory.read_congr _ _ _ _ fun x h1 h2 => Memory.peek_write_outside _ _ _ _ _ (by omega)

/-- Read after write: the low bits of the value. -/
theorem Memory.read_write (m : Memory) (a n v : Nat) :
    (m.write a n v).read a n = v % 256 ^ n := by
  induction n generalizing m a v with
  | zero => simp [Nat.mod_one]
  | succ n ih =>
    rw [Memory.read_succ, Memory.peek_write, if_pos (by omega)]
    have : (Memory.write m a (n + 1) v) = Memory.write (m.poke a (BitVec.ofNat 8 v)) (a + 1) n (v / 256) := rfl
    rw [this, ih, Nat.sub_self, pow_zero, Nat.div_one, BitVec.toNat_ofNat, pow_succ' 256 n, Nat.mod_mul]

/-- A write keeps the canonical form. -/
theorem Memory.wf_write (m : Memory) (a n v : Nat) (h : m.wf) (ha : a + n ≤ addressSpace) :
    (m.write a n v).wf := by
  induction n generalizing m a v with
  | zero => exact h
  | succ n ih => exact ih _ _ _ (Memory.wf_poke _ _ _ h (by omega)) (by omega)

@[simp] theorem Memory.read32_write32 (m : Memory) (a : Nat) (v : Word32) :
    (m.write32 a v).read32 a = v := by
  have := v.isLt
  rw [Memory.read32, Memory.write32, Memory.read_write, Nat.mod_eq_of_lt (by omega)]; simp

@[simp] theorem Memory.read64_write64 (m : Memory) (a : Nat) (v : Word64) :
    (m.write64 a v).read64 a = v := by
  have := v.isLt
  rw [Memory.read64, Memory.write64, Memory.read_write, Nat.mod_eq_of_lt (by omega)]; simp

theorem Memory.read32_write32_outside (m : Memory) (a b : Nat) (v : Word32) (h : b + 4 ≤ a ∨ a + 4 ≤ b) :
    (m.write32 a v).read32 b = m.read32 b := by
  rw [Memory.read32, Memory.write32, Memory.read_write_outside _ _ _ _ _ _ h, Memory.read32]

theorem Memory.wf_write32 (m : Memory) (a : Nat) (v : Word32) (h : m.wf) (ha : a + 4 ≤ addressSpace) :
    (m.write32 a v).wf := Memory.wf_write _ _ _ _ h ha

theorem Memory.wf_write64 (m : Memory) (a : Nat) (v : Word64) (h : m.wf) (ha : a + 8 ≤ addressSpace) :
    (m.write64 a v).wf := Memory.wf_write _ _ _ _ h ha

/-! ### Queue Entries -/

/-- An entry write leaves every byte outside its 16. -/
theorem Memory.peek_writeEntry_outside (m : Memory) (a x : Nat) (e : Entry) (h : x < a ∨ a + 16 ≤ x) :
    (m.writeEntry a e).peek x = m.peek x := by
  simp only [Memory.writeEntry, Memory.write32]
  rw [Memory.peek_write_outside _ _ _ _ _ (by omega), Memory.peek_write_outside _ _ _ _ _ (by omega),
    Memory.peek_write_outside _ _ _ _ _ (by omega), Memory.peek_write_outside _ _ _ _ _ (by omega)]

/-- Read after write, for a Queue Entry. -/
@[simp] theorem Memory.entryAt_writeEntry (m : Memory) (a : Nat) (e : Entry) :
    (m.writeEntry a e).entryAt a = e := by
  simp only [Memory.writeEntry, Memory.entryAt]
  rw [Memory.read32_write32_outside _ _ _ _ (by omega), Memory.read32_write32_outside _ _ _ _ (by omega),
    Memory.read32_write32_outside _ _ _ _ (by omega), Memory.read32_write32,
    Memory.read32_write32_outside _ _ _ _ (by omega), Memory.read32_write32_outside _ _ _ _ (by omega),
    Memory.read32_write32, Memory.read32_write32_outside _ _ _ _ (by omega), Memory.read32_write32,
    Memory.read32_write32]

theorem Memory.wf_writeEntry (m : Memory) (a : Nat) (e : Entry) (h : m.wf) (ha : a + 16 ≤ addressSpace) :
    (m.writeEntry a e).wf :=
  Memory.wf_write32 _ _ _ (Memory.wf_write32 _ _ _ (Memory.wf_write32 _ _ _
    (Memory.wf_write32 _ _ _ h (by omega)) (by omega)) (by omega)) (by omega)

end Sys2Proof.Machine
end

