-- ==== Sys2Proof/Laws/State.lean ====
section
/-! SUPPORT. What each named update of the state does to each field: one lemma per field per update, true by
`rfl`, so that no proof unfolds a record update. -/

namespace Sys2Proof.Machine

variable (s : State)

@[simp] theorem State.endWith_cfg (c : ResultCode) (f : Bool) (v : Word64) :
    (s.endWith c f v).cfg = s.cfg := rfl
@[simp] theorem State.endWith_port (c : ResultCode) (f : Bool) (v : Word64) :
    (s.endWith c f v).port = { s.port with status := statusAfter s.port.status c f, res := v } := rfl
@[simp] theorem State.endWith_cursor (c : ResultCode) (f : Bool) (v : Word64) :
    (s.endWith c f v).cursor = s.cursor := rfl
@[simp] theorem State.endWith_rings (c : ResultCode) (f : Bool) (v : Word64) :
    (s.endWith c f v).rings = s.rings := rfl
@[simp] theorem State.endWith_erings (c : ResultCode) (f : Bool) (v : Word64) :
    (s.endWith c f v).erings = s.erings := rfl
@[simp] theorem State.endWith_mem (c : ResultCode) (f : Bool) (v : Word64) :
    (s.endWith c f v).mem = s.mem := rfl
@[simp] theorem State.endWith_mmio (c : ResultCode) (f : Bool) (v : Word64) :
    (s.endWith c f v).mmio = s.mmio := rfl
@[simp] theorem State.endWith_consumers (c : ResultCode) (f : Bool) (v : Word64) :
    (s.endWith c f v).consumers = s.consumers := rfl
@[simp] theorem State.endWith_producers (c : ResultCode) (f : Bool) (v : Word64) :
    (s.endWith c f v).producers = s.producers := rfl
@[simp] theorem State.endWith_agenda (c : ResultCode) (f : Bool) (v : Word64) :
    (s.endWith c f v).agenda = s.agenda := rfl
@[simp] theorem State.endWith_hostData (c : ResultCode) (f : Bool) (v : Word64) :
    (s.endWith c f v).hostData = s.hostData := rfl
@[simp] theorem State.endWith_draws (c : ResultCode) (f : Bool) (v : Word64) :
    (s.endWith c f v).draws = s.draws := rfl

@[simp] theorem State.done_cfg (v : Word64) :
    (s.done v).cfg = s.cfg := rfl
@[simp] theorem State.done_port (v : Word64) :
    (s.done v).port = { s.port with status := statusAfter s.port.status .ok false, res := v } := rfl
@[simp] theorem State.done_cursor (v : Word64) :
    (s.done v).cursor = s.cursor := rfl
@[simp] theorem State.done_rings (v : Word64) :
    (s.done v).rings = s.rings := rfl
@[simp] theorem State.done_erings (v : Word64) :
    (s.done v).erings = s.erings := rfl
@[simp] theorem State.done_mem (v : Word64) :
    (s.done v).mem = s.mem := rfl
@[simp] theorem State.done_mmio (v : Word64) :
    (s.done v).mmio = s.mmio := rfl
@[simp] theorem State.done_consumers (v : Word64) :
    (s.done v).consumers = s.consumers := rfl
@[simp] theorem State.done_producers (v : Word64) :
    (s.done v).producers = s.producers := rfl
@[simp] theorem State.done_agenda (v : Word64) :
    (s.done v).agenda = s.agenda := rfl
@[simp] theorem State.done_hostData (v : Word64) :
    (s.done v).hostData = s.hostData := rfl
@[simp] theorem State.done_draws (v : Word64) :
    (s.done v).draws = s.draws := rfl

@[simp] theorem State.fail_cfg (c : ResultCode) :
    (s.fail c).cfg = s.cfg := rfl
@[simp] theorem State.fail_port (c : ResultCode) :
    (s.fail c).port = { s.port with status := statusAfter s.port.status c false, res := 0 } := rfl
@[simp] theorem State.fail_cursor (c : ResultCode) :
    (s.fail c).cursor = s.cursor := rfl
@[simp] theorem State.fail_rings (c : ResultCode) :
    (s.fail c).rings = s.rings := rfl
@[simp] theorem State.fail_erings (c : ResultCode) :
    (s.fail c).erings = s.erings := rfl
@[simp] theorem State.fail_mem (c : ResultCode) :
    (s.fail c).mem = s.mem := rfl
@[simp] theorem State.fail_mmio (c : ResultCode) :
    (s.fail c).mmio = s.mmio := rfl
@[simp] theorem State.fail_consumers (c : ResultCode) :
    (s.fail c).consumers = s.consumers := rfl
@[simp] theorem State.fail_producers (c : ResultCode) :
    (s.fail c).producers = s.producers := rfl
@[simp] theorem State.fail_agenda (c : ResultCode) :
    (s.fail c).agenda = s.agenda := rfl
@[simp] theorem State.fail_hostData (c : ResultCode) :
    (s.fail c).hostData = s.hostData := rfl
@[simp] theorem State.fail_draws (c : ResultCode) :
    (s.fail c).draws = s.draws := rfl

@[simp] theorem State.takeFault_cfg (c : ResultCode) :
    (s.takeFault c).cfg = s.cfg := rfl
@[simp] theorem State.takeFault_port (c : ResultCode) :
    (s.takeFault c).port = { s.port with status := statusAfter s.port.status c true, res := 0 } := rfl
@[simp] theorem State.takeFault_cursor (c : ResultCode) :
    (s.takeFault c).cursor = s.cursor := rfl
@[simp] theorem State.takeFault_rings (c : ResultCode) :
    (s.takeFault c).rings = s.rings := rfl
@[simp] theorem State.takeFault_erings (c : ResultCode) :
    (s.takeFault c).erings = s.erings := rfl
@[simp] theorem State.takeFault_mem (c : ResultCode) :
    (s.takeFault c).mem = s.mem := rfl
@[simp] theorem State.takeFault_mmio (c : ResultCode) :
    (s.takeFault c).mmio = s.mmio := rfl
@[simp] theorem State.takeFault_consumers (c : ResultCode) :
    (s.takeFault c).consumers = s.consumers := rfl
@[simp] theorem State.takeFault_producers (c : ResultCode) :
    (s.takeFault c).producers = s.producers := rfl
@[simp] theorem State.takeFault_agenda (c : ResultCode) :
    (s.takeFault c).agenda = s.agenda := rfl
@[simp] theorem State.takeFault_hostData (c : ResultCode) :
    (s.takeFault c).hostData = s.hostData := rfl
@[simp] theorem State.takeFault_draws (c : ResultCode) :
    (s.takeFault c).draws = s.draws := rfl

@[simp] theorem State.refuseHalted_cfg :
    (s.refuseHalted).cfg = s.cfg := rfl
@[simp] theorem State.refuseHalted_port :
    (s.refuseHalted).port = { s.port with status := statusAfter s.port.status .halted false, res := 0 } := rfl
@[simp] theorem State.refuseHalted_cursor :
    (s.refuseHalted).cursor = s.cursor := rfl
@[simp] theorem State.refuseHalted_rings :
    (s.refuseHalted).rings = s.rings := rfl
@[simp] theorem State.refuseHalted_erings :
    (s.refuseHalted).erings = s.erings := rfl
@[simp] theorem State.refuseHalted_mem :
    (s.refuseHalted).mem = s.mem := rfl
@[simp] theorem State.refuseHalted_mmio :
    (s.refuseHalted).mmio = s.mmio := rfl
@[simp] theorem State.refuseHalted_consumers :
    (s.refuseHalted).consumers = s.consumers := rfl
@[simp] theorem State.refuseHalted_producers :
    (s.refuseHalted).producers = s.producers := rfl
@[simp] theorem State.refuseHalted_agenda :
    (s.refuseHalted).agenda = s.agenda := rfl
@[simp] theorem State.refuseHalted_hostData :
    (s.refuseHalted).hostData = s.hostData := rfl
@[simp] theorem State.refuseHalted_draws :
    (s.refuseHalted).draws = s.draws := rfl

@[simp] theorem State.setRing_cfg (i : Nat) (r : Ring) :
    (s.setRing i r).cfg = s.cfg := rfl
@[simp] theorem State.setRing_port (i : Nat) (r : Ring) :
    (s.setRing i r).port = s.port := rfl
@[simp] theorem State.setRing_cursor (i : Nat) (r : Ring) :
    (s.setRing i r).cursor = s.cursor := rfl
@[simp] theorem State.setRing_rings (i : Nat) (r : Ring) :
    (s.setRing i r).rings = s.rings.set i r := rfl
@[simp] theorem State.setRing_erings (i : Nat) (r : Ring) :
    (s.setRing i r).erings = s.erings := rfl
@[simp] theorem State.setRing_mem (i : Nat) (r : Ring) :
    (s.setRing i r).mem = s.mem := rfl
@[simp] theorem State.setRing_mmio (i : Nat) (r : Ring) :
    (s.setRing i r).mmio = s.mmio := rfl
@[simp] theorem State.setRing_consumers (i : Nat) (r : Ring) :
    (s.setRing i r).consumers = s.consumers := rfl
@[simp] theorem State.setRing_producers (i : Nat) (r : Ring) :
    (s.setRing i r).producers = s.producers := rfl
@[simp] theorem State.setRing_agenda (i : Nat) (r : Ring) :
    (s.setRing i r).agenda = s.agenda := rfl
@[simp] theorem State.setRing_hostData (i : Nat) (r : Ring) :
    (s.setRing i r).hostData = s.hostData := rfl
@[simp] theorem State.setRing_draws (i : Nat) (r : Ring) :
    (s.setRing i r).draws = s.draws := rfl

@[simp] theorem State.setEventRing_cfg (j : Nat) (e : EventRing) :
    (s.setEventRing j e).cfg = s.cfg := rfl
@[simp] theorem State.setEventRing_port (j : Nat) (e : EventRing) :
    (s.setEventRing j e).port = s.port := rfl
@[simp] theorem State.setEventRing_cursor (j : Nat) (e : EventRing) :
    (s.setEventRing j e).cursor = s.cursor := rfl
@[simp] theorem State.setEventRing_rings (j : Nat) (e : EventRing) :
    (s.setEventRing j e).rings = s.rings := rfl
@[simp] theorem State.setEventRing_erings (j : Nat) (e : EventRing) :
    (s.setEventRing j e).erings = s.erings.set j e := rfl
@[simp] theorem State.setEventRing_mem (j : Nat) (e : EventRing) :
    (s.setEventRing j e).mem = s.mem := rfl
@[simp] theorem State.setEventRing_mmio (j : Nat) (e : EventRing) :
    (s.setEventRing j e).mmio = s.mmio := rfl
@[simp] theorem State.setEventRing_consumers (j : Nat) (e : EventRing) :
    (s.setEventRing j e).consumers = s.consumers := rfl
@[simp] theorem State.setEventRing_producers (j : Nat) (e : EventRing) :
    (s.setEventRing j e).producers = s.producers := rfl
@[simp] theorem State.setEventRing_agenda (j : Nat) (e : EventRing) :
    (s.setEventRing j e).agenda = s.agenda := rfl
@[simp] theorem State.setEventRing_hostData (j : Nat) (e : EventRing) :
    (s.setEventRing j e).hostData = s.hostData := rfl
@[simp] theorem State.setEventRing_draws (j : Nat) (e : EventRing) :
    (s.setEventRing j e).draws = s.draws := rfl

@[simp] theorem State.assertReset_cfg :
    (s.assertReset).cfg = s.cfg := rfl
@[simp] theorem State.assertReset_port :
    (s.assertReset).port = Port.reset := rfl
@[simp] theorem State.assertReset_cursor :
    (s.assertReset).cursor = s.cfg.poolBase := rfl
@[simp] theorem State.assertReset_rings :
    (s.assertReset).rings = s.rings.map fun _ => Ring.reset := rfl
@[simp] theorem State.assertReset_erings :
    (s.assertReset).erings = s.erings.map fun _ => EventRing.reset := rfl
@[simp] theorem State.assertReset_mem :
    (s.assertReset).mem = s.mem := rfl
@[simp] theorem State.assertReset_mmio :
    (s.assertReset).mmio = s.mmio := rfl
@[simp] theorem State.assertReset_consumers :
    (s.assertReset).consumers = s.consumers := rfl
@[simp] theorem State.assertReset_producers :
    (s.assertReset).producers = s.producers := rfl
@[simp] theorem State.assertReset_agenda :
    (s.assertReset).agenda = s.agenda := rfl
@[simp] theorem State.assertReset_hostData :
    (s.assertReset).hostData = s.hostData := rfl
@[simp] theorem State.assertReset_draws :
    (s.assertReset).draws = s.draws := rfl

@[simp] theorem State.erdpWrite_cfg (regs : Nat) (w : Word64) :
    (s.erdpWrite regs w).cfg = s.cfg := rfl
@[simp] theorem State.erdpWrite_port (regs : Nat) (w : Word64) :
    (s.erdpWrite regs w).port = s.port := rfl
@[simp] theorem State.erdpWrite_cursor (regs : Nat) (w : Word64) :
    (s.erdpWrite regs w).cursor = s.cursor := rfl
@[simp] theorem State.erdpWrite_rings (regs : Nat) (w : Word64) :
    (s.erdpWrite regs w).rings = s.rings := rfl
@[simp] theorem State.erdpWrite_erings (regs : Nat) (w : Word64) :
    (s.erdpWrite regs w).erings = s.erings := rfl
@[simp] theorem State.erdpWrite_mem (regs : Nat) (w : Word64) :
    (s.erdpWrite regs w).mem = s.mem := rfl
@[simp] theorem State.erdpWrite_mmio (regs : Nat) (w : Word64) :
    (s.erdpWrite regs w).mmio = s.mmio.write64 (regs + erdpOffset) (erdpAfter s.cfg.erdpWriteModel (s.erdp regs) w) := rfl
@[simp] theorem State.erdpWrite_consumers (regs : Nat) (w : Word64) :
    (s.erdpWrite regs w).consumers = s.consumers := rfl
@[simp] theorem State.erdpWrite_producers (regs : Nat) (w : Word64) :
    (s.erdpWrite regs w).producers = s.producers := rfl
@[simp] theorem State.erdpWrite_agenda (regs : Nat) (w : Word64) :
    (s.erdpWrite regs w).agenda = s.agenda := rfl
@[simp] theorem State.erdpWrite_hostData (regs : Nat) (w : Word64) :
    (s.erdpWrite regs w).hostData = s.hostData := rfl
@[simp] theorem State.erdpWrite_draws (regs : Nat) (w : Word64) :
    (s.erdpWrite regs w).draws = s.draws := rfl

@[simp] theorem State.erstbaWrite_cfg (regs : Nat) (w : Word64) :
    (s.erstbaWrite regs w).cfg = s.cfg := rfl
@[simp] theorem State.erstbaWrite_port (regs : Nat) (w : Word64) :
    (s.erstbaWrite regs w).port = s.port := rfl
@[simp] theorem State.erstbaWrite_cursor (regs : Nat) (w : Word64) :
    (s.erstbaWrite regs w).cursor = s.cursor := rfl
@[simp] theorem State.erstbaWrite_rings (regs : Nat) (w : Word64) :
    (s.erstbaWrite regs w).rings = s.rings := rfl
@[simp] theorem State.erstbaWrite_erings (regs : Nat) (w : Word64) :
    (s.erstbaWrite regs w).erings = s.erings := rfl
@[simp] theorem State.erstbaWrite_mem (regs : Nat) (w : Word64) :
    (s.erstbaWrite regs w).mem = s.mem := rfl
@[simp] theorem State.erstbaWrite_mmio (regs : Nat) (w : Word64) :
    (s.erstbaWrite regs w).mmio = s.mmio.write64 (regs + erstbaOffset) w := rfl
@[simp] theorem State.erstbaWrite_consumers (regs : Nat) (w : Word64) :
    (s.erstbaWrite regs w).consumers = s.consumers := rfl
@[simp] theorem State.erstbaWrite_producers (regs : Nat) (w : Word64) :
    (s.erstbaWrite regs w).producers = tablePut s.producers regs (segmentAt s.mem w) := rfl
@[simp] theorem State.erstbaWrite_agenda (regs : Nat) (w : Word64) :
    (s.erstbaWrite regs w).agenda = s.agenda := rfl
@[simp] theorem State.erstbaWrite_hostData (regs : Nat) (w : Word64) :
    (s.erstbaWrite regs w).hostData = s.hostData := rfl
@[simp] theorem State.erstbaWrite_draws (regs : Nat) (w : Word64) :
    (s.erstbaWrite regs w).draws = s.draws := rfl

/-! A command that wrote only `STATUS` and `RES`. -/

@[simp] theorem State.withResult_port (v : Word32) (r : Word64) :
    (s.withResult v r).port = { s.port with status := v, res := r } := rfl
@[simp] theorem State.withResult_cfg (v : Word32) (r : Word64) :
    (s.withResult v r).cfg = s.cfg := rfl
@[simp] theorem State.withResult_cursor (v : Word32) (r : Word64) :
    (s.withResult v r).cursor = s.cursor := rfl
@[simp] theorem State.withResult_rings (v : Word32) (r : Word64) :
    (s.withResult v r).rings = s.rings := rfl
@[simp] theorem State.withResult_erings (v : Word32) (r : Word64) :
    (s.withResult v r).erings = s.erings := rfl
@[simp] theorem State.withResult_mem (v : Word32) (r : Word64) :
    (s.withResult v r).mem = s.mem := rfl
@[simp] theorem State.withResult_mmio (v : Word32) (r : Word64) :
    (s.withResult v r).mmio = s.mmio := rfl
@[simp] theorem State.withResult_consumers (v : Word32) (r : Word64) :
    (s.withResult v r).consumers = s.consumers := rfl
@[simp] theorem State.withResult_producers (v : Word32) (r : Word64) :
    (s.withResult v r).producers = s.producers := rfl
@[simp] theorem State.withResult_agenda (v : Word32) (r : Word64) :
    (s.withResult v r).agenda = s.agenda := rfl
@[simp] theorem State.withResult_hostData (v : Word32) (r : Word64) :
    (s.withResult v r).hostData = s.hostData := rfl
@[simp] theorem State.withResult_draws (v : Word32) (r : Word64) :
    (s.withResult v r).draws = s.draws := rfl

/-! The machine at power-up. -/

@[simp] theorem State.powerUp_cfg (cfg : Config) :
    (State.powerUp cfg).cfg = cfg := rfl
@[simp] theorem State.powerUp_port (cfg : Config) :
    (State.powerUp cfg).port = Port.reset := rfl
@[simp] theorem State.powerUp_cursor (cfg : Config) :
    (State.powerUp cfg).cursor = cfg.poolBase := rfl
@[simp] theorem State.powerUp_rings (cfg : Config) :
    (State.powerUp cfg).rings = List.replicate cfg.numRings Ring.reset := rfl
@[simp] theorem State.powerUp_erings (cfg : Config) :
    (State.powerUp cfg).erings = List.replicate cfg.numERings EventRing.reset := rfl
@[simp] theorem State.powerUp_mem (cfg : Config) :
    (State.powerUp cfg).mem = [] := rfl
@[simp] theorem State.powerUp_mmio (cfg : Config) :
    (State.powerUp cfg).mmio = [] := rfl
@[simp] theorem State.powerUp_consumers (cfg : Config) :
    (State.powerUp cfg).consumers = List.replicate cfg.numRings none := rfl
@[simp] theorem State.powerUp_producers (cfg : Config) :
    (State.powerUp cfg).producers = [] := rfl
@[simp] theorem State.powerUp_agenda (cfg : Config) :
    (State.powerUp cfg).agenda = [] := rfl
@[simp] theorem State.powerUp_hostData (cfg : Config) :
    (State.powerUp cfg).hostData = 0 := rfl
@[simp] theorem State.powerUp_draws (cfg : Config) :
    (State.powerUp cfg).draws = 0 := rfl

/-! The command port. -/

@[simp] theorem Port.entry_w0 (p : Port) : p.entry.w0 = p.ent0 := rfl
@[simp] theorem Port.entry_w1 (p : Port) : p.entry.w1 = p.ent1 := rfl
@[simp] theorem Port.entry_w2 (p : Port) : p.entry.w2 = p.ent2 := rfl
@[simp] theorem Port.entry_w3 (p : Port) : p.entry.w3 = p.ent3 := rfl
@[simp] theorem Port.front_withFront (p : Port) (e : Entry) : (p.withFront e).front = e := rfl
@[simp] theorem Port.withFront_status (p : Port) (e : Entry) : (p.withFront e).status = p.status := rfl
@[simp] theorem Port.withFront_res (p : Port) (e : Entry) : (p.withFront e).res = p.res := rfl
@[simp] theorem Port.withFront_entry (p : Port) (e : Entry) : (p.withFront e).entry = p.entry := rfl

@[simp] theorem Port.entry_withEntry (p : Port) (e : Entry) : (p.withEntry e).entry = e := rfl
@[simp] theorem Port.withEntry_status (p : Port) (e : Entry) : (p.withEntry e).status = p.status := rfl
@[simp] theorem Port.withCmd_cmd (p : Port) (w : Word32) : (p.withCmd w).cmd = w := rfl
@[simp] theorem Port.withCmd_status (p : Port) (w : Word32) : (p.withCmd w).status = p.status := rfl

/-! The instances. -/

@[simp] theorem Ring.stamped_w0 (r : Ring) (e : Entry) : (r.stamped e).w0 = e.w0 := rfl
@[simp] theorem Ring.stamped_w1 (r : Ring) (e : Entry) : (r.stamped e).w1 = e.w1 := rfl
@[simp] theorem Ring.stamped_w2 (r : Ring) (e : Entry) : (r.stamped e).w2 = e.w2 := rfl
@[simp] theorem Ring.stamped_w3 (r : Ring) (e : Entry) : (r.stamped e).w3 = stamp e.w3 r.pcs := rfl

end Sys2Proof.Machine
end

