-- ==== Sys2Proof/Laws/Ops.lean ====
section
/-! SUPPORT. One lemma per shared operation that says once everything it can do; proofs about commands cite these
instead of unfolding the operations. -/

namespace Sys2Proof.Machine

/-! ### How a command ends -/

/-- `STATUS` after a command that starts with `FAULT` clear and raises no fault is the code alone (R21). -/
theorem statusAfter_live (old : Word32) (c : ResultCode) (h : old.getLsbD 31 = false) :
    statusAfter old c false = c.word := by
  have h0 : old &&& faultBit = 0 := by
    apply BitVec.eq_of_getLsbD_eq
    intro i hi
    by_cases h31 : i = 31
    · subst h31; rw [BitVec.getLsbD_and, h]; rfl
    · interval_cases i <;> simp_all [faultBit]
  simp [statusAfter, h0]

/-- `done` on a live block (R10). -/
theorem State.done_live (s : State) (v : Word64) (h : s.live) :
    s.done v = s.withResult 0 v := by
  rw [State.done, State.endWith, statusAfter_live _ _ h]; rfl

/-- `fail` on a live block (R214). -/
theorem State.fail_live (s : State) (c : ResultCode) (h : s.live) :
    s.fail c = s.withResult c.word 0 := by
  rw [State.fail, State.endWith, statusAfter_live _ _ h]; rfl

/-- `fault` sets `FAULT` and the code (R215). -/
theorem State.takeFault_eq (s : State) (c : ResultCode) :
    s.takeFault c = s.withResult (faultBit ||| c.word) 0 := rfl

/-- `STATUS` after each of the four faults (R210, R215). -/
theorem State.takeFault_withResult (s : State) :
    s.takeFault .notInitialized = s.withResult 0x80000003#32 0 ∧
      s.takeFault .alreadyInitialized = s.withResult 0x80000004#32 0 ∧
      s.takeFault .badIndex = s.withResult 0x80000005#32 0 ∧
      s.takeFault .illegalCommand = s.withResult 0x80000006#32 0 := by
  simp only [State.takeFault_eq]
  exact ⟨congrArg (s.withResult · 0) (by decide), congrArg (s.withResult · 0) (by decide),
    congrArg (s.withResult · 0) (by decide), congrArg (s.withResult · 0) (by decide)⟩

/-- The `FAULT` bit of a halted block is all that `STATUS` keeps (R217). -/
theorem status_and_faultBit (old : Word32) (h : old.getLsbD 31 = true) : old &&& faultBit = faultBit := by
  apply BitVec.eq_of_getLsbD_eq
  intro i hi
  by_cases h31 : i = 31
  · subst h31; rw [BitVec.getLsbD_and, h]; rfl
  · interval_cases i <;> simp_all [faultBit]

/-- `refuse HALTED` on a halted block (R217). -/
theorem State.refuseHalted_halted (s : State) (h : s.halted = true) :
    s.refuseHalted = s.withResult 0x80000007#32 0 := by
  rw [State.refuseHalted, State.endWith, statusAfter, if_neg (by decide), status_and_faultBit _ h]
  rfl

/-- A result that fits is `done`. -/
theorem State.doneNat_of_lt (s : State) (v : Nat) (h : v < addressSpace) :
    s.doneNat v = s.done (BitVec.ofNat 64 v) := by rw [State.doneNat, if_pos h]

/-- Everything `doneNat` can do: `done` of the value, or `done` of a free value. -/
theorem State.doneNat_cases (s : State) (v : Nat) :
    v < addressSpace ∧ s.doneNat v = s.done (BitVec.ofNat 64 v) ∨
      addressSpace ≤ v ∧
        s.doneNat v = State.done { s with draws := s.draws + 1 } (Config.freeWord s.draws) := by
  unfold State.doneNat
  split
  · exact .inl ⟨‹_›, rfl⟩
  · exact .inr ⟨Nat.le_of_not_lt ‹_›, rfl⟩

/-! ### The dispatcher -/

theorem State.unlessHalted_live (s : State) (o : Outcome) (h : s.live) : s.unlessHalted o = o := by
  simp [State.unlessHalted, h]

theorem State.unlessHalted_halted (s : State) (o : Outcome) (h : s.halted = true) :
    s.unlessHalted o = .next s.refuseHalted := by
  simp [State.unlessHalted, h]

/-- Everything the checks of a `RING` command can do, in their order (R216). -/
theorem State.onRing_cases (s : State) (i : Nat) (need : Lifecycle) (run : Ring → Outcome) :
    s.halted = true ∧ s.onRing i need run = .next s.refuseHalted ∨
    s.live ∧ s.rings.length ≤ i ∧ s.onRing i need run = .next (s.takeFault .badIndex) ∨
    (∃ r, s.live ∧ s.rings[i]? = some r ∧ r.state ≠ need ∧
      s.onRing i need run = .next (s.takeFault (wrongState need))) ∨
    ∃ r, s.live ∧ s.rings[i]? = some r ∧ r.state = need ∧ s.onRing i need run = run r := by
  unfold State.onRing State.unlessHalted
  cases hh : s.halted with
  | true => exact .inl ⟨rfl, rfl⟩
  | false =>
    cases hr : s.rings[i]? with
    | none => exact .inr (.inl ⟨hh, List.getElem?_eq_none_iff.mp hr, rfl⟩)
    | some r =>
      by_cases hs : r.state = need
      · exact .inr (.inr (.inr ⟨r, hh, rfl, hs, by simp [hs]⟩))
      · exact .inr (.inr (.inl ⟨r, hh, rfl, hs, by simp [hs]⟩))

theorem State.onRing_run (s : State) (i : Nat) (need : Lifecycle) (run : Ring → Outcome) (r : Ring)
    (h : s.live) (hr : s.rings[i]? = some r) (hs : r.state = need) : s.onRing i need run = run r := by
  simp [State.onRing, State.unlessHalted, h, hr, hs]

/-- Everything the checks of an `ER` command can do, in their order (R216). -/
theorem State.onEventRing_cases (s : State) (j : Nat) (need : Lifecycle) (run : EventRing → Outcome) :
    s.halted = true ∧ s.onEventRing j need run = .next s.refuseHalted ∨
    s.live ∧ s.erings.length ≤ j ∧ s.onEventRing j need run = .next (s.takeFault .badIndex) ∨
    (∃ e, s.live ∧ s.erings[j]? = some e ∧ e.state ≠ need ∧
      s.onEventRing j need run = .next (s.takeFault (wrongState need))) ∨
    ∃ e, s.live ∧ s.erings[j]? = some e ∧ e.state = need ∧ s.onEventRing j need run = run e := by
  unfold State.onEventRing State.unlessHalted
  cases hh : s.halted with
  | true => exact .inl ⟨rfl, rfl⟩
  | false =>
    cases hr : s.erings[j]? with
    | none => exact .inr (.inl ⟨hh, List.getElem?_eq_none_iff.mp hr, rfl⟩)
    | some e =>
      by_cases hs : e.state = need
      · exact .inr (.inr (.inr ⟨e, hh, rfl, hs, by simp [hs]⟩))
      · exact .inr (.inr (.inl ⟨e, hh, rfl, hs, by simp [hs]⟩))

theorem State.onEventRing_run (s : State) (j : Nat) (need : Lifecycle) (run : EventRing → Outcome)
    (e : EventRing) (h : s.live) (he : s.erings[j]? = some e) (hs : e.state = need) :
    s.onEventRing j need run = run e := by
  simp [State.onEventRing, State.unlessHalted, h, he, hs]

/-! ### The controller between events -/

/-- What no step of the controller changes: the block's own state and the model's own bookkeeping. -/
structure BlockSame (s t : State) : Prop where
  cfg : t.cfg = s.cfg
  port : t.port = s.port
  cursor : t.cursor = s.cursor
  rings : t.rings = s.rings
  erings : t.erings = s.erings
  hostData : t.hostData = s.hostData
  draws : t.draws = s.draws

theorem BlockSame.refl (s : State) : BlockSame s s := ⟨rfl, rfl, rfl, rfl, rfl, rfl, rfl⟩

theorem BlockSame.trans {s t u : State} (h : BlockSame s t) (k : BlockSame t u) : BlockSame s u :=
  ⟨k.cfg.trans h.cfg, k.port.trans h.port, k.cursor.trans h.cursor, k.rings.trans h.rings,
    k.erings.trans h.erings, k.hostData.trans h.hostData, k.draws.trans h.draws⟩

/-- A step of the controller leaves the block alone and the agenda as it is (R202). -/
theorem State.controllerStep_same (s : State) (a : ControllerAction) :
    BlockSame s (s.controllerStep a) ∧ (s.controllerStep a).agenda = s.agenda := by
  cases a with
  | tellRing i =>
    simp only [State.controllerStep, State.tellRing]
    split
    · exact ⟨.refl s, rfl⟩
    · split
      · exact ⟨⟨rfl, rfl, rfl, rfl, rfl, rfl, rfl⟩, rfl⟩
      · exact ⟨.refl s, rfl⟩
  | consume i =>
    simp only [State.controllerStep, State.consume]
    split
    · exact ⟨⟨rfl, rfl, rfl, rfl, rfl, rfl, rfl⟩, rfl⟩
    · exact ⟨.refl s, rfl⟩
    · exact ⟨.refl s, rfl⟩
  | writeWord regs k v =>
    simp only [State.controllerStep, State.writeWord]
    split
    · exact ⟨.refl s, rfl⟩
    · split
      · exact ⟨⟨rfl, rfl, rfl, rfl, rfl, rfl, rfl⟩, rfl⟩
      · exact ⟨.refl s, rfl⟩
  | produce regs e =>
    simp only [State.controllerStep, State.produce]
    split
    · exact ⟨.refl s, rfl⟩
    · split
      · exact ⟨⟨rfl, rfl, rfl, rfl, rfl, rfl, rfl⟩, rfl⟩
      · exact ⟨.refl s, rfl⟩
  | latch regs v =>
    simp only [State.controllerStep, State.latch]
    split
    · exact ⟨⟨rfl, rfl, rfl, rfl, rfl, rfl, rfl⟩, rfl⟩
    · exact ⟨.refl s, rfl⟩

/-- No step of the controller makes an address an interrupter's or stops it from being one. -/
theorem State.controllerStep_isInterrupter (s : State) (a : ControllerAction) (x : Nat) :
    (s.controllerStep a).isInterrupter x = s.isInterrupter x := by
  cases a with
  | tellRing i =>
    simp only [State.controllerStep, State.tellRing]
    split
    · rfl
    · split <;> rfl
  | consume i =>
    simp only [State.controllerStep, State.consume]
    split <;> rfl
  | writeWord regs k v =>
    simp only [State.controllerStep, State.writeWord]
    split
    · rfl
    · split <;> rfl
  | produce regs e =>
    simp only [State.controllerStep, State.produce]
    split
    · rfl
    · next p hp =>
      split
      · simp only [State.isInterrupter, tableGet_put]
        by_cases hx : regs = x
        · subst hx
          simp [hp]
        · rw [if_neg hx]
      · rfl
  | latch regs v =>
    simp only [State.controllerStep, State.latch]
    split <;> rfl

/-- No step of the controller changes how many Rings it can be told of. -/
theorem State.controllerStep_consumers_length (s : State) (a : ControllerAction) :
    (s.controllerStep a).consumers.length = s.consumers.length := by
  cases a with
  | tellRing i =>
    simp only [State.controllerStep, State.tellRing]
    split
    · rfl
    · split
      · exact List.length_set
      · rfl
  | consume i =>
    simp only [State.controllerStep, State.consume]
    split
    · exact List.length_set
    · rfl
    · rfl
  | writeWord regs k v =>
    simp only [State.controllerStep, State.writeWord]
    split
    · rfl
    · split <;> rfl
  | produce regs e =>
    simp only [State.controllerStep, State.produce]
    split
    · rfl
    · split <;> rfl
  | latch regs v =>
    simp only [State.controllerStep, State.latch]
    split <;> rfl

/-- A list of steps of the controller. -/
def State.controllerSteps (s : State) (as : List ControllerAction) : State :=
  as.foldl State.controllerStep s

theorem State.controllerSteps_same (s : State) (as : List ControllerAction) :
    BlockSame s (s.controllerSteps as) := by
  induction as generalizing s with
  | nil => exact .refl s
  | cons a as ih => exact (s.controllerStep_same a).1.trans (ih _)

/-- Everything that can happen between two events: some steps of the controller, and then either the block's
event comes, or a reset abandons the command (R70, R240). -/
theorem betweenEvents_cases (l : List Move) (s : State) :
    (∃ as rest, betweenEvents l s = .ok { s.controllerSteps as with agenda := rest } ∧
      ∃ pre, l = as.map Move.controller ++ pre ++ rest) ∨
    (∃ as rest, l = as.map Move.controller ++ Move.reset :: rest ∧
      betweenEvents l s = .error (.next { (s.controllerSteps as).assertReset with agenda := rest })) := by
  induction l generalizing s with
  | nil => exact .inl ⟨[], [], rfl, [], rfl⟩
  | cons m l ih =>
    cases m with
    | block => exact .inl ⟨[], l, rfl, [.block], rfl⟩
    | host a => exact .inl ⟨[], .host a :: l, rfl, [], rfl⟩
    | reset => exact .inr ⟨[], l, rfl, rfl⟩
    | controller a =>
      rcases ih (s.controllerStep a) with ⟨as, rest, h, pre, hp⟩ | ⟨as, rest, hl, h⟩
      · exact .inl ⟨a :: as, rest, h, pre, by simp [hp]⟩
      · exact .inr ⟨a :: as, rest, by simp [hl], h⟩

/-- Nobody interferes with an undisturbed event. -/
theorem State.nextEvent_undisturbed (s : State) (h : s.undisturbed) : s.nextEvent = .ok s := by
  unfold State.nextEvent
  rcases hs : s.agenda with _ | ⟨m, l⟩
  · simp only [betweenEvents]; rw [← hs]
  · rw [State.undisturbed, hs] at h
    cases m with
    | host a => simp only [betweenEvents]; rw [← hs]
    | block => simp [quiet] at h
    | controller a => simp [quiet] at h
    | reset => simp [quiet] at h

/-- The next event comes, with the block as it was. -/
theorem State.nextEvent_ok {s t : State} (h : s.nextEvent = .ok t) : BlockSame s t := by
  rcases betweenEvents_cases s.agenda s with ⟨as, rest, hb, -⟩ | ⟨as, rest, -, hb⟩
  · rw [State.nextEvent, hb] at h
    cases h
    obtain ⟨h1, h2, h3, h4, h5, h6, h7⟩ := s.controllerSteps_same as
    exact ⟨h1, h2, h3, h4, h5, h6, h7⟩
  · rw [State.nextEvent, hb] at h; cases h

/-- Without a reset in the agenda the next event comes, and there is still none. -/
theorem State.nextEvent_noReset (s : State) (h : noReset s.agenda) :
    ∃ t, s.nextEvent = .ok t ∧ noReset t.agenda := by
  rcases betweenEvents_cases s.agenda s with ⟨as, rest, hb, pre, hp⟩ | ⟨as, rest, hl, -⟩
  · refine ⟨_, hb, fun hm => h ?_⟩
    rw [hp]
    exact List.mem_append_right _ hm
  · exact absurd (by rw [hl]; simp) h

/-! ### Parts of a command -/

/-- A part that goes on: so did its first part, and so did the rest. -/
theorem Run.bind_ok {α β : Type} {x : Run α} {f : α → Run β} {b : β} (h : (x >>= f) = .ok b) :
    ∃ a, x = .ok a ∧ f a = .ok b := by
  cases x with
  | error o => cases h
  | ok a => exact ⟨a, rfl, h⟩

/-- A part that ends the step early: its first part did, or the rest. -/
theorem Run.bind_error {α β : Type} {x : Run α} {f : α → Run β} {o : Outcome} (h : (x >>= f) = .error o) :
    x = .error o ∨ ∃ a, x = .ok a ∧ f a = .error o := by
  cases x with
  | error o' => cases h; exact .inl rfl
  | ok a => exact .inr ⟨a, rfl, h⟩

/-- What a step that ends early inside a command can answer: the block was reset after some steps of the
controller (R240), or an access had no address. -/
def EndsEarly (s : State) (o : Outcome) : Prop :=
  o = .fault .busAddress ∨ ∃ u v rest, BlockSame s u ∧ v = { u.assertReset with agenda := rest } ∧ o = .next v

theorem EndsEarly.after {s t : State} {o : Outcome} (h : BlockSame s t) (k : EndsEarly t o) : EndsEarly s o := by
  rcases k with k | ⟨u, v, rest, hu, hv, ho⟩
  · exact .inl k
  · exact .inr ⟨u, v, rest, h.trans hu, hv, ho⟩

/-- An event that does not come: the block has been reset. -/
theorem State.nextEvent_error {s : State} {o : Outcome} (h : s.nextEvent = .error o) : EndsEarly s o := by
  rcases betweenEvents_cases s.agenda s with ⟨as, rest, hb, -⟩ | ⟨as, rest, -, hb⟩
  · rw [State.nextEvent, hb] at h; cases h
  · rw [State.nextEvent, hb] at h
    cases h
    exact .inr ⟨_, _, rest, s.controllerSteps_same as, rfl, rfl⟩

/-- The shape of every event: the controller acts, then the event has its effect if it has an address. -/
theorem event_cases {α : Type} {s : State} {c : State → Bool} {f : State → α} :
    (∃ u, s.nextEvent = .ok u ∧
      (s.nextEvent >>= fun u => if c u then .ok (f u) else .error (.fault .busAddress)) = .ok (f u)) ∨
    ∃ o, (s.nextEvent >>= fun u => if c u then .ok (f u) else .error (.fault .busAddress)) = .error o ∧
      EndsEarly s o := by
  cases hn : s.nextEvent with
  | error o => exact .inr ⟨o, rfl, s.nextEvent_error hn⟩
  | ok u =>
    cases hc : c u with
    | true => exact .inl ⟨u, rfl, by simp [bind, Except.bind, hc]⟩
    | false => exact .inr ⟨_, by simp [bind, Except.bind, hc], .inl rfl⟩

/-! ### Events -/

theorem inAddressSpace_iff (a n : Nat) : inAddressSpace a n = true ↔ a + n ≤ addressSpace := by
  simp [inAddressSpace]

/-- Everything a 4-byte memory write that goes on has done. -/
theorem State.memWrite32_ok {s t : State} {a : Nat} {v : Word32} (h : s.memWrite32 a v = .ok t) :
    ∃ u, s.nextEvent = .ok u ∧ a + 4 ≤ addressSpace ∧ t = { u with mem := u.mem.write32 a v } := by
  unfold State.memWrite32 at h
  cases hn : s.nextEvent with
  | error o => rw [hn] at h; cases h
  | ok u =>
    rw [hn] at h
    simp only [bind, Except.bind] at h
    split at h
    · exact ⟨u, rfl, (inAddressSpace_iff _ _).mp ‹_›, (Except.ok.inj h).symm⟩
    · cases h

theorem State.memWrite32_undisturbed (s : State) (a : Nat) (v : Word32) (h : s.undisturbed)
    (ha : a + 4 ≤ addressSpace) : s.memWrite32 a v = .ok { s with mem := s.mem.write32 a v } := by
  simp [State.memWrite32, s.nextEvent_undisturbed h, bind, Except.bind, (inAddressSpace_iff a 4).mpr ha]

theorem State.memWrite64_undisturbed (s : State) (a : Nat) (v : Word64) (h : s.undisturbed)
    (ha : a + 8 ≤ addressSpace) : s.memWrite64 a v = .ok { s with mem := s.mem.write64 a v } := by
  simp [State.memWrite64, s.nextEvent_undisturbed h, bind, Except.bind, (inAddressSpace_iff a 8).mpr ha]

theorem State.memRead32_undisturbed (s : State) (a : Nat) (h : s.undisturbed)
    (ha : a + 4 ≤ addressSpace) : s.memRead32 a = .ok (s.mem.read32 a, s) := by
  simp [State.memRead32, s.nextEvent_undisturbed h, bind, Except.bind, (inAddressSpace_iff a 4).mpr ha]

theorem State.erstszEvent_undisturbed (s : State) (regs : Nat) (v : Word32) (h : s.undisturbed)
    (ha : regs + interrupterBytes ≤ addressSpace) :
    s.erstszEvent regs v = .ok { s with mmio := s.mmio.write32 (regs + erstszOffset) v } := by
  have : regs + erstszOffset + 4 ≤ addressSpace := by simp only [erstszOffset, interrupterBytes] at *; omega
  simp [State.erstszEvent, s.nextEvent_undisturbed h, bind, Except.bind, inAddressSpace, this]

theorem State.erstbaEvent_undisturbed (s : State) (regs : Nat) (v : Word64) (h : s.undisturbed)
    (ha : regs + interrupterBytes ≤ addressSpace) : s.erstbaEvent regs v = .ok (s.erstbaWrite regs v) := by
  have : regs + erstbaOffset + 8 ≤ addressSpace := by simp only [erstbaOffset, interrupterBytes] at *; omega
  simp [State.erstbaEvent, s.nextEvent_undisturbed h, bind, Except.bind, inAddressSpace, this]

theorem State.erdpReadEvent_undisturbed (s : State) (regs : Nat) (h : s.undisturbed)
    (ha : regs + interrupterBytes ≤ addressSpace) : s.erdpReadEvent regs = .ok (s.erdp regs, s) := by
  have : regs + erdpOffset + 8 ≤ addressSpace := by simp only [erdpOffset, interrupterBytes] at *; omega
  simp [State.erdpReadEvent, s.nextEvent_undisturbed h, bind, Except.bind, inAddressSpace, this]

theorem State.erdpWriteEvent_undisturbed (s : State) (regs : Nat) (v : Word64) (h : s.undisturbed)
    (ha : regs + interrupterBytes ≤ addressSpace) : s.erdpWriteEvent regs v = .ok (s.erdpWrite regs v) := by
  have : regs + erdpOffset + 8 ≤ addressSpace := by simp only [erdpOffset, interrupterBytes] at *; omega
  simp [State.erdpWriteEvent, s.nextEvent_undisturbed h, bind, Except.bind, inAddressSpace, this]

/-- The four word writes of an undisturbed entry write are one entry write. -/
theorem State.entryEvents_undisturbed (s : State) (a : Nat) (e : Entry) (h : s.undisturbed)
    (ha : a + 16 ≤ addressSpace) : s.entryEvents a e = .ok { s with mem := s.mem.writeEntry a e } := by
  have h1 : a + 4 ≤ addressSpace := by omega
  have h2 : a + 4 + 4 ≤ addressSpace := by omega
  have h3 : a + 8 + 4 ≤ addressSpace := by omega
  have h4 : a + 12 + 4 ≤ addressSpace := by omega
  have hw : ∀ (m : Memory) (b : Nat) (v : Word32), b + 4 ≤ addressSpace →
      State.memWrite32 { s with mem := m } b v = .ok { s with mem := m.write32 b v } :=
    fun m b v hb => State.memWrite32_undisturbed { s with mem := m } b v h hb
  unfold State.entryEvents
  rw [s.memWrite32_undisturbed a _ h h1]
  simp only [bind, Except.bind, hw _ _ _ h2, hw _ _ _ h3, hw _ _ _ h4]
  rfl

/-- Everything a memory write can do: the block is as before, or the step ends early. -/
theorem State.memWrite32_cases (s : State) (a : Nat) (v : Word32) :
    (∃ t, s.memWrite32 a v = .ok t ∧ BlockSame s t) ∨ ∃ o, s.memWrite32 a v = .error o ∧ EndsEarly s o := by
  rcases event_cases (s := s) (c := fun _ => inAddressSpace a 4)
    (f := fun u => { u with mem := u.mem.write32 a v }) with ⟨u, hu, h⟩ | h
  · obtain ⟨h1, h2, h3, h4, h5, h6, h7⟩ := State.nextEvent_ok hu
    exact .inl ⟨_, h, h1, h2, h3, h4, h5, h6, h7⟩
  · exact .inr h

theorem State.memWrite64_cases (s : State) (a : Nat) (v : Word64) :
    (∃ t, s.memWrite64 a v = .ok t ∧ BlockSame s t) ∨ ∃ o, s.memWrite64 a v = .error o ∧ EndsEarly s o := by
  rcases event_cases (s := s) (c := fun _ => inAddressSpace a 8)
    (f := fun u => { u with mem := u.mem.write64 a v }) with ⟨u, hu, h⟩ | h
  · obtain ⟨h1, h2, h3, h4, h5, h6, h7⟩ := State.nextEvent_ok hu
    exact .inl ⟨_, h, h1, h2, h3, h4, h5, h6, h7⟩
  · exact .inr h

theorem State.memRead32_cases (s : State) (a : Nat) :
    (∃ t, s.memRead32 a = .ok (t.mem.read32 a, t) ∧ BlockSame s t) ∨
      ∃ o, s.memRead32 a = .error o ∧ EndsEarly s o := by
  rcases event_cases (s := s) (c := fun _ => inAddressSpace a 4) (f := fun u => (u.mem.read32 a, u)) with
    ⟨u, hu, h⟩ | h
  · exact .inl ⟨u, h, State.nextEvent_ok hu⟩
  · exact .inr h

theorem State.erstszEvent_cases (s : State) (regs : Nat) (v : Word32) :
    (∃ t, s.erstszEvent regs v = .ok t ∧ BlockSame s t) ∨ ∃ o, s.erstszEvent regs v = .error o ∧ EndsEarly s o := by
  rcases event_cases (s := s) (c := fun _ => inAddressSpace (regs + erstszOffset) 4)
    (f := fun u => { u with mmio := u.mmio.write32 (regs + erstszOffset) v }) with ⟨u, hu, h⟩ | h
  · obtain ⟨h1, h2, h3, h4, h5, h6, h7⟩ := State.nextEvent_ok hu
    exact .inl ⟨_, h, h1, h2, h3, h4, h5, h6, h7⟩
  · exact .inr h

theorem State.erstbaEvent_cases (s : State) (regs : Nat) (v : Word64) :
    (∃ t, s.erstbaEvent regs v = .ok t ∧ BlockSame s t) ∨ ∃ o, s.erstbaEvent regs v = .error o ∧ EndsEarly s o := by
  rcases event_cases (s := s) (c := fun _ => inAddressSpace (regs + erstbaOffset) 8)
    (f := fun u => u.erstbaWrite regs v) with ⟨u, hu, h⟩ | h
  · obtain ⟨h1, h2, h3, h4, h5, h6, h7⟩ := State.nextEvent_ok hu
    exact .inl ⟨_, h, h1, h2, h3, h4, h5, h6, h7⟩
  · exact .inr h

theorem State.erdpReadEvent_cases (s : State) (regs : Nat) :
    (∃ t, s.erdpReadEvent regs = .ok (t.erdp regs, t) ∧ BlockSame s t) ∨
      ∃ o, s.erdpReadEvent regs = .error o ∧ EndsEarly s o := by
  rcases event_cases (s := s) (c := fun _ => inAddressSpace (regs + erdpOffset) 8)
    (f := fun u => (u.erdp regs, u)) with ⟨u, hu, h⟩ | h
  · exact .inl ⟨u, h, State.nextEvent_ok hu⟩
  · exact .inr h

theorem State.erdpWriteEvent_cases (s : State) (regs : Nat) (v : Word64) :
    (∃ t, s.erdpWriteEvent regs v = .ok t ∧ BlockSame s t) ∨
      ∃ o, s.erdpWriteEvent regs v = .error o ∧ EndsEarly s o := by
  rcases event_cases (s := s) (c := fun _ => inAddressSpace (regs + erdpOffset) 8)
    (f := fun u => u.erdpWrite regs v) with ⟨u, hu, h⟩ | h
  · obtain ⟨h1, h2, h3, h4, h5, h6, h7⟩ := State.nextEvent_ok hu
    exact .inl ⟨_, h, h1, h2, h3, h4, h5, h6, h7⟩
  · exact .inr h

/-- Two parts in a row, each of which leaves the block as it was or ends the step early, do the same. -/
theorem Run.bind_cases {s : State} {x : Run State} {f : State → Run State}
    (hx : (∃ t, x = .ok t ∧ BlockSame s t) ∨ ∃ o, x = .error o ∧ EndsEarly s o)
    (hf : ∀ t, (∃ u, f t = .ok u ∧ BlockSame t u) ∨ ∃ o, f t = .error o ∧ EndsEarly t o) :
    (∃ u, (x >>= f) = .ok u ∧ BlockSame s u) ∨ ∃ o, (x >>= f) = .error o ∧ EndsEarly s o := by
  rcases hx with ⟨t, rfl, ht⟩ | ⟨o, rfl, ho⟩
  · rcases hf t with ⟨u, hu, k⟩ | ⟨o, ho, k⟩
    · exact .inl ⟨u, hu, ht.trans k⟩
    · exact .inr ⟨o, ho, k.after ht⟩
  · exact .inr ⟨o, rfl, ho⟩

/-- Everything the four writes of an entry can do. -/
theorem State.entryEvents_cases (s : State) (a : Nat) (e : Entry) :
    (∃ t, s.entryEvents a e = .ok t ∧ BlockSame s t) ∨ ∃ o, s.entryEvents a e = .error o ∧ EndsEarly s o :=
  Run.bind_cases (s.memWrite32_cases _ _) fun t =>
    Run.bind_cases (t.memWrite32_cases _ _) fun t =>
      Run.bind_cases (t.memWrite32_cases _ _) fun t => t.memWrite32_cases _ _

/-- Everything a zero-fill can do. -/
theorem zeroFill_cases (n a : Nat) (s : State) :
    (∃ t, zeroFill n a s = .ok t ∧ BlockSame s t) ∨ ∃ o, zeroFill n a s = .error o ∧ EndsEarly s o := by
  induction n generalizing a s with
  | zero => exact .inl ⟨s, rfl, .refl s⟩
  | succ n ih => exact Run.bind_cases (s.entryEvents_cases _ _) fun t => ih _ t

/-- Memory after a zero-fill of `n` slots from `a` upward. -/
def Memory.zeroed (m : Memory) : Nat → Nat → Memory
  | _, 0 => m
  | a, n + 1 => Memory.zeroed (m.writeEntry a zeroEntry) (a + 16) n

theorem zeroFill_undisturbed (n a : Nat) (s : State) (h : s.undisturbed)
    (ha : a + 16 * n ≤ addressSpace) : zeroFill n a s = .ok { s with mem := s.mem.zeroed a n } := by
  induction n generalizing a s with
  | zero => rfl
  | succ n ih =>
    have hs := s.entryEvents_undisturbed a zeroEntry h (by omega)
    have hn := ih (a + 16) { s with mem := s.mem.writeEntry a zeroEntry } h (by omega)
    simp only [zeroFill, hs, bind, Except.bind, entryBytes, hn, Memory.zeroed]

/-- Every byte after a zero entry is written. -/
theorem Memory.peek_writeEntry_zero (m : Memory) (a x : Nat) :
    (m.writeEntry a zeroEntry).peek x = if a ≤ x ∧ x < a + 16 then 0 else m.peek x := by
  have hw : ∀ (m : Memory) (b : Nat), (m.write32 b 0).peek x = if b ≤ x ∧ x < b + 4 then 0 else m.peek x := by
    intro m b
    rw [Memory.write32, Memory.peek_write]; simp
  by_cases h : a ≤ x ∧ x < a + 16
  · rw [if_pos h, Memory.writeEntry, zeroEntry]
    simp only [hw]
    split
    · rfl
    · split
      · rfl
      · split
        · rfl
        · exact if_pos (by omega)
  · rw [if_neg h, Memory.peek_writeEntry_outside _ _ _ _ (by omega)]

/-- Every byte after a zero-fill. -/
theorem Memory.peek_zeroed (m : Memory) (a n x : Nat) :
    (m.zeroed a n).peek x = if a ≤ x ∧ x < a + 16 * n then 0 else m.peek x := by
  induction n generalizing m a with
  | zero => rw [if_neg (by omega)]; rfl
  | succ n ih =>
    rw [Memory.zeroed, ih, Memory.peek_writeEntry_zero]
    by_cases h1 : a + 16 ≤ x ∧ x < a + 16 + 16 * n
    · rw [if_pos h1, if_pos (by omega)]
    · rw [if_neg h1]
      by_cases h2 : a ≤ x ∧ x < a + 16
      · rw [if_pos h2, if_pos (by omega)]
      · rw [if_neg h2, if_neg (by omega)]

/-! ### The allocator -/

/-- `align_up` does not go below its argument (R126). -/
theorem le_alignUp (x a : Nat) : x ≤ alignUp x a := by
  unfold alignUp
  split
  · exact le_refl x
  · have h1 := Nat.div_add_mod (x + (a - 1)) a
    have h2 := Nat.mod_lt (x + (a - 1)) (show 0 < a by omega)
    rw [Nat.mul_comm]
    omega

theorem le_regionStart (cursor size alignment boundary : Nat) :
    cursor ≤ regionStart cursor size alignment boundary := by
  unfold regionStart
  simp only
  split
  · exact (le_alignUp _ _).trans (le_alignUp _ _)
  · exact le_alignUp _ _

theorem alignUp_mono {x y : Nat} (a : Nat) (h : x ≤ y) : alignUp x a ≤ alignUp y a := by
  unfold alignUp
  split
  · exact h
  · exact Nat.mul_le_mul_right _ (Nat.div_le_div_right (by omega))

/-- A region that moves to a boundary multiple above `y` also moves there from `y` (R9). -/
theorem crosses_of_le {x y n b : Nat} (hx : crosses x n b = true) (hxy : x ≤ y) (hy : y < alignUp x b) :
    crosses y n b = true := by
  simp only [crosses] at hx ⊢
  by_cases hb : b = 0 ∨ n = 0
  · simp [hb] at hx
  have hb0 : 0 < b := by omega
  rw [if_neg hb] at hx ⊢
  rw [alignUp, if_neg (by omega)] at hy
  have hyq : y / b < (x + (b - 1)) / b := by rwa [Nat.div_lt_iff_lt_mul hb0]
  have hxq : x / b < (x + n - 1) / b :=
    lt_of_le_of_ne (Nat.div_le_div_right (by omega)) (by simpa using hx)
  have hnext : (x + (b - 1)) / b ≤ x / b + 1 := by
    rw [← Nat.add_div_right _ hb0]
    exact Nat.div_le_div_right (by omega)
  have hmono : (x + n - 1) / b ≤ (y + n - 1) / b := Nat.div_le_div_right (by omega)
  have hne : y / b ≠ (y + n - 1) / b := by omega
  simpa using hne

/-- The place a request is tried at moves up with the cursor (R121). -/
theorem regionStart_mono {c d : Nat} (size alignment boundary : Nat) (h : c ≤ d) :
    regionStart c size alignment boundary ≤ regionStart d size alignment boundary := by
  have h0 := alignUp_mono alignment h
  unfold regionStart
  simp only
  by_cases hx : crosses (alignUp c alignment) size boundary = true
  · rw [if_pos hx]
    by_cases hy : alignUp (alignUp c alignment) boundary ≤ alignUp d alignment
    · split
      · exact hy.trans (le_alignUp _ _)
      · exact hy
    · rw [if_pos (crosses_of_le hx h0 (Nat.lt_of_not_le hy))]
      exact alignUp_mono boundary h0
  · rw [if_neg hx]
    split
    · exact h0.trans (le_alignUp _ _)
    · exact h0

/-- Everything an allocation can do (R121): it fails, and nothing changes; or the region lies between the
cursor and the end of the arena, and the cursor moves behind it. -/
theorem State.allocate_cases (s : State) (size alignment boundary : Nat) :
    s.allocate size alignment boundary = none ∨
      ∃ a, s.allocate size alignment boundary = some (a, { s with cursor := a + size }) ∧
        a = regionStart s.cursor size alignment boundary ∧ (0 < alignment → a % alignment = 0) ∧
        s.cursor ≤ a ∧ a + size ≤ s.cfg.poolEnd := by
  unfold State.allocate placeRegion
  simp only
  by_cases h1 : alignment > 0 ∧ regionStart s.cursor size alignment boundary % alignment ≠ 0
  · rw [if_pos h1]; exact .inl rfl
  · rw [if_neg h1]
    by_cases h2 : regionStart s.cursor size alignment boundary + size > s.cfg.poolEnd
    · rw [if_pos h2]; exact .inl rfl
    · rw [if_neg h2]
      refine .inr ⟨_, rfl, rfl, fun h => ?_, le_regionStart _ _ _ _, Nat.le_of_not_lt h2⟩
      by_contra hc
      exact h1 ⟨h, hc⟩

/-! ### The platform -/

theorem rangesDisjoint_comm (a b : Nat × Nat) : rangesDisjoint a b = rangesDisjoint b a :=
  Bool.or_comm _ _

/-- What a platform the spec allows is, part by part (R7, R66, R68). -/
theorem wellFormed_iff (c : Config) :
    c.wellFormed = true ↔ c.arenaFits = true ∧ c.countsInRange = true ∧ c.mapFits = true ∧
      c.interruptersAligned = true ∧ c.mapDisjoint = true := by
  simp [Config.wellFormed, and_assoc]

/-! ### Register values -/

/-- The pointer and the status bits of a merged value (R103). -/
theorem and_mask_or (x y : Word64) :
    ((x &&& erdpPtrMask) ||| (y &&& erdpStatusMask)) &&& erdpPtrMask = x &&& erdpPtrMask := by
  apply BitVec.eq_of_getLsbD_eq
  intro i hi
  interval_cases i <;> simp [erdpPtrMask, erdpStatusMask]

end Sys2Proof.Machine
end

