-- ==== Sys2Proof/Laws/PerInstr.lean ====
section
/-! SUPPORT. Statements about every command as syntax, one lemma per constructor: the three fields of the word
`encode` writes (R90). -/

namespace Sys2Proof.Laws

/-- The word of a well-formed command has the command's operation code in `op`, its instance number in `idx`,
and 0 in `rsv` (R90, R91). -/
def EncodeFields.Statement (i : Instr) : Prop :=
  i.wellFormed = true →
    opField (encode i) = i.opcode.setWidth 8 ∧ (idxField (encode i)).toNat = i.idx ∧ rsvField (encode i) = 0

/-- The fields of any word made of an 8-bit operation code and an instance number below 256. -/
theorem fields_of_word (op k : Nat) (ho : op < 256) (hk : k < 256) :
    opField (BitVec.ofNat 32 op ||| (BitVec.ofNat 32 k <<< 8)) = (BitVec.ofNat 32 op).setWidth 8 ∧
      (idxField (BitVec.ofNat 32 op ||| (BitVec.ofNat 32 k <<< 8))).toNat = k ∧
      rsvField (BitVec.ofNat 32 op ||| (BitVec.ofNat 32 k <<< 8)) = 0 := by
  have hval : (BitVec.ofNat 32 op ||| (BitVec.ofNat 32 k <<< 8)).toNat = k * 2 ^ 8 + op := by
    rw [BitVec.toNat_or, BitVec.toNat_shiftLeft, BitVec.toNat_ofNat, BitVec.toNat_ofNat, Nat.or_comm,
      Nat.mod_eq_of_lt (show op < 2 ^ 32 by omega), Nat.mod_eq_of_lt (show k < 2 ^ 32 by omega),
      Nat.shiftLeft_eq, Nat.mod_eq_of_lt (show k * 2 ^ 8 < 2 ^ 32 by omega), Nat.mul_comm k,
      ← Nat.two_pow_add_eq_or_of_lt ho]
  refine ⟨?_, ?_, ?_⟩
  · apply BitVec.eq_of_toNat_eq
    simp only [opField, BitVec.extractLsb'_toNat, hval, BitVec.toNat_setWidth, BitVec.toNat_ofNat,
      Nat.shiftRight_zero]
    omega
  · simp only [idxField, BitVec.extractLsb'_toNat, hval, Nat.shiftRight_eq_div_pow]
    omega
  · apply BitVec.eq_of_toNat_eq
    simp only [rsvField, BitVec.extractLsb'_toNat, hval, Nat.shiftRight_eq_div_pow, BitVec.ofNat_eq_ofNat,
      BitVec.toNat_ofNat]
    omega

theorem EncodeFields.poolAlloc : EncodeFields.Statement .poolAlloc :=
  fun _ => fields_of_word 0x01 0 (by decide) (by decide)
theorem EncodeFields.poolAllocArr : EncodeFields.Statement .poolAllocArr :=
  fun _ => fields_of_word 0x02 0 (by decide) (by decide)
theorem EncodeFields.poolFree : EncodeFields.Statement .poolFree :=
  fun _ => fields_of_word 0x03 0 (by decide) (by decide)
theorem EncodeFields.ringInit (idx : Nat) : EncodeFields.Statement (.ringInit idx) :=
  fun h => fields_of_word 0x10 idx (by decide) (of_decide_eq_true h)
theorem EncodeFields.ringPush (idx : Nat) : EncodeFields.Statement (.ringPush idx) :=
  fun h => fields_of_word 0x11 idx (by decide) (of_decide_eq_true h)
theorem EncodeFields.ringBuf (idx : Nat) : EncodeFields.Statement (.ringBuf idx) :=
  fun h => fields_of_word 0x12 idx (by decide) (of_decide_eq_true h)
theorem EncodeFields.erInit (idx : Nat) : EncodeFields.Statement (.erInit idx) :=
  fun h => fields_of_word 0x20 idx (by decide) (of_decide_eq_true h)
theorem EncodeFields.erHasFront (idx : Nat) : EncodeFields.Statement (.erHasFront idx) :=
  fun h => fields_of_word 0x21 idx (by decide) (of_decide_eq_true h)
theorem EncodeFields.erFront (idx : Nat) : EncodeFields.Statement (.erFront idx) :=
  fun h => fields_of_word 0x22 idx (by decide) (of_decide_eq_true h)
theorem EncodeFields.erPop (idx : Nat) : EncodeFields.Statement (.erPop idx) :=
  fun h => fields_of_word 0x23 idx (by decide) (of_decide_eq_true h)
theorem EncodeFields.epidMake : EncodeFields.Statement .epidMake :=
  fun _ => fields_of_word 0x30 0 (by decide) (by decide)
theorem EncodeFields.epidAddr : EncodeFields.Statement .epidAddr :=
  fun _ => fields_of_word 0x31 0 (by decide) (by decide)
theorem EncodeFields.epidNum : EncodeFields.Statement .epidNum :=
  fun _ => fields_of_word 0x32 0 (by decide) (by decide)
theorem EncodeFields.epidIsIn : EncodeFields.Statement .epidIsIn :=
  fun _ => fields_of_word 0x33 0 (by decide) (by decide)
theorem EncodeFields.epcfgMake : EncodeFields.Statement .epcfgMake :=
  fun _ => fields_of_word 0x38 0 (by decide) (by decide)
theorem EncodeFields.epcfgEpid : EncodeFields.Statement .epcfgEpid :=
  fun _ => fields_of_word 0x39 0 (by decide) (by decide)
theorem EncodeFields.epcfgType : EncodeFields.Statement .epcfgType :=
  fun _ => fields_of_word 0x3A 0 (by decide) (by decide)
theorem EncodeFields.epcfgMps : EncodeFields.Statement .epcfgMps :=
  fun _ => fields_of_word 0x3B 0 (by decide) (by decide)
theorem EncodeFields.epcfgIval : EncodeFields.Statement .epcfgIval :=
  fun _ => fields_of_word 0x3C 0 (by decide) (by decide)

end Sys2Proof.Laws
end

