-- ==== Sys2Proof/Machine/Assembler.lean ====
section
/-! DEFINITION. The assembler notation (R107, R108): what the host does for one line. -/

namespace Sys2Proof.Machine

/-- A line of the notation. -/
inductive Line where
  /-- A command and its scalar operands, in the order `ARG0, ARG1, ARG2, ARG3`. -/
  | command (i : Instr) (operands : List Word64)
  /-- `RING.PUSH@i entry`: its operand is the entry written. -/
  | push (i : Nat) (e : Entry)
  /-- `EPID.OF number, dir` followed by an accessor (R108). -/
  | endpointOf (number dir : Word64) (accessor : Instr)
  /-- `HOST.WR32 addr, v` (R108). -/
  | hostWr32 (addr : Word64) (v : Word32)
  /-- `HOST.RD32 addr` (R108). -/
  | hostRd32 (addr : Word64)
  deriving DecidableEq, Repr

/-- How many `ARG` registers a command reads (R92). -/
def Instr.argCount : Instr → Nat
  | .poolAlloc => 3
  | .poolAllocArr => 4
  | .poolFree => 1
  | .ringInit _ => 1
  | .ringPush _ => 0
  | .ringBuf _ => 0
  | .erInit _ => 2
  | .erHasFront _ => 0
  | .erFront _ => 0
  | .erPop _ => 0
  | .epidMake => 2
  | .epidAddr => 1
  | .epidNum => 1
  | .epidIsIn => 1
  | .epcfgMake => 4
  | .epcfgEpid => 1
  | .epcfgType => 1
  | .epcfgMps => 1
  | .epcfgIval => 1

/-- Writes of the operand registers from the one at `off` on. -/
def argWrites : Nat → List Word64 → List HostAction
  | _, [] => []
  | off, v :: vs => .portWrite off 8 v :: argWrites (off + 8) vs

/-- The write of a command's word to `CMD` (R20, R107). -/
def commandWrite (i : Instr) : HostAction := .portWrite 0 4 ((encode i).setWidth 64)

/-- The host actions a line stands for (R107, R108): the operand registers the command reads, then `CMD`. -/
def Line.actions : Line → List HostAction
  | .command i operands => argWrites 0x10 (operands.take (Instr.argCount i)) ++ [commandWrite i]
  | .push i e =>
    [.portWrite 0x30 4 (e.w0.setWidth 64), .portWrite 0x34 4 (e.w1.setWidth 64),
      .portWrite 0x38 4 (e.w2.setWidth 64), .portWrite 0x3C 4 (e.w3.setWidth 64),
      commandWrite (.ringPush i)]
  | .endpointOf number dir accessor =>
    argWrites 0x10 [number, dir] ++
      [commandWrite .epidMake, .portRead 0x08 8, .portForward 0x10 8, commandWrite accessor]
  | .hostWr32 addr v => [.memWrite32 addr v]
  | .hostRd32 addr => [.memRead32 addr]

/-- The agenda of lines carried out one after the other, with nobody else acting. -/
def assemble (lines : List Line) : List Move := lines.flatMap fun l => l.actions.map .host

end Sys2Proof.Machine
end

