-- ==== Sys2Proof/Tests/Slice0.lean ====
section
/-! SUPPORT. The model's own tests: ill-formed terms that the checks refuse, command words written out bit by bit, the
vectors of 95_test_vectors.md (each test names the row it takes its expected values from), and, for every
statement with hypotheses, a state and operands that meet them all. -/

namespace Sys2Proof.Tests

open Sys2Proof.Machine

/-! ### Helpers -/

/-- The next state, where there is one. -/
def nextOf (o : Outcome) : Option State :=
  match o with
  | .next t => some t
  | .fault _ => none
  | .refused _ => none

/-- What a command leaves of `STATUS`, `RES` and the pool cursor. -/
def shown (i : Instr) (s : State) : Option (Word32 × Word64 × Nat) :=
  (nextOf (exec i s)).map fun t => (t.port.status, t.port.res, t.cursor)

/-- The reset state with a pool cursor and operands. -/
def withArgs (cursor : Nat) (a b c d : Word64) : State :=
  { State.reset with cursor := cursor, port := { Port.reset with arg0 := a, arg1 := b, arg2 := c, arg3 := d } }

/-- The Ring of vector W1, at a write cursor and with a producer cycle bit. -/
def ring (w : Word64) (c : Bool) : Ring :=
  { state := .ready, base := 0x100040, cap := 4, widx := w, pcs := c }

/-- A Ring of two slots (vector W5). -/
def ringOfTwo (c : Bool) : Ring := { state := .ready, base := 0x100000, cap := 2, widx := 0, pcs := c }

/-- The EventRing of vector E1. -/
def eventRing (c : Bool) : EventRing :=
  { state := .ready, base := 0x100080, cap := 4, erst := 0x1000C0, ccs := c, regs := 0xFEB00220 }

/-- What the controller holds for that EventRing, at an enqueue address. -/
def producer (enq : Word64) (c : Bool) : Producer := { base := 0x100080, size := 4, enq := enq, pcs := c }

/-- A state in use: Ring 0 and EventRing 0 ready, Ring 1 and EventRing 1 failed, `ERDP` as given. -/
def working (w : Word64) (erdp : Word64) : State :=
  { State.reset with
    cursor := 0x1000D0
    rings := [ring w true, { Ring.reset with state := .failed }, Ring.reset, Ring.reset]
    erings := [eventRing true, { EventRing.reset with state := .failed }]
    mmio := Memory.write64 [] 0xFEB00238 erdp
    producers := [(0xFEB00220, producer 0x100080 true)] }

/-- A state after a fault. -/
def haltedState : State := State.reset.withResult 0x80000006 0

/-- A state with an agenda. -/
def having (s : State) (l : List Move) : State := { s with agenda := l }

/-- An event entry of Program 3. -/
def event (w0 : Word32) (w3 : Word32) : Entry := { w0 := w0, w1 := 0, w2 := 0x01000000, w3 := w3 }

/-! ### WellFormed: an ill-formed term for each check -/

theorem test_refuses_wide_index : (Instr.ringPush 256).wellFormed = false := by decide
theorem test_refuses_arena_beyond_the_end :
    Config.arenaFits { Config.worked with poolBase := 0xFFFFFFFFFFFFFFC0, poolCapacity := 0x41 } = false := by decide
theorem test_refuses_too_many_or_no_instances :
    Config.countsInRange { Config.worked with numRings := 257 } = false ∧
      Config.countsInRange { Config.worked with numERings := 0 } = false ∧
      Config.countsInRange { Config.worked with numRings := 1, numERings := 256 } = true := by decide
theorem test_refuses_port_beyond_the_end :
    Config.mapFits { Config.worked with hostportBase := 0xFFFFFFFFFFFFFFC0 } = false := by decide
theorem test_refuses_misaligned_interrupter :
    Config.interruptersAligned { Config.worked with interrupters := [0xFEB00224] } = false := by decide
theorem test_refuses_port_in_the_arena :
    Config.mapDisjoint { Config.worked with hostportBase := 0x0011FFF0 } = false := by decide
theorem test_accepts_the_worked_platform : Config.worked.wellFormed = true := by decide

/-! ### Decode: the word of every command, written out from R90 and R91 -/

theorem test_decode_pool :
    decode 0x00000001 = .ok .poolAlloc ∧ decode 0x00000002 = .ok .poolAllocArr ∧
      decode 0x00000003 = .ok .poolFree := by decide
theorem test_decode_ring :
    decode 0x00000010 = .ok (.ringInit 0) ∧ decode 0x00000211 = .ok (.ringPush 2) ∧
      decode 0x0000FF12 = .ok (.ringBuf 255) := by decide
theorem test_decode_er :
    decode 0x00000120 = .ok (.erInit 1) ∧ decode 0x00000221 = .ok (.erHasFront 2) ∧
      decode 0x00000022 = .ok (.erFront 0) ∧ decode 0x00000323 = .ok (.erPop 3) := by decide
theorem test_decode_epid :
    decode 0x00000030 = .ok .epidMake ∧ decode 0x00000031 = .ok .epidAddr ∧
      decode 0x00000032 = .ok .epidNum ∧ decode 0x00000033 = .ok .epidIsIn := by decide
theorem test_decode_epcfg :
    decode 0x00000038 = .ok .epcfgMake ∧ decode 0x00000039 = .ok .epcfgEpid ∧
      decode 0x0000003A = .ok .epcfgType ∧ decode 0x0000003B = .ok .epcfgMps ∧
      decode 0x0000003C = .ok .epcfgIval := by decide
/-- Vectors X1 to X4. -/
theorem test_decode_illegal :
    decode 0x00000000 = .error .unknownOp ∧ decode 0x00000004 = .error .unknownOp ∧
      decode 0x00000101 = .error .idxNotTaken ∧ decode 0x00010011 = .error .reservedNotZero := by decide
theorem test_decodeTableWord :
    decodeTableWord 32 0x00000211 = some (.ringPush 2) ∧ decodeTableWord 32 0x00000101 = none ∧
      decodeTableWord 8 0x11 = some (.ringPush 0) := by decide
/-- The examples of R107. -/
theorem test_assemble :
    Line.actions (.command .poolAlloc [24, 8, 0]) =
        [.portWrite 0x10 8 24, .portWrite 0x18 8 8, .portWrite 0x20 8 0, .portWrite 0 4 0x00000001] ∧
      Line.actions (.push 2 ⟨0x11, 0x22, 0x33, 0x2401⟩) =
        [.portWrite 0x30 4 0x11, .portWrite 0x34 4 0x22, .portWrite 0x38 4 0x33, .portWrite 0x3C 4 0x2401,
          .portWrite 0 4 0x00000211] := by decide

/-! ### The helper functions (section 2.1 of the vectors) -/

theorem test_align_up :
    alignUp 0x00100018 64 = 0x00100040 ∧ alignUp 0x00100040 64 = 0x00100040 ∧
      alignUp 0x00100001 0 = 0x00100001 ∧ alignUp 0 64 = 0 ∧ alignUp 0x00100041 48 = 0x00100050 ∧
      alignUp 7 3 = 9 := by decide
theorem test_crosses :
    crosses 0x00100FC0 64 4096 = false ∧ crosses 0x00100FC1 64 4096 = true ∧
      crosses 0x00101000 4096 4096 = false ∧ crosses 0x00101000 4097 4096 = true ∧
      crosses 0x00100FFF 0 4096 = false ∧ crosses 0x00100FFF 2 0 = false := by decide
theorem test_stamp :
    stamp 0x00002400 true = 0x00002401 ∧ stamp 0x00002401 false = 0x00002400 ∧
      stamp 0xFFFFFFFF false = 0xFFFFFFFE ∧ stamp 0 true = 1 := by decide
theorem test_link_entry :
    linkEntry 0x00012345678000C0 true = ⟨0x678000C0, 0x00012345, 0, 0x00001803⟩ ∧
      linkEntry 0x00100040 false = ⟨0x00100040, 0, 0, 0x00001802⟩ := by decide
theorem test_erdp_merge :
    erdpMerge 0x8 0x00100080 = 0x00100088 ∧ erdpMerge 0x0010008F 0x00100090 = 0x0010009F ∧
      erdpMerge 0xFFFFFFFFFFFFFFFF 0 = 0xF ∧ erdpPtr 0x001000B8 = 0x001000B0 := by decide

/-! ### MemoryPool (section 2.2) -/

/-- P7: the boundary move breaks the alignment. -/
theorem test_poolAlloc_P7 :
    shown .poolAlloc (withArgs 0x001020C8 40 48 64 0) = some (1, 0, 0x001020C8) := by decide
/-- S3, second row: the region is moved to the next page. -/
theorem test_poolAlloc_S3 :
    shown .poolAlloc (withArgs 0x00100018 4096 64 4096 0) = some (0, 0x00101000, 0x00102000) := by decide
/-- P22. -/
theorem test_poolAllocArr_P22 :
    shown .poolAllocArr (withArgs 0x00102010 3 16 64 64) = some (0, 0x00102040, 0x00102070) := by decide
/-- P25: the product is not cut to 64 bits. -/
theorem test_poolAllocArr_P25 :
    shown .poolAllocArr (withArgs 0x00100000 0x8000000000000000 2 0 0) = some (1, 0, 0x00100000) := by decide
/-- P28. -/
theorem test_poolFree_P28 :
    shown .poolFree (withArgs 0x00100040 0xFFFFFFFFFFFFFFFF 0 0 0) = some (0, 0, 0x00100040) := by decide

/-! ### Ring (section 2.3) -/

/-- W1. -/
theorem test_ringInit_W1 :
    (nextOf (exec (.ringInit 0) (withArgs 0x00100018 4 0 0 0))).map
        (fun t => (t.port.res, t.cursor, t.rings[0]?)) =
      some (0x00100040, 0x00100080, some (ring 0 true)) := by decide
/-- W2. -/
theorem test_ringInit_W2 :
    (nextOf (exec (.ringInit 1) (withArgs 0x00100018 1 0 0 0))).map
        (fun t => (t.port.status, t.port.res, t.cursor, t.rings[1]?.map Ring.state)) =
      some (2, 0, 0x00100018, some .failed) := by decide
/-- W7: the pushed entry, the Link entry, the cursor and the cycle bit. -/
theorem test_ringPush_W7 :
    (nextOf (exec (.ringPush 0)
        { working 2 0 with port := Port.reset.withEntry ⟨0xA2, 0x20, 0, 0x2401⟩ })).map
        (fun t => (t.port.res, t.mem.entryAt 0x100060, t.mem.entryAt 0x100070, t.rings[0]?)) =
      some (0x00100060, ⟨0xA2, 0x20, 0, 0x2401⟩, ⟨0x00100040, 0, 0, 0x1803⟩, some (ring 0 false)) := by decide
/-- W10: every push of a Ring of two slots wraps. -/
theorem test_ringPush_W10 :
    (nextOf (exec (.ringPush 0)
        { State.reset with
          rings := [ringOfTwo false]
          port := Port.reset.withEntry ⟨2, 0, 0, 0xFFFFFFFF⟩ })).map
        (fun t => (t.mem.entryAt 0x100000, t.mem.entryAt 0x100010, t.rings)) =
      some (⟨2, 0, 0, 0xFFFFFFFE⟩, ⟨0x00100000, 0, 0, 0x1802⟩, [ringOfTwo true]) := by decide
/-- W12. -/
theorem test_ringBuf_W12 : shown (.ringBuf 0) (working 1 0) = some (0, 0x00100040, 0x1000D0) := by decide
/-- X8: a `FAILED` Ring is not `READY`. -/
theorem test_ringBuf_X8 : shown (.ringBuf 1) (working 1 0) = some (0x80000003, 0, 0x1000D0) := by decide

/-! ### EventRing (section 2.4) -/

/-- The state after vector E1. -/
def afterE1 : Option State :=
  nextOf (exec (.erInit 0)
    { withArgs 0x00100080 4 0xFEB00220 0 0 with mmio := Memory.write64 [] 0xFEB00238 0x8 })

/-- E1: the instance, the segment table, the registers, and what the controller learns. -/
theorem test_erInit_E1 :
    afterE1.map (fun t => (t.port.res, t.cursor, t.erings[0]?)) =
        some (0x00100080, 0x001000D0, some (eventRing true)) ∧
      afterE1.map (fun t => (t.mem.read64 0x1000C0, t.mem.read64 0x1000C8)) = some (0x00100080, 4) ∧
      afterE1.map (fun t => (t.erstsz 0xFEB00220, t.erdp 0xFEB00220, t.erstba 0xFEB00220)) =
        some (1, 0x00100088, 0x001000C0) ∧
      afterE1.map State.producers = some [(0xFEB00220, producer 0x100080 true)] :=
  ⟨by decide, by decide +kernel, by decide, by decide +kernel⟩
/-- E6: the second allocation fails, the cursor keeps the first advance. -/
theorem test_erInit_E6 :
    (nextOf (exec (.erInit 0) (withArgs 0x0011FFC0 4 0xFEB00220 0 0))).map
        (fun t => (t.port.status, t.port.res, t.cursor, t.erings[0]?.map EventRing.state)) =
      some (1, 0, 0x00120000, some .failed) := by decide
/-- E8. -/
theorem test_erHasFront_E8 : shown (.erHasFront 0) (working 0 0x100088) = some (0, 0, 0x1000D0) := by decide
/-- E9. -/
theorem test_erHasFront_E9 :
    shown (.erHasFront 0) (State.controllerStep (working 0 0x100088) (.produce 0xFEB00220 (event 0x1000 0x8400))) =
      some (0, 1, 0x1000D0) := by decide
/-- E10. -/
theorem test_erFront_E10 :
    (nextOf (exec (.erFront 0)
        (State.controllerStep (working 0 0x100088) (.produce 0xFEB00220 (event 0x1000 0x8400))))).map
        (fun t => (t.port.res, t.port.front)) = some (0x00100080, event 0x1000 0x8401) := by decide
/-- E11: no front entry, no check. -/
theorem test_erFront_E11 :
    (nextOf (exec (.erFront 0) (working 0 0x100088))).map (fun t => (t.port.status, t.port.res, t.port.front)) =
      some (0, 0x00100080, zeroEntry) := by decide
/-- E12. -/
theorem test_erPop_E12 :
    (nextOf (exec (.erPop 0) (working 0 0x100088))).map
        (fun t => (t.port.res, t.erdp 0xFEB00220, t.erings[0]?)) =
      some (0x00100090, 0x100098, some (eventRing true)) := by decide
/-- E13: the wrap. -/
theorem test_erPop_E13 :
    (nextOf (exec (.erPop 0) (working 0 0x1000B8))).map
        (fun t => (t.port.res, t.erdp 0xFEB00220, t.erings[0]?)) =
      some (0x00100080, 0x100088, some (eventRing false)) := by decide

/-! ### EndpointID and EndpointConfig (section 2.5) -/

/-- N1. -/
theorem test_epidMake_N1 : shown .epidMake (withArgs 0 5 1 0 0) = some (0, 11, 0) := by decide
/-- N8. -/
theorem test_epidMake_N8 : shown .epidMake (withArgs 0 0x8000000000000000 1 0 0) = some (0, 1, 0) := by decide
/-- N9. -/
theorem test_epidAddr_N9 : shown .epidAddr (withArgs 0 11 0 0 0) = some (0, 11, 0) := by decide
/-- N11. -/
theorem test_epidNum_N11 : shown .epidNum (withArgs 0 31 0 0 0) = some (0, 15, 0) := by decide
/-- N12 and N13. -/
theorem test_epidIsIn_N12 :
    shown .epidIsIn (withArgs 0 11 0 0 0) = some (0, 1, 0) ∧
      shown .epidIsIn (withArgs 0 10 0 0 0) = some (0, 0, 0) := by decide
/-- N14. -/
theorem test_epcfgMake_N14 :
    shown .epcfgMake (withArgs 0 3 3 8 10) = some (0, 0x0000000A00080303, 0) := by decide
/-- N17: every operand too wide. -/
theorem test_epcfgMake_N17 :
    shown .epcfgMake (withArgs 0 0x3F 7 0x12345 0x1FF) = some (0, 0x000000FF2345031F, 0) := by decide
/-- N18. -/
theorem test_epcfgEpid_N18 : shown .epcfgEpid (withArgs 0 0x0000000A00080303 0 0 0) = some (0, 3, 0) := by decide
/-- N22. -/
theorem test_epcfgType_N22 : shown .epcfgType (withArgs 0 0xFFFFFFFFFFFFFFFF 0 0 0) = some (0, 3, 0) := by decide
/-- N23. -/
theorem test_epcfgMps_N23 : shown .epcfgMps (withArgs 0 0xFFFFFFFFFFFFFFFF 0 0 0) = some (0, 0xFFFF, 0) := by decide
/-- N21. -/
theorem test_epcfgIval_N21 : shown .epcfgIval (withArgs 0 0x0000000A00080303 0 0 0) = some (0, 10, 0) := by decide

/-! ### The dispatcher and the controller (sections 2.6 and 2.7) -/

/-- X3: an instance number on a command that takes none. -/
theorem test_step_X3 :
    (nextOf (step (State.reset.withFetchWord 32 0x00000101))).map (fun t => (t.port.cmd, t.port.status)) =
      some (0x00000101, 0x80000006) := by decide
/-- X12: halted comes before illegal. -/
theorem test_step_X12 :
    (nextOf (step (haltedState.withFetchWord 32 0))).map (fun t => t.port.status) = some 0x80000007 := by decide
/-- E15: a status bit latched between the read and the write of `ERDP`, under both models. -/
theorem test_latch_E15 :
    (nextOf (exec (.erPop 0) (having (working 0 0x1000B0)
        [.block, .controller (.latch 0xFEB00220 8)]))).map (fun t => t.erdp 0xFEB00220) = some 0x100080 ∧
      (nextOf (exec (.erPop 0)
        { having (working 0 0x1000B0) [.block, .controller (.latch 0xFEB00220 8)] with
          cfg := { Config.worked with erdpWriteModel := .rw1cBit3 } })).map (fun t => t.erdp 0xFEB00220) =
        some 0x100088 := by decide
/-- K1, the Link step: the reader returns to the base and expects the other cycle value. -/
theorem test_link_step_K1 :
    (Consumer.look (Memory.writeEntry [] 0x100070 (linkEntry 0x100040 true))
        { dq := 0x100070, ccs := true, got := [0x1803, 0x100040], taken := [] }) =
      { dq := 0x100040, ccs := false, got := [], taken := [] } := by decide
/-- K5: the producer may not write slot 3 while the dequeue pointer is at slot 0. -/
theorem test_full_rule_K5 :
    (producer 0x1000A0 true).mayProduce 0x100080 = true ∧
      (producer 0x1000B0 true).mayProduce 0x100080 = false := by decide

/-! ### Witnesses: for every statement with hypotheses, a state and operands that meet them -/

/-- The worked platform has one interrupter, and the state in use registers no other. -/
theorem only_interrupter : (working 2 0x100088).registersApart 0xFEB00220 := by
  intro x hx
  by_cases h : x = 0xFEB00220
  · exact .inl h
  · simp [State.isInterrupter, working, State.reset, State.powerUp, Config.worked, tableGet, h, Ne.symm h] at hx

/-- The state in use meets the invariants at its last write cursor, and its regions are disjoint. -/
theorem witness_working : (working 2 0x100088).Inv ∧ (working 2 0x100088).RegsGenuine ∧
    (working 2 0x100088).regionsDisjoint ∧ (working 2 0x100088).live ∧ (working 2 0x100088).undisturbed :=
  ⟨{ arena := by decide
     cursorLow := by decide
     cursorHigh := by decide
     rings := by decide
     erings := by decide
     mem := by decide
     mmio := by decide
     producers := by decide
     status := by decide
     platform := by decide
     ringCount := by decide
     eringCount := by decide
     consumerCount := by decide },
    { onPlatform := by decide, apart := by decide }, by decide, by decide, by decide⟩

/-- The invariants at any cursor inside the arena and any operands, nothing being initialised. -/
theorem witness_withArgs (c : Nat) (a b d e : Word64) (hl : 0x100000 ≤ c) (hh : c ≤ 0x120000) :
    (withArgs c a b d e).Inv where
  arena := (by decide : Config.worked.arenaFits = true)
  cursorLow := hl
  cursorHigh := Nat.le_trans hh (by decide : 0x120000 ≤ Config.worked.poolEnd)
  rings := fun r hr h => by rw [List.eq_of_mem_replicate hr] at h; cases h
  erings := fun r hr h => by rw [List.eq_of_mem_replicate hr] at h; cases h
  mem := Memory.wf_nil
  mmio := Memory.wf_nil
  producers := List.Pairwise.nil
  status := (by decide : Port.statusLegal Port.reset)
  platform := (by decide : Config.worked.wellFormed = true)
  ringCount := rfl
  eringCount := rfl
  consumerCount := rfl

theorem witness_DecodeOfEncodeIsCommand : (Instr.ringPush 255).wellFormed = true := by decide
theorem witness_DecodedWordIsEncoding : decode 0x0000FF23 = .ok (.erPop 255) := by decide
theorem witness_OpcodeRowsSelectDisjointWords :
    (∃ r ∈ opcodeTable, r.mask = maskIdx ∧ 255 < 256) ∧ ∃ r ∈ opcodeTable, r.mask = maskPlain ∧ 0 < 256 :=
  ⟨⟨⟨maskIdx, 0x23, .erPop⟩, by simp [opcodeTable], rfl, by decide⟩,
    ⟨⟨maskPlain, 0x01, fun _ => .poolAlloc⟩, by simp [opcodeTable], rfl, by decide⟩⟩
theorem witness_StepRunsDecodedCommand :
    (having State.reset [.host (.portWrite 0 4 (BitVec.setWidth 64 0x00000211#32))]).agenda =
      .host (.portWrite 0 4 (BitVec.setWidth 64 0x00000211#32)) :: [] ∧
    decode 0x00000211 = .ok (.ringPush 2) := by decide
theorem witness_StepOnIllegalWord :
    decode 0x00000101 = .error .idxNotTaken ∧ State.reset.live ∧ haltedState.halted = true := by decide
theorem witness_HaltedBlockRefusesEveryCommand :
    (having haltedState [.host (.portWrite 0 4 (BitVec.setWidth 64 0x00000101#32))]).halted = true ∧
      (having haltedState [.host (.portRead 0x4C 4)]).halted = true ∧
      (having haltedState [.host (.portRead 0x4C 4)]).port.read 0x4C 4 = some 0 ∧
      (0xFFFFFFFFFFFFFFFC#64).toNat + 4 ≤ addressSpace ∧ State.reset.live ∧
      noReset (having haltedState [.host (.portRead 0x4C 4)]).agenda ∧
      ∃ t, step (having haltedState [.host (.portRead 0x4C 4)]) = .next t :=
  ⟨by decide, by decide, by decide, by decide, by decide, by decide, _, rfl⟩
/-- Offsets at the edges: the registers' ends, the unused ones, the accesses between. -/
theorem witness_HostAccessesToThePort :
    decode (BitVec.setWidth 32 0x00000211#64) = .ok (.ringPush 2) ∧
      decode (BitVec.setWidth 32 0x00000101#64) = .error .idxNotTaken ∧
      (0x50 ≤ 0x58 ∧ 0x58 % 8 = 0) ∧ (0x54 % 4 = 0 ∧ 0x54 % 8 ≠ 0) ∧ 0x4C < 0x50 := by decide
theorem witness_BadIndexFaults :
    State.reset.live ∧ State.reset.rings.length ≤ 4 ∧ State.reset.erings.length ≤ 2 ∧
      ((withArgs 0x100000 0 0 0 0).Inv ∧ (withArgs 0x100000 0 0 0 0).live ∧ Config.worked.numRings ≤ 4 ∧
        Config.worked.numERings ≤ 2) ∧
      Instr.erPop 2 ∈ [Instr.erInit 2, .erHasFront 2, .erFront 2, .erPop 2] :=
  ⟨by decide, by decide, by decide,
    ⟨witness_withArgs _ _ _ _ _ (by decide) (by decide), by decide, by decide, by decide⟩, by decide⟩
theorem witness_SecondInitFaults :
    (working 0 0).live ∧ ((working 0 0).rings[0]?.map Ring.state = some .ready) ∧
      ((working 0 0).rings[1]?.map Ring.state = some .failed) ∧
      ((working 0 0).erings[0]?.map EventRing.state = some .ready) ∧
      ((working 0 0).erings[1]?.map EventRing.state = some .failed) := by decide
theorem witness_UseBeforeInitFaults :
    (working 0 0).live ∧ ((working 0 0).rings[1]?.map Ring.state = some .failed) ∧
      ((working 0 0).rings[3]?.map Ring.state = some .uninit) ∧
      ((working 0 0).erings[1]?.map EventRing.state = some .failed) ∧
      (State.reset.erings[1]?.map EventRing.state = some .uninit) := by decide
theorem witness_StatusAfterEachCommand :
    (∃ t, exec (.ringPush 0) (working 2 0) = .next t) ∧ (∃ t, exec .poolFree haltedState = .next t) ∧
      ∃ t, exec (.erInit 0) (withArgs 0x0011FFC0 4 0xFEB00220 0 0) = .next t := ⟨⟨_, rfl⟩, ⟨_, rfl⟩, ⟨_, rfl⟩⟩
theorem witness_ErrorsArePrecise :
    (∃ t, exec (.ringBuf 3) (working 2 0) = .next t ∧ t.port.status ≠ 0) ∧
      ∃ t, exec .poolAlloc (withArgs 0x00120000 1 0 0 0) = .next t ∧ t.port.status ≠ 0 :=
  ⟨⟨_, rfl, by decide⟩, ⟨_, rfl, by decide⟩⟩
theorem witness_OnlyResetLeavesTheHalt :
    haltedState.halted = true ∧ noReset haltedState.agenda ∧ ∃ t, step haltedState = .next t :=
  ⟨by decide, by decide, _, rfl⟩
theorem witness_ResetBetweenEventsAbandonsThePush :
    (having (working 2 0x100088) [.block, .reset]).BlockInv ∧
      (having (working 2 0x100088) [.block, .reset]).live ∧
      (having (working 2 0x100088) [.block, .reset]).rings[0]? = some (ring 2 true) ∧
      (ring 2 true).state = .ready :=
  ⟨{ witness_working.1.toBlockInv with }, by decide, by decide, by decide⟩
theorem witness_AlignUpAndCrossesMeanWhatTheySay :
    (0 < 64 ∧ 64 ∣ 128 ∧ 65 ≤ 128) ∧ 128 % 64 = 0 ∧ 0 < 4096 ∧ 0 < 2 ∧ (4096 ∣ 4096) ∧ 4095 < 4096 := by decide
/-- The exact fit and one byte more (P11, P12), and the move that breaks the alignment (P7). -/
theorem witness_PoolAllocPlacesTheRegion :
    (withArgs 0x0011FFC0 64 64 0 0).live ∧ ¬0x00100000 + 0x00020000 < alignUp 0x0011FFC0 64 + 64 ∧
      0x00100000 + 0x00020000 < alignUp 0x0011FFC0 64 + 65 ∧
      crosses (alignUp 0x001020C8 48) 40 64 = true ∧
      alignUp (alignUp 0x001020C8 48) 64 % 48 ≠ 0 := by decide
/-- An exact fit (P23), one element more (P24), a product of `2^64` (P25). -/
theorem witness_PoolAllocArrayMultipliesWithoutWrap :
    (withArgs 0x00100000 0x2000 16 64 0).live ∧
      ¬0x00100000 + 0x00020000 < alignUp 0x00100000 64 + 0x2000 * 16 ∧
      0x00100000 + 0x00020000 < alignUp 0x00100000 64 + 0x2001 * 16 ∧
      (withArgs 0x00100000 0x8000000000000000 2 0 0).BlockInv ∧ Config.worked.wellFormed = true ∧
      addressSpace ≤ (0x8000000000000000#64).toNat * (2#64).toNat :=
  ⟨by decide, by decide, by decide, (witness_withArgs _ _ _ _ _ (by decide) (by decide)).toBlockInv,
    by decide, by decide⟩

/-- An arena that ends at the top of the address space, all given out. -/
def topOfSpace : State :=
  State.powerUp { Config.worked with poolBase := 0xFFFFFFFFFFFE0000 }

/-- The empty region at the cursor `2^64`, and one that padding takes there. -/
theorem witness_ResultsThatDoNotFitAreSomeValue :
    (∀ x ∈ [((addressSpace : Nat), (0 : Word64)), (addressSpace - 63, 64)],
      ∃ s : State, s = { topOfSpace with cursor := x.1, port := { Port.reset with arg1 := x.2 } } ∧ s.live ∧
        addressSpace ≤ regionStart s.cursor 0 x.2.toNat 0 ∧
        (x.2.toNat = 0 ∨ regionStart s.cursor 0 x.2.toNat 0 % x.2.toNat = 0) ∧
        regionStart s.cursor 0 x.2.toNat 0 + 0 ≤ s.cfg.poolBase + s.cfg.poolCapacity) ∧
    (working 0 0xFFFFFFFFFFFFFFF8).live ∧ (working 0 0xFFFFFFFFFFFFFFF8).undisturbed ∧
      (working 0 0xFFFFFFFFFFFFFFF8).erings[0]? = some (eventRing true) ∧ regsFit (eventRing true).regs ∧
      erdpPtr ((working 0 0xFFFFFFFFFFFFFFF8).erdp (eventRing true).regsAddr) = 0xFFFFFFFFFFFFFFF0 ∧
      (eventRing true).segmentEnd ≠ addressSpace :=
  ⟨fun x hx => ⟨_, rfl, (by decide : Port.reset.status.getLsbD 31 = false), by revert x; decide⟩, by decide, by decide, by decide, by decide, by decide, by decide⟩
theorem witness_PoolAllocGuarantees :
    ∃ t, exec .poolAlloc (withArgs 0x00100018 4096 64 4096 0) = .next t ∧ t.port.status = 0 ∧
      (withArgs 0x00100018 4096 64 4096 0).live ∧ 0x00100000 ≤ 0x00100018 ∧
      Config.worked.arenaFits = true ∧ (0 < (4096#64).toNat ∨ Config.worked.poolEnd < addressSpace) ∧
      0 < (64#64).toNat ∧ 1 ≤ (4096#64).toNat ∧ (4096#64).toNat ≤ (4096#64).toNat :=
  ⟨_, rfl, by decide, by decide, by decide, by decide, by decide, by decide, by decide, by decide⟩
/-- No room at one cursor and at a later one; and a request of corner case (e), and one that is not. -/
theorem witness_NoRoomStaysNoRoom :
    (withArgs 0x0011FFC0 65 64 0 0).live ∧ (withArgs 0x00120000 65 64 0 0).live ∧
      (0x0011FFC0 : Nat) ≤ 0x00120000 ∧
      Config.worked.poolEnd < regionStart 0x0011FFC0 (65#64).toNat (64#64).toNat (0#64).toNat + (65#64).toNat ∧
      (∃ t, exec .poolAlloc (withArgs 0x001020C8 40 48 64 0) = .next t ∧ t.port.status ≠ 0) ∧
      (4096#64).toNat % (64#64).toNat = 0 ∧
      exec .poolAlloc (withArgs 0x0011FFC0 65 64 4096 0) =
        .next ((withArgs 0x0011FFC0 65 64 4096 0).withResult 1 0) :=
  ⟨by decide, by decide, by decide, by decide, ⟨_, rfl, by decide⟩, by decide, rfl⟩
theorem witness_EveryFailedRequestFailsAgain :
    (withArgs 0x001020C8 40 48 64 0).Inv ∧ (withArgs 0x00103000 40 48 64 0).Inv ∧
      (withArgs 0x001020C8 40 48 64 0).live ∧ (withArgs 0x00103000 40 48 64 0).live ∧
      (0x001020C8 : Nat) ≤ 0x00103000 ∧
      exec .poolAlloc (withArgs 0x001020C8 40 48 64 0) =
        .next ((withArgs 0x001020C8 40 48 64 0).withResult 1 0) :=
  ⟨witness_withArgs _ _ _ _ _ (by decide) (by decide), witness_withArgs _ _ _ _ _ (by decide) (by decide),
    by decide, by decide, by decide, rfl⟩
theorem witness_PoolFreeHasNoEffect : State.reset.live := by decide
theorem witness_CursorNeverMovesBack :
    noReset (having State.reset [.host (.portWrite 0 4 1)]).agenda ∧
      ∃ t, step (having State.reset [.host (.portWrite 0 4 1)]) = .next t := ⟨by decide, _, rfl⟩
theorem witness_RingInitSucceeds :
    (withArgs 0x00100018 2 0 0 0).live ∧ (withArgs 0x00100018 2 0 0 0).undisturbed ∧
      Config.worked.arenaFits = true ∧ (withArgs 0x00100018 2 0 0 0).rings[3]? = some Ring.reset ∧
      Ring.reset.state = .uninit ∧ 2 ≤ (2#64).toNat ∧
      alignUp 0x00100018 64 + 16 * (2#64).toNat ≤ 0x00100000 + 0x00020000 := by decide
theorem witness_RingInitFails :
    (withArgs 0x00100018 1 0 0 0).live ∧ (withArgs 0x00100018 1 0 0 0).rings[0]? = some Ring.reset ∧
      Ring.reset.state = .uninit ∧ (1#64).toNat < 2 ∧ 2 ≤ (0x3000#64).toNat ∧
      0x00100000 + 0x00020000 < alignUp 0x00100018 64 + 16 * (0x3000#64).toNat := by decide
theorem witness_RingPushWithinALap :
    (working 1 0x100088).BlockInv ∧ (working 1 0x100088).live ∧ (working 1 0x100088).undisturbed ∧
      (working 1 0x100088).rings[0]? = some (ring 1 true) ∧ (ring 1 true).state = .ready ∧
      (ring 1 true).widx.toNat + 2 < (ring 1 true).cap.toNat :=
  ⟨{ witness_working.1.toBlockInv with rings := by decide }, by decide, by decide, by decide, by decide, by decide⟩
theorem witness_RingPushWraps :
    (working 2 0x100088).BlockInv ∧ (working 2 0x100088).live ∧ (working 2 0x100088).undisturbed ∧
      (working 2 0x100088).rings[0]? = some (ring 2 true) ∧ (ring 2 true).state = .ready ∧
      (ring 2 true).widx.toNat + 2 = (ring 2 true).cap.toNat :=
  ⟨witness_working.1.toBlockInv, by decide, by decide, by decide, by decide, by decide⟩
theorem witness_RingBufAnswersTheBase :
    (working 0 0).live ∧ (working 0 0).rings[0]? = some (ring 0 true) ∧ (ring 0 true).state = .ready := by decide
theorem witness_PushSucceedsWhateverTheControllerDoes :
    (having (working 2 0x100088) [.block, .controller (.latch 0xFEB00220 8), .block]).BlockInv ∧
      (having (working 2 0x100088) [.block, .controller (.latch 0xFEB00220 8), .block]).live ∧
      noReset (having (working 2 0x100088) [.block, .controller (.latch 0xFEB00220 8), .block]).agenda ∧
      (working 2 0x100088).rings[0]? = some (ring 2 true) ∧ (ring 2 true).state = .ready :=
  ⟨{ witness_working.1.toBlockInv with }, by decide, by decide, by decide, by decide⟩

/-- A fresh Ring of two slots at the end of the address space. -/
def lastRing : State :=
  { State.reset with rings := [Ring.fresh 0xFFFFFFFFFFFFFFC0 2] }

theorem witness_PushesInClosedForm :
    lastRing.live ∧ 2 ≤ 2 ∧ lastRing.rings[0]? = some (Ring.fresh 0xFFFFFFFFFFFFFFC0 2) ∧
      0xFFFFFFFFFFFFFFC0 + 16 * 2 ≤ addressSpace ∧ ∃ t, Pushes 0 1 lastRing t :=
  ⟨by decide, by decide, by decide, by decide, _, .push zeroEntry [] (.none _) (by decide) rfl⟩
theorem witness_EntryAndRegisterFormats :
    (1 ≤ 31 ∧ 31 < 32) ∧ (0xFFFFFFFFFFFFFFF0#64).toNat % 16 = 0 ∧
      0xFFFFFFFFFFFFFFF0 < addressSpace ∧ 0xFFFFFFFFFFFFFFF0 % 16 = 0 ∧
      0xFEB00220 + 0x20 ≤ addressSpace ∧ (working 0 0x100088).undisturbed ∧
      (working 0 0x100088).isInterrupter 0xFEB00220 = true := by decide
/-- The smallest EventRing that fits exactly, and the largest capacity. -/
theorem witness_EventRingInitSucceeds :
    (withArgs 0x0011FF80 1 0xFEB00220 0 0).live ∧ (withArgs 0x0011FF80 1 0xFEB00220 0 0).undisturbed ∧
      Config.worked.arenaFits = true ∧
      (withArgs 0x0011FF80 1 0xFEB00220 0 0).erings[1]? = some EventRing.reset ∧
      EventRing.reset.state = .uninit ∧ 1 ≤ (1#64).toNat ∧ (65535#64).toNat ≤ 65535 ∧
      alignUp (alignUp 0x0011FF80 64 + 16 * (1#64).toNat) 64 + 16 ≤ 0x00100000 + 0x00020000 ∧
      regsFit 0xFEB00220 ∧ regsFit 0xFFFFFFFFFFFFFFE0 := by decide
/-- The four ways to fail: capacities 0 and 65536, no room for the buffer (E5), no room for the table (E6). -/
theorem witness_EventRingInitFails :
    (withArgs 0x0011FFC0 4 0 0 0).live ∧ (withArgs 0x0011FFC0 4 0 0 0).erings[0]? = some EventRing.reset ∧
      ((0#64).toNat < 1 ∧ 65535 < (65536#64).toNat) ∧
      0x00120000 < alignUp 0x00100000 64 + 16 * (65535#64).toNat ∧
      alignUp 0x0011FFC0 64 + 16 * (4#64).toNat ≤ 0x00120000 ∧
      0x00120000 < alignUp (alignUp 0x0011FFC0 64 + 16 * (4#64).toNat) 64 + 16 := by decide
theorem witness_EventRingInitBeyondTheAddressSpaceStops :
    (withArgs 0x00100080 4 0xFFFFFFFFFFFFFFE8 0 0).live ∧
      (withArgs 0x00100080 4 0xFFFFFFFFFFFFFFE8 0 0).erings[0]? = some EventRing.reset ∧
      alignUp (alignUp 0x00100080 64 + 16 * (4#64).toNat) 64 + 16 ≤ 0x00120000 ∧
      ¬regsFit 0xFFFFFFFFFFFFFFE8 := by decide
theorem witness_HasFrontComparesCycleBits :
    (working 0 0x100088).live ∧ (working 0 0x100088).undisturbed ∧
      (working 0 0x100088).erings[0]? = some (eventRing true) ∧ (eventRing true).state = .ready ∧
      regsFit (eventRing true).regs := by decide
theorem witness_FrontReadsTheEntry :
    (working 0 0x1000B8).live ∧ (working 0 0x1000B8).undisturbed ∧
      (working 0 0x1000B8).erings[0]? = some (eventRing true) ∧ regsFit (eventRing true).regs := by decide
/-- At the last slot, where the pointer wraps, and one slot before it. -/
theorem witness_PopAdvancesTheDequeuePointer :
    (working 0 0x1000B8).live ∧ (working 0 0x1000B8).undisturbed ∧
      (working 0 0x1000B8).erings[0]? = some (eventRing true) ∧ regsFit (eventRing true).regs ∧
      (erdpPtr ((working 0 0x1000B8).erdp 0xFEB00220)).toNat + 16 = 0x100080 + 16 * 4 ∧
      (erdpPtr ((working 0 0x1000A8).erdp 0xFEB00220)).toNat + 16 ≠ 0x100080 + 16 * 4 ∧
      (0x100080 : Nat) < addressSpace := by decide
/-- A pop before which the controller produces, and between whose events it latches. -/
theorem witness_PopsInClosedForm :
    (working 2 0x100088).BlockInv ∧ (working 2 0x100088).live ∧
      (working 2 0x100088).erings[0]? = some (eventRing true) ∧ (eventRing true).ccs = true ∧
      (working 2 0x100088).registersApart 0xFEB00220 ∧
      (working 2 0x100088).dequeueAt (eventRing true) 0 ∧ ∃ t, Pops 0 1 (working 2 0x100088) t :=
  ⟨witness_working.1.toBlockInv, by decide, by decide, by decide, only_interrupter, ⟨by decide, by decide⟩, _,
    .pop [.controller (.produce 0xFEB00220 (event 0 0x8400)), .block, .controller (.latch 0xFEB00220 8)]
      (.none _) (by decide) rfl⟩
theorem witness_FreshEventRingHasNoFront :
    (∃ t, exec (.erInit 0) (withArgs 0x00100080 4 0xFEB00220 0 0) = .next t ∧ t.port.status = 0) ∧
      quiet [Move.host (.portRead 4 4)] = true := ⟨⟨_, rfl, by decide⟩, by decide⟩
theorem witness_EventRingCommandsAlwaysSucceed :
    noReset (having (working 0 0) [.block, .controller (.latch 0xFEB00220 8)]).agenda ∧
      (having (working 0 0) [.block, .controller (.latch 0xFEB00220 8)]).live ∧
      (working 0 0).erings[0]? = some (eventRing true) ∧ regsFit (eventRing true).regs := by decide
/-- The same pointer with other status bits. -/
theorem witness_ErdpStatusBitsDoNotShow :
    (working 0 0x100088).undisturbed ∧
      erdpPtr (State.erdp { working 0 0x100088 with mmio := Memory.write64 [] 0xFEB00238 0x100087 } 0xFEB00220) =
        erdpPtr ((working 0 0x100088).erdp 0xFEB00220) ∧
      ∃ t, exec (.erPop 0) (working 0 0x100088) = .next t := ⟨by decide, by decide, _, rfl⟩
theorem witness_LatchBetweenReadAndWrite :
    (having (working 0 0x1000B0) [.block, .controller (.latch 0xFEB00220 8)]).live ∧ quiet [] = true ∧
      (working 0 0x1000B0).erings[0]? = some (eventRing true) ∧
      regsFit (eventRing true).regs ∧ (working 0 0x1000B0).isInterrupter 0xFEB00220 = true := by decide
/-- The largest number, and the largest address, that are in range. -/
theorem witness_EndpointIdCommandsCompute :
    State.reset.live ∧ operandsInRange .epidMake (withArgs 0 15 1 0 0).port ∧
      operandsInRange .epidNum (withArgs 0 31 0 0 0).port :=
  ⟨by decide, (by decide : (15#64).toNat < 16), (by decide : (31#64).toNat < 32)⟩
/-- The largest operands in range. -/
theorem witness_EndpointConfigCommandsCompute :
    State.reset.live ∧ operandsInRange .epcfgMake (withArgs 0 31 3 65535 255).port :=
  ⟨by decide, (by decide : (31#64).toNat < 32 ∧ (3#64).toNat < 4 ∧ (65535#64).toNat < 65536 ∧ (255#64).toNat < 256)⟩
theorem witness_EndpointIdLaws :
    (withArgs 0 15 1 0 0).live ∧ (withArgs 0 31 0 0 0).live ∧ 15 < 16 ∧ 1 < 2 ∧ 31 < 32 ∧
      (withArgs 0 15 1 0 0).port.arg0 = BitVec.ofNat 64 15 ∧
      (∃ t, exec .epidMake (withArgs 0 15 1 0 0) = .next t ∧ (withArgs 0 31 0 0 0).port.arg0 = t.port.res) ∧
      (∃ t, exec .epidNum (withArgs 0 31 0 0 0) = .next t ∧ (withArgs 0 15 1 0 0).port.arg0 = t.port.res) ∧
      ∃ t, exec .epidIsIn (withArgs 0 31 0 0 0) = .next t ∧ (withArgs 0 15 1 0 0).port.arg1 = t.port.res :=
  ⟨by decide, by decide, by decide, by decide, by decide, by decide, ⟨_, rfl, by decide⟩, ⟨_, rfl, by decide⟩,
    ⟨_, rfl, by decide⟩⟩
theorem witness_EndpointConfigLaws :
    (31#64).toNat < 32 ∧ (3#64).toNat < 4 ∧ (65535#64).toNat < 65536 ∧ (255#64).toNat < 256 ∧
      (∃ t, exec .epcfgMake (withArgs 0 31 3 65535 255) = .next t ∧
        (withArgs 0 0xFFFFFF031F 0 0 0).port.arg0 = t.port.res) ∧
      ∃ t0 t1 t2 t3, exec .epcfgEpid (withArgs 0 0xFFFFFFFFFFFFFFFF 0 0 0) = .next t0 ∧
        exec .epcfgType (withArgs 0 0xFFFFFFFFFFFFFFFF 0 0 0) = .next t1 ∧
        exec .epcfgMps (withArgs 0 0xFFFFFFFFFFFFFFFF 0 0 0) = .next t2 ∧
        exec .epcfgIval (withArgs 0 0xFFFFFFFFFFFFFFFF 0 0 0) = .next t3 ∧
        (31#64) = t0.port.res ∧ (3#64) = t1.port.res ∧ (65535#64) = t2.port.res ∧ (255#64) = t3.port.res :=
  ⟨by decide, by decide, by decide, by decide, ⟨_, rfl, by decide⟩,
    ⟨_, _, _, _, rfl, rfl, rfl, rfl, by decide, by decide, by decide, by decide⟩⟩

/-- A controller that has been told of Ring 0 and stands at a slot. -/
def consumerAt (dq : Word64) : Consumer := { dq := dq, ccs := true, got := [], taken := [] }

/-- A stale slot, a pushed entry, a Link entry, in this order, from `0x100040` on. -/
def threeSlots : Memory :=
  Memory.writeEntry (Memory.writeEntry [] 0x100050 (event 0 0x2401)) 0x100060 (linkEntry 0x100040 true)

/-- The consumer at one of the three slots. -/
def consuming (dq : Word64) : State :=
  { State.reset with consumers := [some (consumerAt dq)], mem := threeSlots }

theorem witness_ConsumeAndLinkSteps :
    ((working 0 0).rings[0]? = some (ring 0 true) ∧ (ring 0 true).state = .ready ∧
        (∀ r, (working 0 0).rings[1]? = some r → r.state ≠ .ready) ∧
        (working 0 0).consumers[0]? = some none) ∧
      ((consuming 0x100040).consumers[0]? = some (some (consumerAt 0x100040)) ∧ (consumerAt 0x100040).got = [] ∧
        ((consuming 0x100040).mem.entryAt 0x100040).w3.getLsbD 0 ≠ (consumerAt 0x100040).ccs) ∧
      ((consuming 0x100050).consumers[0]? = some (some (consumerAt 0x100050)) ∧
        ((consuming 0x100050).mem.entryAt 0x100050).w3.getLsbD 0 = (consumerAt 0x100050).ccs ∧
        ((consuming 0x100050).mem.entryAt 0x100050).w3.extractLsb' 10 6 ≠ 6 ∧
        (0x100050 : Nat) + 16 < addressSpace) ∧
      (consuming 0x100060).consumers[0]? = some (some (consumerAt 0x100060)) ∧
      ((consuming 0x100060).mem.entryAt 0x100060).w3.getLsbD 0 = (consumerAt 0x100060).ccs ∧
      ((consuming 0x100060).mem.entryAt 0x100060).w3.extractLsb' 10 6 = 6 :=
  ⟨⟨by decide, by decide, by decide, by decide⟩, by decide, by decide, by decide⟩
/-- The producer one slot before the dequeue pointer, one slot earlier, and at the end of the segment. -/
theorem witness_ProduceStepAndFullRule :
    tableGet (working 0 0x100088).producers 0xFEB00220 = some (producer 0x100080 true) ∧
      (producer 0x1000B0 true).nextEnq = (0x100080#64).toNat ∧
      (producer 0x1000A0 true).nextEnq ≠ (0x100080#64).toNat ∧
      (0x1000B0#64).toNat + 16 = (0x100080#64).toNat + 16 * (4#16).toNat := by decide
theorem witness_ControllerWritesOnlyItsOwn :
    ((working 0 0x100080).controllerStep (.produce 0xFEB00220 (event 0x1000 0x8400))).mem.peek 0x100081 ≠
        (working 0 0x100080).mem.peek 0x100081 ∧
      ((working 0 0x100080).controllerStep (.latch 0xFEB00220 8)).mmio.peek 0xFEB00238 ≠
        (working 0 0x100080).mmio.peek 0xFEB00238 := by decide
/-- The consumer at the slot of the entry and at that of the Link entry, as late as it can look. -/
theorem witness_ConsumerSeesNoHalfWrittenEntry :
    ∀ x ∈ [((0x100060 : Word64), 3), (0x100070, 7)],
      ∃ s : State, s = { working 2 0x100088 with
          consumers := [some (consumerAt x.1), none, none, none]
          agenda := List.replicate x.2 .block ++ [.controller (.consume 0)] } ∧ s.BlockInv ∧ s.live ∧
        s.rings[0]? = some (ring 2 true) ∧ s.consumers[0]? = some (some (consumerAt x.1)) ∧
        (x.1.toNat = (ring 2 true).slot (ring 2 true).widx.toNat ∧ x.2 ≤ 3 ∨
          (ring 2 true).widx.toNat + 2 = (ring 2 true).cap.toNat ∧
            x.1.toNat = (ring 2 true).slot ((ring 2 true).cap.toNat - 1) ∧ x.2 ≤ 7) ∧
        cycleOf (s.mem.read32 (x.1.toNat + 12)) ≠ (consumerAt x.1).ccs := by
  intro x hx
  refine ⟨_, rfl, { witness_working.1.toBlockInv with }, witness_working.2.2.2.1, rfl, rfl, ?_⟩
  revert x
  decide

/-- Ring 0 of two slots, one entry pushed and the Link entry written, the consumer at slot `k`. -/
def queuedRing (dq : Word64) : State :=
  { State.reset with
    cursor := 0x100020
    rings := [ringOfTwo false]
    consumers := [some (consumerAt dq)]
    mem := Memory.writeEntry (Memory.writeEntry [] 0x100000 (event 0xA0 0x2401)) 0x100010 (linkEntry 0x100000 true) }

/-- A fresh Ring, an entry not yet taken, a Link entry not yet followed. -/
theorem witness_RingDeliversInOrder :
    (queuedRing 0x100000).live ∧ (queuedRing 0x100000).undisturbed ∧
      EntriesQueued { queuedRing 0x100000 with mem := [] } (ringOfTwo true) (consumerAt 0x100000) 0 [] ∧
      EntriesQueued (queuedRing 0x100000) (ringOfTwo false) (consumerAt 0x100000) 0 [event 0xA0 0x2401] ∧
      EntriesQueued (queuedRing 0x100010) (ringOfTwo false) (consumerAt 0x100010) 1 [] ∧
      (0 < (ringOfTwo true).cap.toNat - 1 ∧ isLink (0x2400#32) = false) ∧
      (1 + 1 = (ringOfTwo false).cap.toNat ∧ (ringOfTwo false).widx.toNat + 2 = (ringOfTwo false).cap.toNat) :=
  ⟨by decide, by decide,
    { ready := by decide, fits := by decide, aligned := by decide, cursor := by decide, position := by decide
      sameLap := by decide, lapBehind := by decide, entries := by decide, payload := by decide
      cycles := by decide, reading := by decide, begun := by decide },
    { ready := by decide, fits := by decide, aligned := by decide, cursor := by decide, position := by decide
      sameLap := by decide, lapBehind := by decide, entries := by decide, payload := by decide
      cycles := by decide, reading := by decide, begun := by decide },
    { ready := by decide, fits := by decide, aligned := by decide, cursor := by decide, position := by decide
      sameLap := by decide, lapBehind := by decide, entries := by decide, payload := by decide
      cycles := by decide, reading := by decide, begun := by decide },
    by decide, by decide⟩

/-- EventRing 0 with `n` event entries the controller has written, the dequeue pointer at slot 0. -/
def eventsAt : Nat → State
  | 0 => working 0 0x100088
  | n + 1 => (eventsAt n).controllerStep (.produce 0xFEB00220 (event (BitVec.ofNat 32 n) 0x8400))

/-- An empty EventRing, one with room, and a full one. -/
theorem witness_EventRingDeliversInOrder :
    EventsQueued (eventsAt 0) (eventRing true) (producer 0x100080 true) 0 [] ∧
      EventsQueued (eventsAt 3) (eventRing true) (producer 0x1000B0 true) 0
        [event 0 0x8401, event 1 0x8401, event 2 0x8401] ∧
      (eventsAt 3).live ∧ (eventsAt 3).undisturbed ∧ (eventsAt 3).erings[0]? = some (eventRing true) ∧
      0 + 1 < (eventRing true).cap.toNat ∧ 3 + 1 = (eventRing true).cap.toNat :=
  ⟨{ ready := by decide, fits := by decide, aligned := by decide, registers := by decide, producer := by decide
     base := by decide, size := by decide, dequeue := ⟨by decide, by decide⟩, room := by decide
     enqueue := by decide, lap := by decide, entries := by decide, cycles := by decide },
    { ready := by decide, fits := by decide, aligned := by decide, registers := by decide, producer := by decide
      base := by decide, size := by decide, dequeue := ⟨by decide, by decide⟩, room := by decide
      enqueue := by decide, lap := by decide, entries := by decide, cycles := by decide },
    by decide, by decide, by decide, by decide, by decide⟩
theorem witness_InstancesAreIndependent :
    noReset (working 2 0).agenda ∧ (∃ t, exec (.ringPush 0) (working 2 0) = .next t) ∧
      (Instr.ringPush 0 ∉ [Instr.ringInit 1, .ringPush 1, .ringBuf 1]) := ⟨by decide, ⟨_, rfl⟩, by decide⟩
theorem witness_CommandsDoNotStop :
    (working 2 0x100088).BlockInv ∧
      ∀ k, Instr.ringPush 0 ∉ [Instr.erInit k, .erHasFront k, .erFront k, .erPop k] :=
  ⟨witness_working.1.toBlockInv, by simp⟩
theorem witness_PowerUpHasTheInvariants :
    Config.arenaFits { Config.worked with poolBase := 0xFFFFFFFFFFFE0000 } = true ∧
      Config.wellFormed { Config.worked with poolBase := 0xFFFFFFFFFFFE0000, numRings := 256, numERings := 1 } =
        true := by decide
theorem witness_EveryStepKeepsTheInvariants :
    (having (working 2 0x100088) [.host (.portWrite 0 4 0x11)]).Inv ∧
      (having (working 2 0x100088) [.host (.portWrite 0 4 0x11)]).regionsDisjoint ∧
      ∃ t, step (having (working 2 0x100088) [.host (.portWrite 0 4 0x11)]) = .next t :=
  ⟨{ witness_working.1 with }, witness_working.2.2.1, _, rfl⟩
/-- An `ER.INIT` on the second of two interrupters, the first of which is taken. -/
theorem witness_EveryStepKeepsRegionsDisjoint :
    ∃ s : State, s = { working 2 0x100088 with
        cfg := { Config.worked with interrupters := [0xFEB00220, 0xFEB00240] }
        erings := [eventRing true, EventRing.reset]
        port := { Port.reset with arg0 := 4, arg1 := 0xFEB00240 }
        agenda := [.host (.portWrite 0 4 0x00000120)] } ∧
      s.Inv ∧ s.RegsGenuine ∧ s.regionsDisjoint ∧ s.nextCommand = some (.erInit 1) ∧
      s.regsOperandGenuine ∧ ∃ t, step s = .next t ∧ t.port.status = 0 :=
  ⟨_, rfl, { witness_working.1 with
      arena := by decide
      erings := by decide
      status := by decide
      platform := by decide
      ringCount := by decide
      eringCount := by decide
      consumerCount := by decide },
    { onPlatform := by decide, apart := by decide }, by decide, by decide, ⟨by decide, by decide⟩, _, rfl, by decide⟩

end Sys2Proof.Tests
end

section
/-! PROOFS. The encodings of 30_encoding.md: the rows of the opcode table (R93), and the formats of the Queue
Entries and of the interrupter registers (R47, R97, R98, R103, R201). -/

namespace Sys2Proof

/-! ### The opcode table (R93) -/

theorem OpcodeRow.selects_iff (r : OpcodeRow) (w : Word32) : r.selects w = true ↔ w &&& r.mask = r.pat :=
  beq_iff_eq

/-- The two kinds of row: one fixes every bit and its command takes no instance, the other leaves bits 15:8
free and its command carries them as `idx`. -/
theorem opcodeTable_row_kinds : ∀ r ∈ opcodeTable,
    (r.mask = maskPlain ∧ ∀ k, (r.command k).idx = 0) ∨ (r.mask = maskIdx ∧ ∀ k, (r.command k).idx = k) := by
  simp [opcodeTable, Instr.idx]

theorem opcodeTable_pat_lt : ∀ r ∈ opcodeTable, r.pat.toNat < 256 := by decide

theorem opcodeTable_pats_distinct : opcodeTable.Pairwise fun a b => a.pat ≠ b.pat := by decide

/-- Every row fixes all of bits 7:0, and its match value has no other bit set. -/
theorem opcodeTable_fixes_op : ∀ r ∈ opcodeTable, r.mask &&& 0xFF#32 = 0xFF#32 ∧ r.pat &&& 0xFF#32 = r.pat := by
  decide

/-- The rows a word can select are those whose match value is its `op`. -/
theorem OpcodeRow.pat_eq_of_selects {r : OpcodeRow} (hr : r ∈ opcodeTable) {w : Word32}
    (h : r.selects w = true) : r.pat = w &&& 0xFF#32 := by
  obtain ⟨hmask, hpat⟩ := opcodeTable_fixes_op r hr
  calc r.pat = r.pat &&& 0xFF#32 := hpat.symm
    _ = w &&& r.mask &&& 0xFF#32 := by rw [(r.selects_iff w).mp h]
    _ = w &&& 0xFF#32 := by rw [BitVec.and_assoc, hmask]

/-- A row's command carries `idx` exactly when the row leaves bits 15:8 free; otherwise it carries 0. -/
theorem OpcodeRow.command_idx_iff {r : OpcodeRow} (hr : r ∈ opcodeTable) (k : Nat) :
    (r.command k).idx = k ↔ r.mask = maskIdx ∨ k = 0 := by
  obtain ⟨hmask, hidx⟩ | ⟨hmask, hidx⟩ := opcodeTable_row_kinds r hr
  · have hne : maskPlain ≠ maskIdx := by decide
    simp [hmask, hidx, hne, eq_comm]
  · simp [hmask, hidx]

theorem opcodeTable_rows_disjoint :
    opcodeTable.Pairwise fun a b => ∀ w : Word32, ¬(a.selects w = true ∧ b.selects w = true) :=
  opcodeTable_pats_distinct.imp_of_mem fun ha hb hne _ ⟨hwa, hwb⟩ =>
    hne ((OpcodeRow.pat_eq_of_selects ha hwa).trans (OpcodeRow.pat_eq_of_selects hb hwb).symm)

/-- Settles O3: two rows that select one word both match its `op`, and the match values are distinct. -/
theorem opcodeRowsSelectDisjointWords : Obligations.OpcodeRowsSelectDisjointWords :=
  ⟨fun r hr => (opcodeTable_row_kinds r hr).symm.imp And.left And.left, opcodeTable_pat_lt,
    fun r _ w => r.selects_iff w, fun _ hr k _ => OpcodeRow.command_idx_iff hr k, opcodeTable_rows_disjoint⟩

end Sys2Proof

namespace Sys2Proof.Machine

/-! ### The words of a Queue Entry (R97, R98) -/

/-- A cycle bit stands in bit 0 alone. -/
theorem getLsbD_bit32 (c : Bool) (k : Nat) : (bit32 c).getLsbD k = (decide (k = 0) && c) := by
  cases c <;> simp [bit32]

/-- A mask that clears the bits below `n` has the others set. -/
theorem getLsbD_allOnes_shiftLeft {w : Nat} (n k : Nat) :
    (BitVec.allOnes w <<< n).getLsbD k = (decide (n ≤ k) && decide (k < w)) := by
  rw [BitVec.getLsbD_shiftLeft, BitVec.getLsbD_allOnes, ← Bool.decide_and, ← decide_not, ← Bool.decide_and,
    ← Bool.decide_and, decide_eq_decide]
  omega

/-- The bits of a stamped word: the cycle bit below, the word's own above. -/
theorem getLsbD_stamp (w : Word32) (c : Bool) (k : Nat) :
    (stamp w c).getLsbD k = if k = 0 then c else w.getLsbD k := by
  have hmask : 0xFFFFFFFE#32 = BitVec.allOnes 32 <<< 1 := by decide
  rw [stamp, BitVec.getLsbD_or, BitVec.getLsbD_and, getLsbD_bit32, hmask, getLsbD_allOnes_shiftLeft]
  by_cases hk : k = 0
  · simp [hk]
  · have hge : 32 ≤ k → w.getLsbD k = false := w.getLsbD_of_ge k
    by_cases h32 : k < 32
    · simp [hk, h32, Nat.one_le_iff_ne_zero.mpr hk]
    · simp [hk, h32, hge (Nat.le_of_not_lt h32)]

@[simp] theorem cycleOf_stamp (w : Word32) (c : Bool) : cycleOf (stamp w c) = c := by
  rw [cycleOf, getLsbD_stamp, if_pos rfl]

theorem linkEntry_w3 (b : Word64) (c : Bool) :
    (linkEntry b c).w3 = if c then 0x00001803#32 else 0x00001802#32 := by
  cases c <;> rfl

/-- Word 3 of a Link entry: type 6, toggle flag, cycle bit (R97). -/
theorem linkEntry_flags (b : Word64) (c : Bool) :
    isLink (linkEntry b c).w3 = true ∧ toggleOf (linkEntry b c).w3 = true ∧
      cycleOf (linkEntry b c).w3 = c := by
  rw [linkEntry_w3]
  cases c <;> decide

/-! ### Pointer bits and status bits (R42, R103) -/

theorem getLsbD_erdpPtrMask (k : Nat) : erdpPtrMask.getLsbD k = (decide (4 ≤ k) && decide (k < 64)) := by
  have hmask : erdpPtrMask = BitVec.allOnes 64 <<< 4 := by decide
  rw [hmask, getLsbD_allOnes_shiftLeft]

/-- A 16-byte aligned address has only pointer bits. -/
theorem erdpPtr_of_aligned (b : Word64) (h : b.toNat % 16 = 0) : erdpPtr b = b := by
  apply BitVec.eq_of_getLsbD_eq
  intro k hk
  have hlow (hk4 : k < 4) : b.getLsbD k = false := by
    rw [← BitVec.testBit_toNat]
    simpa [h, hk4] using (Nat.testBit_mod_two_pow b.toNat 4 k).symm
  rw [erdpPtr, BitVec.getLsbD_and, getLsbD_erdpPtrMask]
  by_cases hk4 : k < 4
  · simp [hlow hk4]
  · simp [hk, Nat.le_of_not_lt hk4]

/-- The pointer field of a Link entry holds the pointer bits of the base it was made from. -/
theorem linkTarget_linkEntry (b : Word64) (c : Bool) :
    linkTarget (linkEntry b c).w0 (linkEntry b c).w1 = erdpPtr b := by
  have hmask : 0xFFFFFFF0#64 = (erdpPtrMask.setWidth 32).setWidth 64 := by decide
  apply BitVec.eq_of_getLsbD_eq
  intro k hk
  rw [linkTarget, linkEntry, hmask, erdpPtr, BitVec.getLsbD_or]
  by_cases h32 : k < 32
  · simp [hk, h32]
  · have hmaskBit : erdpPtrMask[k] = true := by
      rw [← BitVec.getLsbD_eq_getElem, getLsbD_erdpPtrMask]
      simp [hk, show 4 ≤ k by omega]
    have hindex : 32 + (k - 32) = k := by omega
    have hhalf : k - 32 < 32 := by omega
    simp [hk, h32, hhalf, hindex, hmaskBit]

/-- The status bits of a value put together from pointer bits and status bits (R103). -/
theorem and_mask_or_status (x y : Word64) :
    ((x &&& erdpPtrMask) ||| (y &&& erdpStatusMask)) &&& erdpStatusMask = y &&& erdpStatusMask := by
  have hapart : erdpPtrMask &&& erdpStatusMask = 0#64 := by decide
  rw [BitVec.and_or_distrib_right, BitVec.and_assoc, hapart, BitVec.and_assoc, BitVec.and_self, BitVec.and_zero,
    BitVec.zero_or]

/-- The status bits the controller makes of a write stay inside bits 3:0, under both models (R47). -/
theorem erdpStatusAfter_and_mask (model : ErdpWriteModel) (old w : Word64) :
    erdpStatusAfter model old w &&& erdpStatusMask = erdpStatusAfter model old w := by
  cases model with
  | plain => simp [erdpStatusAfter, erdpStatusMask, BitVec.and_assoc]
  | rw1cBit3 => simp [erdpStatusAfter, erdpStatusMask, BitVec.and_assoc, BitVec.and_or_distrib_right]

/-- `ERDP` after a write has the pointer written, under both models (R201). -/
@[simp] theorem erdpPtr_erdpAfter (model : ErdpWriteModel) (old w : Word64) :
    erdpPtr (erdpAfter model old w) = erdpPtr w := by
  rw [erdpAfter, ← erdpStatusAfter_and_mask, erdpPtr, and_mask_or, erdpPtr]

/-- `ERDP` after a write has the status bits `erdp_write_model` gives (R47). -/
theorem erdpAfter_and_statusMask (model : ErdpWriteModel) (old w : Word64) :
    erdpAfter model old w &&& erdpStatusMask = erdpStatusAfter model old w := by
  rw [erdpAfter, ← erdpStatusAfter_and_mask, and_mask_or_status]

theorem erdpPtr_erdpMerge (old : Word64) (p : Nat) : erdpPtr (erdpMerge old p) = erdpPtr (BitVec.ofNat 64 p) :=
  and_mask_or _ _

theorem erdpMerge_and_statusMask (old : Word64) (p : Nat) :
    erdpMerge old p &&& erdpStatusMask = old &&& erdpStatusMask :=
  and_mask_or_status _ _

/-- Bits 2:0 of `ERDP` after a write to a register with a write-1-to-clear bit 3 are those written. -/
theorem erdpAfter_rw1c_and_seven (old w : Word64) : erdpAfter .rw1cBit3 old w &&& 0x7#64 = w &&& 0x7#64 := by
  have hseven : (0x7#64) = erdpStatusMask &&& 0x7#64 := by decide
  rw [hseven, ← BitVec.and_assoc, erdpAfter_and_statusMask]
  simp [erdpStatusAfter, erdpStatusMask, BitVec.and_assoc, BitVec.and_or_distrib_right]

/-- Bit 3 after such a write is set only where it was set and the write has it clear. -/
theorem erdpAfter_rw1c_bit3 (old w : Word64) :
    (erdpAfter .rw1cBit3 old w).getLsbD 3 = (old.getLsbD 3 && !w.getLsbD 3) := by
  simp [erdpAfter, erdpStatusAfter, erdpPtrMask]

/-! ### The interrupter registers after a write (R40 to R42, R201) -/

@[simp] theorem State.erstba_erstbaWrite (s : State) (regs : Nat) (w : Word64) :
    (s.erstbaWrite regs w).erstba regs = w := by
  simp [State.erstba]

@[simp] theorem State.erdp_erdpWrite (s : State) (regs : Nat) (w : Word64) :
    (s.erdpWrite regs w).erdp regs = erdpAfter s.cfg.erdpWriteModel (s.erdp regs) w := by
  rw [State.erdp, State.erdpWrite_mmio, Memory.read64_write64]

/-- A change of status bits by the controller keeps the pointer of `ERDP` (R201). -/
theorem State.erdp_latch (s : State) (regs : Nat) (v : BitVec 4) (hi : s.isInterrupter regs = true)
    (hr : regs + interrupterBytes ≤ addressSpace) :
    (s.latch regs v).erdp regs = erdpPtr (s.erdp regs) ||| v.setWidth 64 := by
  rw [State.latch, if_pos (by simp [hi, hr]), State.erdp, Memory.read64_write64]

/-- Undisturbed writes of the three registers (R40 to R42, R47). -/
theorem State.registers_after_undisturbed_writes (s : State) (regs : Nat) (hu : s.undisturbed)
    (hr : regs + interrupterBytes ≤ addressSpace) :
    (∀ v, ∃ t, s.erstszEvent regs v = .ok t ∧ t.erstsz regs = v) ∧
      (∀ w, ∃ t, s.erstbaEvent regs w = .ok t ∧ t.erstba regs = w) ∧
      ∀ w, ∃ t, s.erdpWriteEvent regs w = .ok t ∧
        t.erdp regs = erdpAfter s.cfg.erdpWriteModel (s.erdp regs) w :=
  ⟨fun v => ⟨_, s.erstszEvent_undisturbed regs v hu hr, Memory.read32_write32 _ _ _⟩,
    fun w => ⟨_, s.erstbaEvent_undisturbed regs w hu hr, s.erstba_erstbaWrite regs w⟩,
    fun w => ⟨_, s.erdpWriteEvent_undisturbed regs w hu hr, s.erdp_erdpWrite regs w⟩⟩

/-- Settles O34: the formats bit by bit, then what the registers hold after a write and after a latch. -/
theorem entryAndRegisterFormats : Obligations.EntryAndRegisterFormats := by
  refine ⟨fun w c => ⟨cycleOf_stamp w c, fun k hk _ => ?_⟩, fun b c hb => ?_, fun old p _ h16 => ?_,
    fun old w => ⟨erdpPtr_erdpAfter _ _ _, erdpAfter_and_statusMask _ _ _⟩,
    fun old w => ⟨erdpPtr_erdpAfter _ _ _, erdpAfter_rw1c_and_seven old w, erdpAfter_rw1c_bit3 old w⟩,
    fun s regs hr => ⟨fun hu => s.registers_after_undisturbed_writes regs hu hr,
      fun hi v => s.erdp_latch regs v hi hr⟩⟩
  · rw [getLsbD_stamp, if_neg (by omega)]
  · obtain ⟨hlink, htoggle, hcycle⟩ := linkEntry_flags b c
    have htarget := (linkTarget_linkEntry b c).trans (erdpPtr_of_aligned b hb)
    exact ⟨rfl, rfl, htarget, hlink, htoggle, hcycle, rfl, linkEntry_w3 b c⟩
  · have hp16 : (BitVec.ofNat 64 p).toNat % 16 = 0 := by
      rw [BitVec.toNat_ofNat, Nat.mod_mod_of_dvd p (by decide), h16]
    exact ⟨(erdpPtr_erdpMerge old p).trans (erdpPtr_of_aligned _ hp16), erdpMerge_and_statusMask old p⟩

end Sys2Proof.Machine
end

section
/-! PROOFS. The pool commands of 40_pool.md. -/

namespace Sys2Proof.Machine

/-! ### `POOL.FREE` (R125) -/

/-- On a live block `POOL.FREE` passes the halted check and is `done 0`, without a look at the operand. -/
theorem exec_poolFree_of_live (s : State) (h : s.live) : exec .poolFree s = .next (s.withResult 0 0) :=
  calc exec .poolFree s = s.unlessHalted (.next (s.done 0)) := rfl
    _ = .next (s.done 0) := s.unlessHalted_live _ h
    _ = .next (s.withResult 0 0) := by rw [s.done_live 0 h]

/-- Settles O25: the word is the encoding of `POOL.FREE`, and the command is `done 0` on every live block. -/
theorem poolFreeHasNoEffect : Obligations.PoolFreeHasNoEffect :=
  ⟨by decide, exec_poolFree_of_live⟩

end Sys2Proof.Machine
end

section
/-! PROOFS. The EventRing commands of 42_event_ring.md: what `ER.INIT` and `ER.HASFRONT` do when nobody interferes
with their events. -/

namespace Sys2Proof.Machine

/-! ### How an unsuccessful command ends (R21) -/

/-- Only a command that succeeds leaves `STATUS` at 0: every other code is in its low byte. -/
theorem statusAfter_ne_zero (old : Word32) {c : ResultCode} (f : Bool) (hc : c ≠ .ok) : statusAfter old c f ≠ 0 := by
  have hword : c.word ≠ 0 := by
    cases c with
    | ok => exact absurd rfl hc
    | _ => decide
  exact fun h => hword (BitVec.or_eq_zero_iff.mp h).2

theorem State.takeFault_status_ne_zero (s : State) {c : ResultCode} (hc : c ≠ .ok) :
    (s.takeFault c).port.status ≠ 0 := statusAfter_ne_zero _ _ hc

theorem State.fail_status_ne_zero (s : State) {c : ResultCode} (hc : c ≠ .ok) :
    (s.fail c).port.status ≠ 0 := statusAfter_ne_zero _ _ hc

/-! ### Accesses through `ERDP` (R42, R153, R159) -/

/-- A dequeue pointer is a multiple of 16, so the 16 bytes at it have addresses. -/
theorem erdpPtr_add_entryBytes_le (v : Word64) : (erdpPtr v).toNat + entryBytes ≤ addressSpace := by
  have hle : (erdpPtr v).toNat ≤ erdpPtrMask.toNat := by
    rw [erdpPtr, BitVec.toNat_and]
    exact Nat.and_le_right
  have hmask : erdpPtrMask.toNat + entryBytes = addressSpace := by decide
  omega

theorem State.erdpReadEvent_beyond (s : State) (regs : Nat) (hu : s.undisturbed)
    (hr : ¬regs + interrupterBytes ≤ addressSpace) : s.erdpReadEvent regs = .error (.fault .busAddress) := by
  have hbeyond : ¬regs + erdpOffset + 8 ≤ addressSpace := by
    simp only [erdpOffset, interrupterBytes] at *
    omega
  simp [State.erdpReadEvent, s.nextEvent_undisturbed hu, bind, Except.bind, inAddressSpace, hbeyond]

/-- The undisturbed read-modify-write: the new pointer with the status bits just read (R159). -/
theorem State.erdpUpdate_undisturbed (s : State) (regs : Nat) (next : Nat → Nat) (hu : s.undisturbed)
    (hr : regs + interrupterBytes ≤ addressSpace) :
    s.erdpUpdate regs next =
      .ok (next (erdpPtr (s.erdp regs)).toNat,
        s.erdpWrite regs (erdpMerge (s.erdp regs) (next (erdpPtr (s.erdp regs)).toNat))) := by
  simp only [State.erdpUpdate, s.erdpReadEvent_undisturbed regs hu hr, bind, Except.bind,
    s.erdpWriteEvent_undisturbed regs _ hu hr]
  rfl

/-- `ER.HASFRONT` undisturbed: the cycle bit at the dequeue pointer against the consumer cycle bit (R155). -/
theorem exec_erHasFront_undisturbed (s : State) (j : Nat) (e : EventRing) (hl : s.live) (hu : s.undisturbed)
    (he : s.erings[j]? = some e) (hs : e.state = .ready) (hr : regsFit e.regs) :
    exec (.erHasFront j) s = .next (s.withResult 0
      (bit64 (cycleOf (s.mem.read32 ((erdpPtr (s.erdp e.regsAddr)).toNat + 12)) == e.ccs))) := by
  have hread : (erdpPtr (s.erdp e.regsAddr)).toNat + 12 + 4 ≤ addressSpace := erdpPtr_add_entryBytes_le _
  calc exec (.erHasFront j) s = s.hasFront e := s.onEventRing_run j .ready _ e hl he hs
    _ = .next (s.done
          (bit64 (cycleOf (s.mem.read32 ((erdpPtr (s.erdp e.regsAddr)).toNat + 12)) == e.ccs))) := by
      simp only [State.hasFront, State.frontEvents, s.erdpReadEvent_undisturbed e.regsAddr hu hr, bind, Except.bind,
        s.memRead32_undisturbed _ hu hread]
      rfl
    _ = _ := by rw [s.done_live _ hl]

/-- Where the consumer cycle bit is 1, a zero word 3 at the dequeue pointer is no front entry. -/
theorem exec_erHasFront_on_zero_word (s : State) (j : Nat) (e : EventRing) {dq : Nat} (hl : s.live)
    (hu : s.undisturbed) (he : s.erings[j]? = some e) (hs : e.state = .ready) (hr : regsFit e.regs)
    (hccs : e.ccs = true) (hptr : (erdpPtr (s.erdp e.regsAddr)).toNat = dq) (hzero : s.mem.read32 (dq + 12) = 0) :
    exec (.erHasFront j) s = .next (s.withResult 0 0) := by
  rw [exec_erHasFront_undisturbed s j e hl hu he hs hr, hptr, hzero, hccs]
  rfl

/-! ### The events of `ER.INIT` (R151) -/

/-- The zero-filled buffer of `m` slots at `b` and the segment table at `tbl` that describes it. -/
def State.segmentWritten (s : State) (m b tbl : Nat) : State :=
  { s with
    mem := ((s.mem.zeroed b m).write64 tbl (BitVec.ofNat 64 b)).write64 (tbl + 8) (BitVec.ofNat 64 m) }

/-- `ERSTSZ` holds 1: the table has one entry. -/
def State.erstszWritten (s : State) (regs : Nat) : State :=
  { s with mmio := s.mmio.write32 (regs + erstszOffset) 1 }

/-- The state after all events of an undisturbed `ER.INIT`. -/
def State.registered (s : State) (m b tbl regs : Nat) : State :=
  let u := (s.segmentWritten m b tbl).erstszWritten regs
  (u.erdpWrite regs (erdpMerge (u.erdp regs) b)).erstbaWrite regs (BitVec.ofNat 64 tbl)

@[simp] theorem State.done_erdp (s : State) (v : Word64) (regs : Nat) : (s.done v).erdp regs = s.erdp regs := rfl
@[simp] theorem State.setEventRing_erdp (s : State) (j : Nat) (e : EventRing) (regs : Nat) :
    (s.setEventRing j e).erdp regs = s.erdp regs := rfl

@[simp] theorem State.registered_erings (s : State) (m b tbl regs : Nat) :
    (s.registered m b tbl regs).erings = s.erings := rfl
theorem State.registered_mem (s : State) (m b tbl regs : Nat) :
    (s.registered m b tbl regs).mem = (s.segmentWritten m b tbl).mem := rfl

/-- The pointer written to `ERDP` stands there when `ERSTBA`, whose register lies below it, has been written too. -/
theorem State.erdpPtr_registered (s : State) (m b tbl regs : Nat) :
    erdpPtr ((s.registered m b tbl regs).erdp regs) = erdpPtr (BitVec.ofNat 64 b) := by
  have hbelow : regs + erstbaOffset + 8 ≤ regs + erdpOffset := Nat.le_refl _
  have hkeep (u : State) (w : Word64) : (u.erstbaWrite regs w).erdp regs = u.erdp regs :=
    congrArg (BitVec.ofNat 64) (Memory.read_write_outside _ _ _ _ _ _ (.inr hbelow))
  rw [State.registered, hkeep, State.erdp_erdpWrite, erdpPtr_erdpAfter, erdpPtr_erdpMerge]

/-- Word 3 of the first slot is 0: zero-filled, and the table lies behind the buffer. -/
theorem State.segmentWritten_firstWord3 (s : State) {m b tbl : Nat} (hm : 1 ≤ m) (ht : b + 16 * m ≤ tbl) :
    (s.segmentWritten m b tbl).mem.read32 (b + 12) = 0 := by
  have hzero (x : Nat) (hlo : b + 12 ≤ x) (hhi : x < b + 12 + 4) :
      (s.segmentWritten m b tbl).mem.peek x = Memory.peek [] x := by
    rw [State.segmentWritten, Memory.write64, Memory.write64, Memory.peek_write_outside _ _ _ _ _ (by omega),
      Memory.peek_write_outside _ _ _ _ _ (by omega), Memory.peek_zeroed, if_pos (by omega)]
    rfl
  rw [Memory.read32, Memory.read_congr _ _ _ _ hzero]
  rfl

/-- Undisturbed, the memory writes of `ER.INIT` come through, and its register events remain. -/
theorem State.registerEvents_eq (s : State) {m b tbl : Nat} (regs : Nat) (hu : s.undisturbed)
    (hb : b + 16 * m ≤ addressSpace) (ht : tbl + 16 ≤ addressSpace) :
    s.registerEvents m b tbl regs = (do
      let u ← (s.segmentWritten m b tbl).erstszEvent regs 1
      let (_, u) ← u.erdpUpdate regs fun _ => b
      u.erstbaEvent regs (BitVec.ofNat 64 tbl)) := by
  have hwrite (mem : Memory) (a : Nat) (v : Word64) (ha : a + 8 ≤ addressSpace) :
      State.memWrite64 { s with mem := mem } a v = .ok { s with mem := mem.write64 a v } :=
    State.memWrite64_undisturbed { s with mem := mem } a v hu ha
  have hbase : tbl + 8 ≤ addressSpace := by omega
  have hsize : tbl + 8 + 8 ≤ addressSpace := by omega
  simp only [State.registerEvents, zeroFill_undisturbed m b s hu hb, bind, Except.bind, hwrite _ _ _ hbase,
    hwrite _ _ _ hsize]
  rfl

theorem State.registerEvents_undisturbed (s : State) {m b tbl regs : Nat} (hu : s.undisturbed)
    (hb : b + 16 * m ≤ addressSpace) (ht : tbl + 16 ≤ addressSpace) (hr : regs + interrupterBytes ≤ addressSpace) :
    s.registerEvents m b tbl regs = .ok (s.registered m b tbl regs) := by
  have hsz : (s.segmentWritten m b tbl).erstszEvent regs 1 = .ok ((s.segmentWritten m b tbl).erstszWritten regs) :=
    State.erstszEvent_undisturbed _ regs 1 hu hr
  have hdp := ((s.segmentWritten m b tbl).erstszWritten regs).erdpUpdate_undisturbed regs (fun _ => b) hu hr
  simp only [s.registerEvents_eq regs hu hb ht, hsz, hdp, bind, Except.bind]
  exact State.erstbaEvent_undisturbed _ regs _ hu hr

/-- An interrupter block without addresses: the events end at the access to `ERSTSZ` or at the one to `ERDP`. -/
theorem State.registerEvents_beyond (s : State) {m b tbl regs : Nat} (hu : s.undisturbed)
    (hb : b + 16 * m ≤ addressSpace) (ht : tbl + 16 ≤ addressSpace) (hr : ¬regs + interrupterBytes ≤ addressSpace) :
    s.registerEvents m b tbl regs = .error (.fault .busAddress) := by
  have hdp : ((s.segmentWritten m b tbl).erstszWritten regs).erdpReadEvent regs = .error (.fault .busAddress) :=
    State.erdpReadEvent_beyond _ regs hu hr
  have hnext : (s.segmentWritten m b tbl).nextEvent = .ok (s.segmentWritten m b tbl) :=
    State.nextEvent_undisturbed _ hu
  rw [s.registerEvents_eq regs hu hb ht]
  by_cases hsz : inAddressSpace (regs + erstszOffset) 4 = true
  · have hwritten : (s.segmentWritten m b tbl).erstszEvent regs 1 =
        .ok ((s.segmentWritten m b tbl).erstszWritten regs) := by
      simp only [State.erstszEvent, hnext, bind, Except.bind, if_pos hsz]
      rfl
    simp only [hwritten, State.erdpUpdate, hdp, bind, Except.bind]
  · simp only [State.erstszEvent, hnext, bind, Except.bind, if_neg hsz]

/-! ### A successful `ER.INIT` (R151) -/

/-- What an undisturbed `ER.INIT` that ends with `STATUS` 0 has done: the two allocations gave a 64-byte aligned buffer
of at least one slot and a table behind it, the interrupter has addresses, and every event came through. -/
structure ErInitSucceeded (s t : State) (j m b tbl : Nat) : Prop where
  index : j < s.erings.length
  slots : 1 ≤ m
  aligned : b % 64 = 0
  apart : b + 16 * m ≤ tbl
  tableFits : tbl + 16 ≤ addressSpace
  regsFits : regsFit s.port.arg1
  result : t = State.done
    (State.setEventRing (State.registered { s with cursor := tbl + erstEntryBytes } m b tbl s.port.arg1.toNat) j
      (EventRing.fresh b m tbl s.port.arg1)) (BitVec.ofNat 64 b)

/-- With both regions placed, an undisturbed `ER.INIT` that does not stop runs all its events. -/
theorem State.registerEvents_next {s t : State} {m b tbl regs : Nat} {f : State → State} (hu : s.undisturbed)
    (hb : b + 16 * m ≤ addressSpace) (ht : tbl + 16 ≤ addressSpace)
    (h : Run.outcome (do let u ← s.registerEvents m b tbl regs; return f u) = .next t) :
    regs + interrupterBytes ≤ addressSpace ∧ t = f (s.registered m b tbl regs) := by
  by_cases hr : regs + interrupterBytes ≤ addressSpace
  · rw [s.registerEvents_undisturbed hu hb ht hr] at h
    cases h
    exact ⟨hr, rfl⟩
  · rw [s.registerEvents_beyond hu hb ht hr] at h
    cases h

/-- The pseudocode of `ER.INIT`: a refused capacity or a failed allocation ends with another code, a success has both
regions placed and all events done. -/
theorem State.eventRingInit_succeeded {s t : State} {j : Nat} {e : EventRing} (hu : s.undisturbed)
    (harena : s.cfg.poolEnd ≤ addressSpace) (hj : j < s.erings.length) (h : s.eventRingInit j e = .next t)
    (h0 : t.port.status = 0) : ∃ m b tbl, ErInitSucceeded s t j m b tbl := by
  have hfail {u : State} {c : ResultCode} (hc : c ≠ .ok) : u.failEventRing j e c ≠ .next t := by
    intro hends
    cases hends
    exact State.fail_status_ne_zero _ hc h0
  simp only [State.eventRingInit] at h
  split at h
  · exact absurd h (hfail (by decide))
  · rename_i hm
    obtain hnone | ⟨b, hsome, -, haligned, -, -⟩ :=
      s.allocate_cases (operandNat s.port.arg0 * entryBytes) erAlign erBoundary
    · rw [hnone] at h
      exact absurd h (hfail (by decide))
    rw [hsome] at h
    obtain hnone | ⟨tbl, hsome, -, -, hbt, htbl⟩ := State.allocate_cases
      { s with cursor := b + operandNat s.port.arg0 * entryBytes } erstEntryBytes erstAlign erstBoundary
    · simp only [hnone] at h
      exact absurd h (hfail (by decide))
    simp only [hsome] at h
    simp only [entryBytes, erstEntryBytes] at hbt htbl
    have htable : tbl + 16 ≤ addressSpace := htbl.trans harena
    have happart : b + 16 * operandNat s.port.arg0 ≤ tbl := by omega
    obtain ⟨hr, rfl⟩ := State.registerEvents_next (s := { s with cursor := tbl + erstEntryBytes }) hu
      (happart.trans (by omega)) htable h
    exact ⟨_, b, tbl, hj, by omega, haligned (by decide), happart, htable, hr, rfl⟩

/-- The dispatcher's checks end with a fault where they do not run the pseudocode (R216). -/
theorem exec_erInit_succeeded {s t : State} {j : Nat} (hl : s.live) (hu : s.undisturbed)
    (harena : s.cfg.arenaFits = true) (h : exec (.erInit j) s = .next t) (h0 : t.port.status = 0) :
    ∃ m b tbl, ErInitSucceeded s t j m b tbl := by
  have hfault {c : ResultCode} (hc : c ≠ .ok) (ho : exec (.erInit j) s = .next (s.takeFault c)) : False := by
    rw [h] at ho
    cases ho
    exact s.takeFault_status_ne_zero hc h0
  obtain ⟨hhalted, -⟩ | ⟨-, -, ho⟩ | ⟨e, -, -, -, ho⟩ | ⟨e, -, he, -, ho⟩ :=
    s.onEventRing_cases j .uninit fun e => s.eventRingInit j e
  · exact absurd hhalted (by simp [hl])
  · exact (hfault (by decide) ho).elim
  · exact (hfault (by decide) ho).elim
  · exact State.eventRingInit_succeeded hu (of_decide_eq_true harena) (List.getElem?_eq_some_iff.mp he).1
      (ho.symm.trans h) h0

/-- After a successful `ER.INIT` the EventRing is fresh, the dequeue pointer stands at its first slot, and that slot's
word 3 is 0. -/
theorem ErInitSucceeded.fresh_and_zero {s t : State} {j m b tbl : Nat} (h : ErInitSucceeded s t j m b tbl) :
    t.erings[j]? = some (EventRing.fresh b m tbl s.port.arg1) ∧
      (erdpPtr (t.erdp s.port.arg1.toNat)).toNat = b ∧ t.mem.read32 (b + 12) = 0 := by
  obtain ⟨hindex, hslots, haligned, hapart, htable, -, rfl⟩ := h
  have hb : (BitVec.ofNat 64 b).toNat = b := by
    rw [BitVec.toNat_ofNat]
    exact Nat.mod_eq_of_lt (show b < addressSpace by omega)
  refine ⟨by simp [hindex], ?_, ?_⟩
  · rw [State.done_erdp, State.setEventRing_erdp, State.erdpPtr_registered, erdpPtr_of_aligned _ (by omega), hb]
  · rw [State.done_mem, State.setEventRing_mem, State.registered_mem, State.segmentWritten_firstWord3 _ hslots hapart]

/-- Settles O42: the stored cycle bit of the zeroed first slot is 0, the consumer cycle bit of a fresh EventRing
is 1. -/
theorem freshEventRingHasNoFront : Obligations.FreshEventRingHasNoFront := by
  intro s t j l hl hu harena hinit h0 hquiet
  obtain ⟨m, b, tbl, hdone⟩ := exec_erInit_succeeded hl hu harena hinit h0
  obtain ⟨hring, hptr, hzero⟩ := hdone.fresh_and_zero
  have hlive : t.live := by
    rw [State.live, State.halted, h0]
    decide
  exact exec_erHasFront_on_zero_word { t with agenda := l } j (EventRing.fresh b m tbl s.port.arg1) hlive hquiet hring
    rfl hdone.regsFits rfl hptr hzero

end Sys2Proof.Machine
end

section
/-! PROOFS. The EndpointID and EndpointConfig commands of 43_endpoint.md: their results as numbers, and the laws of
R175 and R182. -/

namespace Sys2Proof.Machine

/-- On a live block a combinational command is `done` of its formula (R170). -/
theorem State.combinational_live (s : State) (v : Word64) (h : s.live) :
    s.combinational v = .next (s.withResult 0 v) := by
  rw [State.combinational, s.unlessHalted_live _ h, s.done_live v h]

/-- A number that fits is not cut by the result register. -/
theorem toNat_ofNat64_of_lt {v : Nat} (h : v < 2 ^ 64) : (BitVec.ofNat 64 v).toNat = v := by
  rw [BitVec.toNat_ofNat, Nat.mod_eq_of_lt h]

/-! ### EndpointID (R171 to R175) -/

theorem endpointMake_operandTrue (number dir : Word64) :
    endpointMake number (operandTrue dir) = BitVec.ofNat 64 (number.toNat * 2 + if dir ≠ 0 then 1 else 0) := by
  by_cases h : dir = 0#64 <;> simp [endpointMake, operandTrue, h]

theorem bit64_endpointIsIn (id : Word64) : bit64 (endpointIsIn id) = BitVec.ofNat 64 (id.toNat % 2) := by
  have hbit : endpointIsIn id = decide (id.toNat % 2 = 1) := by
    rw [endpointIsIn, BitVec.getLsbD, Nat.testBit_zero]
  obtain h | h := Nat.mod_two_eq_zero_or_one id.toNat <;> simp [hbit, h, bit64]

theorem exec_epidMake_of_live (s : State) (h : s.live) :
    exec .epidMake s = .next (s.withResult 0
      (BitVec.ofNat 64 (s.port.arg0.toNat * 2 + if s.port.arg1 ≠ 0 then 1 else 0))) :=
  calc exec .epidMake s = s.combinational (endpointMake s.port.arg0 (operandTrue s.port.arg1)) := rfl
    _ = _ := by rw [s.combinational_live _ h, endpointMake_operandTrue]

theorem exec_epidAddr_of_live (s : State) (h : s.live) :
    exec .epidAddr s = .next (s.withResult 0 s.port.arg0) :=
  s.combinational_live s.port.arg0 h

theorem exec_epidNum_of_live (s : State) (h : s.live) :
    exec .epidNum s = .next (s.withResult 0 (BitVec.ofNat 64 (s.port.arg0.toNat / 2))) :=
  s.combinational_live (endpointNumber s.port.arg0) h

theorem exec_epidIsIn_of_live (s : State) (h : s.live) :
    exec .epidIsIn s = .next (s.withResult 0 (BitVec.ofNat 64 (s.port.arg0.toNat % 2))) :=
  calc exec .epidIsIn s = s.combinational (bit64 (endpointIsIn s.port.arg0)) := rfl
    _ = _ := by rw [s.combinational_live _ h, bit64_endpointIsIn]

/-- Settles O46: each formula as a number, and its bound from the operand's. -/
theorem endpointIdCommandsCompute : Obligations.EndpointIdCommandsCompute := by
  refine ⟨by decide, fun s hl => ⟨exec_epidMake_of_live s hl, exec_epidAddr_of_live s hl, exec_epidNum_of_live s hl,
    exec_epidIsIn_of_live s hl, ?_⟩⟩
  have hcut (v : Nat) : (BitVec.ofNat 64 v).toNat ≤ v := Nat.mod_le v _
  simp only [List.forall_mem_cons, List.not_mem_nil, false_implies, implies_true, and_true]
  refine ⟨fun (hr : s.port.arg0.toNat < 16) => ⟨_, exec_epidMake_of_live s hl, (hcut _).trans_lt ?_⟩,
    fun (hr : s.port.arg0.toNat < 32) => ⟨_, exec_epidAddr_of_live s hl, hr⟩,
    fun (hr : s.port.arg0.toNat < 32) => ⟨_, exec_epidNum_of_live s hl, (hcut _).trans_lt ?_⟩,
    fun _ => ⟨_, exec_epidIsIn_of_live s hl, (hcut _).trans_lt (Nat.mod_lt _ (by decide))⟩⟩
  · split <;> omega
  · omega

/-- `EPID.MAKE` of a number and a direction is the address they stand for. -/
theorem exec_epidMake_of_pair {s : State} {n d : Nat} (hl : s.live) (hn : n < 16) (hd : d < 2)
    (h0 : s.port.arg0 = BitVec.ofNat 64 n) (h1 : s.port.arg1 = BitVec.ofNat 64 d) :
    exec .epidMake s = .next (s.withResult 0 (BitVec.ofNat 64 (2 * n + d))) := by
  have hdir : (if BitVec.ofNat 64 d ≠ 0 then 1 else 0) = d := by
    interval_cases d <;> rfl
  rw [exec_epidMake_of_live s hl, h0, h1, hdir, toNat_ofNat64_of_lt (by omega), Nat.mul_comm]

/-- An address below 32 is its number, its half rounded down, and its direction, its parity. -/
theorem existsUnique_endpoint_pair (a : Nat) (ha : a < 32) :
    ∃! x : Nat × Nat, x.1 < 16 ∧ x.2 < 2 ∧ 2 * x.1 + x.2 = a := by
  refine ⟨(a / 2, a % 2), ⟨by omega, by omega, by omega⟩, fun x ⟨_, hdir, hsum⟩ => Prod.ext ?_ ?_⟩
  · show x.1 = a / 2
    omega
  · show x.2 = a % 2
    omega

/-- Settles O48: `EPID.MAKE` is `2 * n + d`, of which the accessors take the quotient and the remainder. -/
theorem endpointIdLaws : Obligations.EndpointIdLaws := by
  refine ⟨fun s u n d hn hd hs hu h0 h1 => ⟨_, exec_epidMake_of_pair hs hn hd h0 h1, fun hid => ?_⟩,
    fun s u a ha hs hu hid => ⟨_, _, exec_epidNum_of_live u hu, exec_epidIsIn_of_live u hu, fun h0 h1 => ?_⟩,
    existsUnique_endpoint_pair⟩
  · replace hid : u.port.arg0 = BitVec.ofNat 64 (2 * n + d) := hid
    have hnum : (2 * n + d) / 2 = n := by omega
    have hdir : (2 * n + d) % 2 = d := by omega
    rw [exec_epidNum_of_live u hu, exec_epidIsIn_of_live u hu, exec_epidAddr_of_live u hu, hid,
      toNat_ofNat64_of_lt (by omega), hnum, hdir]
    exact ⟨rfl, rfl, rfl⟩
  · rw [hid, toNat_ofNat64_of_lt (by omega)] at h0 h1
    rw [exec_epidMake_of_pair hs (by omega) (Nat.mod_lt a (by decide)) h0 h1, Nat.div_add_mod]

/-! ### EndpointConfig: the fields as numbers (R177 to R181) -/

theorem operandField_toNat (arg : Word64) (lo : Nat) {width : Nat} (hw : width ≤ 64) :
    (operandField arg lo width).toNat = arg.toNat / 2 ^ lo % 2 ^ width := by
  rw [operandField, BitVec.toNat_setWidth_of_le hw, BitVec.extractLsb'_toNat, Nat.shiftRight_eq_div_pow]

theorem operandField_eq (arg : Word64) (lo : Nat) {width : Nat} (hw : width ≤ 64) :
    operandField arg lo width = BitVec.ofNat 64 (arg.toNat / 2 ^ lo % 2 ^ width) := by
  rw [← operandField_toNat arg lo hw, BitVec.ofNat_toNat, BitVec.setWidth_eq]

/-- An operand cut to its low bits is its remainder. -/
theorem operandField_zero_toNat (arg : Word64) {width : Nat} (hw : width ≤ 64) :
    (operandField arg 0 width).toNat = arg.toNat % 2 ^ width := by
  rw [operandField_toNat arg 0 hw, Nat.pow_zero, Nat.div_one]

/-- A field put above the bits in use adds to them. -/
theorem toNat_or_shiftLeft {x y : Word64} {k : Nat} (hx : x.toNat < 2 ^ k) (hy : y.toNat * 2 ^ k < 2 ^ 64) :
    (x ||| y <<< k).toNat = x.toNat + y.toNat * 2 ^ k := by
  rw [BitVec.toNat_or, BitVec.toNat_shiftLeft, Nat.shiftLeft_eq, Nat.mod_eq_of_lt hy, Nat.or_comm, Nat.mul_comm,
    ← Nat.two_pow_add_eq_or_of_lt hx, Nat.add_comm]

/-- The four fields do not overlap, so the packed value is their sum. -/
theorem configPack_toNat (id type mps ival : Word64) :
    (configPack id type mps ival).toNat =
      id.toNat % 2 ^ 5 + type.toNat % 2 ^ 2 * 2 ^ 8 + mps.toNat % 2 ^ 16 * 2 ^ 16 + ival.toNat % 2 ^ 8 * 2 ^ 32 := by
  have hid := operandField_zero_toNat id (show 5 ≤ 64 by decide)
  have htype := operandField_zero_toNat type (show 2 ≤ 64 by decide)
  have hmps := operandField_zero_toNat mps (show 16 ≤ 64 by decide)
  have hival := operandField_zero_toNat ival (show 8 ≤ 64 by decide)
  have h1 := toNat_or_shiftLeft (x := operandField id 0 5) (y := operandField type 0 2) (k := 8)
    (by omega) (by omega)
  have h2 := toNat_or_shiftLeft (y := operandField mps 0 16) (k := 16) (h1.trans_lt (by omega)) (by omega)
  have h3 := toNat_or_shiftLeft (y := operandField ival 0 8) (k := 32) (h2.trans_lt (by omega)) (by omega)
  rw [configPack, h3, h2, h1, hid, htype, hmps, hival]

theorem exec_epcfgMake_of_live (s : State) (h : s.live) :
    exec .epcfgMake s =
      .next (s.withResult 0 (configPack s.port.arg0 s.port.arg1 s.port.arg2 s.port.arg3)) :=
  s.combinational_live (configPack s.port.arg0 s.port.arg1 s.port.arg2 s.port.arg3) h

theorem exec_epcfgEpid_of_live (s : State) (h : s.live) :
    exec .epcfgEpid s = .next (s.withResult 0 (operandField s.port.arg0 0 5)) :=
  s.combinational_live (operandField s.port.arg0 0 5) h

theorem exec_epcfgType_of_live (s : State) (h : s.live) :
    exec .epcfgType s = .next (s.withResult 0 (operandField s.port.arg0 8 2)) :=
  s.combinational_live (operandField s.port.arg0 8 2) h

theorem exec_epcfgMps_of_live (s : State) (h : s.live) :
    exec .epcfgMps s = .next (s.withResult 0 (operandField s.port.arg0 16 16)) :=
  s.combinational_live (operandField s.port.arg0 16 16) h

theorem exec_epcfgIval_of_live (s : State) (h : s.live) :
    exec .epcfgIval s = .next (s.withResult 0 (operandField s.port.arg0 32 8)) :=
  s.combinational_live (operandField s.port.arg0 32 8) h

/-- `EPCFG.MAKE` as a sum of the cut operands (R177). -/
theorem configPack_eq (id type mps ival : Word64) :
    configPack id type mps ival = BitVec.ofNat 64
      (id.toNat % 2 ^ 5 + type.toNat % 2 ^ 2 * 2 ^ 8 + mps.toNat % 2 ^ 16 * 2 ^ 16 + ival.toNat % 2 ^ 8 * 2 ^ 32) := by
  rw [← configPack_toNat, BitVec.ofNat_toNat, BitVec.setWidth_eq]

/-- Settles O47: the packed value and the four fields as numbers; an operand in range is its own remainder. -/
theorem endpointConfigCommandsCompute : Obligations.EndpointConfigCommandsCompute := by
  refine ⟨by decide, fun s hl => ⟨?_, ?_, ?_, ?_, ?_, ?_⟩⟩
  · rw [exec_epcfgMake_of_live s hl, configPack_eq]
  · rintro ⟨hid, htype, hmps, hival⟩
    rw [exec_epcfgMake_of_live s hl, configPack_eq, Nat.mod_eq_of_lt (b := 2 ^ 5) hid,
      Nat.mod_eq_of_lt (b := 2 ^ 2) htype, Nat.mod_eq_of_lt (b := 2 ^ 16) hmps, Nat.mod_eq_of_lt (b := 2 ^ 8) hival]
  · rw [exec_epcfgEpid_of_live s hl, operandField_eq _ _ (by decide), Nat.pow_zero, Nat.div_one]
  · rw [exec_epcfgType_of_live s hl, operandField_eq _ _ (by decide)]
  · rw [exec_epcfgMps_of_live s hl, operandField_eq _ _ (by decide)]
  · rw [exec_epcfgIval_of_live s hl, operandField_eq _ _ (by decide)]

/-! ### EndpointConfig: the laws of R182 -/

/-- The extractors undo the packing of operands that fit their fields. -/
theorem operandField_configPack {id type mps ival : Word64} (hid : id.toNat < 32) (htype : type.toNat < 4)
    (hmps : mps.toNat < 65536) (hival : ival.toNat < 256) :
    operandField (configPack id type mps ival) 0 5 = id ∧ operandField (configPack id type mps ival) 8 2 = type ∧
      operandField (configPack id type mps ival) 16 16 = mps ∧
      operandField (configPack id type mps ival) 32 8 = ival := by
  have hpack := configPack_toNat id type mps ival
  refine ⟨?_, ?_, ?_, ?_⟩ <;> apply BitVec.eq_of_toNat_eq <;> rw [operandField_toNat _ _ (by decide)] <;> omega

/-- Extracting a field from bit 0 of an extracted field of the same width changes nothing. -/
theorem operandField_operandField (c : Word64) (lo : Nat) {width : Nat} (hw : width ≤ 64) :
    operandField (operandField c lo width) 0 width = operandField c lo width := by
  apply BitVec.eq_of_toNat_eq
  rw [operandField_zero_toNat _ hw, operandField_toNat _ _ hw, Nat.mod_mod]

/-- A field put back in its place is the value with every other bit cleared. -/
theorem operandField_shiftLeft (c : Word64) (lo width : Nat) :
    operandField c lo width <<< lo = c &&& ((BitVec.allOnes width).setWidth 64 <<< lo) := by
  apply BitVec.eq_of_getLsbD_eq
  intro k hk
  by_cases hlo : k < lo
  · simp [hlo]
  · have hsplit : lo + (k - lo) = k := by omega
    simp [operandField, hlo, hk, hsplit, Bool.and_comm]

/-- Packing the extracted fields clears the reserved bits: the four field masks together are the mask of R182. -/
theorem configPack_operandFields (c : Word64) :
    configPack (operandField c 0 5) (operandField c 8 2) (operandField c 16 16) (operandField c 32 8) =
      c &&& 0x000000FFFFFF031F#64 := by
  have hid := operandField_shiftLeft c 0 5
  rw [BitVec.shiftLeft_zero] at hid
  have hmask : (BitVec.allOnes 5).setWidth 64 <<< 0 ||| (BitVec.allOnes 2).setWidth 64 <<< 8
      ||| (BitVec.allOnes 16).setWidth 64 <<< 16 ||| (BitVec.allOnes 8).setWidth 64 <<< 32 =
        0x000000FFFFFF031F#64 := by decide
  rw [configPack, operandField_operandField c _ (by decide), operandField_operandField c _ (by decide),
    operandField_operandField c _ (by decide), operandField_operandField c _ (by decide), hid,
    operandField_shiftLeft, operandField_shiftLeft, operandField_shiftLeft, ← BitVec.and_or_distrib_left,
    ← BitVec.and_or_distrib_left, ← BitVec.and_or_distrib_left, hmask]

/-- Settles O49: the fields of a packed value are its operands, and the packed fields of a value are the value
under the mask of the four fields. -/
theorem endpointConfigLaws : Obligations.EndpointConfigLaws := by
  refine ⟨fun s u hs hu hid htype hmps hival => ⟨_, exec_epcfgMake_of_live s hs, fun hcfg => ?_⟩,
    fun s u hs hu => ⟨_, _, _, _, exec_epcfgEpid_of_live u hu, exec_epcfgType_of_live u hu,
      exec_epcfgMps_of_live u hu, exec_epcfgIval_of_live u hu, fun h0 h1 h2 h3 => ?_⟩⟩
  · replace hcfg : u.port.arg0 = configPack s.port.arg0 s.port.arg1 s.port.arg2 s.port.arg3 := hcfg
    obtain ⟨hepid, hkind, hsize, hinterval⟩ := operandField_configPack hid htype hmps hival
    rw [exec_epcfgEpid_of_live u hu, exec_epcfgType_of_live u hu, exec_epcfgMps_of_live u hu,
      exec_epcfgIval_of_live u hu, hcfg, hepid, hkind, hsize, hinterval]
    exact ⟨rfl, rfl, rfl, rfl⟩
  · rw [exec_epcfgMake_of_live s hs, h0, h1, h2, h3]
    exact congrArg (fun v => Host.Outcome.next (s.withResult 0 v)) (configPack_operandFields u.port.arg0)

end Sys2Proof.Machine
end

section
/-! PROOFS. The errors and the halt of 60_exceptions.md: what the checks of the dispatcher refuse (R216 to R221), and
what a halted block still does (R217). -/

namespace Sys2Proof.Machine

/-! ### Instances the dispatcher refuses (R219 to R221) -/

theorem State.onRing_badIndex (s : State) {k : Nat} (need : Lifecycle) (run : Ring → Outcome) (hl : s.live)
    (hk : s.rings.length ≤ k) : s.onRing k need run = .next (s.withResult 0x80000005#32 0) := by
  obtain ⟨-, -, hbad, -⟩ := s.takeFault_withResult
  rw [State.onRing, s.unlessHalted_live _ hl, List.getElem?_eq_none hk, hbad]

theorem State.onEventRing_badIndex (s : State) {k : Nat} (need : Lifecycle) (run : EventRing → Outcome) (hl : s.live)
    (hk : s.erings.length ≤ k) : s.onEventRing k need run = .next (s.withResult 0x80000005#32 0) := by
  obtain ⟨-, -, hbad, -⟩ := s.takeFault_withResult
  rw [State.onEventRing, s.unlessHalted_live _ hl, List.getElem?_eq_none hk, hbad]

/-- Settles O10: under the invariants the parameters are the numbers of instances held, and the dispatcher finds
none at the index. -/
theorem badIndexFaults : Obligations.BadIndexFaults := by
  refine fun s k hl => ⟨fun hk => ?_, fun hk => ?_⟩
  · have hlen : s.rings.length ≤ k := hk.elim id fun ⟨hinv, hn⟩ => hinv.ringCount.trans_le hn
    simp only [List.forall_mem_cons, List.not_mem_nil, false_implies, implies_true, and_true]
    exact ⟨s.onRing_badIndex _ _ hl hlen, s.onRing_badIndex _ _ hl hlen, s.onRing_badIndex _ _ hl hlen⟩
  · have hlen : s.erings.length ≤ k := hk.elim id fun ⟨hinv, hn⟩ => hinv.eringCount.trans_le hn
    simp only [List.forall_mem_cons, List.not_mem_nil, false_implies, implies_true, and_true]
    exact ⟨s.onEventRing_badIndex _ _ hl hlen, s.onEventRing_badIndex _ _ hl hlen,
      s.onEventRing_badIndex _ _ hl hlen, s.onEventRing_badIndex _ _ hl hlen⟩

theorem State.onRing_wrongState (s : State) {k : Nat} {need : Lifecycle} (run : Ring → Outcome) {r : Ring}
    (hl : s.live) (hr : s.rings[k]? = some r) (hs : r.state ≠ need) :
    s.onRing k need run = .next (s.takeFault (wrongState need)) := by
  rw [State.onRing, s.unlessHalted_live _ hl, hr]
  exact if_neg hs

theorem State.onEventRing_wrongState (s : State) {k : Nat} {need : Lifecycle} (run : EventRing → Outcome)
    {e : EventRing} (hl : s.live) (he : s.erings[k]? = some e) (hs : e.state ≠ need) :
    s.onEventRing k need run = .next (s.takeFault (wrongState need)) := by
  rw [State.onEventRing, s.unlessHalted_live _ hl, he]
  exact if_neg hs

theorem Lifecycle.ne_uninit_of {l : Lifecycle} (h : l = .ready ∨ l = .failed) : l ≠ .uninit := by
  rcases h with rfl | rfl <;> decide

theorem Lifecycle.ne_ready_of {l : Lifecycle} (h : l = .uninit ∨ l = .failed) : l ≠ .ready := by
  rcases h with rfl | rfl <;> decide

/-- Settles O11: `INIT` needs `UNINIT`, and the fault of that check is `ALREADY_INITIALIZED`. -/
theorem secondInitFaults : Obligations.SecondInitFaults := by
  intro s k hl
  obtain ⟨-, hcode, -, -⟩ := s.takeFault_withResult
  rw [← hcode]
  exact ⟨fun _ hr hs => s.onRing_wrongState _ hl hr (Lifecycle.ne_uninit_of hs),
    fun _ he hs => s.onEventRing_wrongState _ hl he (Lifecycle.ne_uninit_of hs)⟩

/-- Settles O12: every other command needs `READY`, and the fault of that check is `NOT_INITIALIZED`. -/
theorem useBeforeInitFaults : Obligations.UseBeforeInitFaults := by
  intro s k hl
  obtain ⟨hcode, -, -, -⟩ := s.takeFault_withResult
  rw [← hcode]
  simp only [List.forall_mem_cons, List.not_mem_nil, false_implies, implies_true, and_true]
  refine ⟨fun r hr hs => ?_, fun e he hs => ?_⟩
  · have hring (run : Ring → Outcome) : s.onRing k .ready run = .next (s.takeFault .notInitialized) :=
      s.onRing_wrongState run hl hr (Lifecycle.ne_ready_of hs)
    exact ⟨hring _, hring _⟩
  · have hering (run : EventRing → Outcome) : s.onEventRing k .ready run = .next (s.takeFault .notInitialized) :=
      s.onEventRing_wrongState run hl he (Lifecycle.ne_ready_of hs)
    exact ⟨hering _, hering _, hering _⟩

/-! ### Commands on a halted block (R217) -/

/-- The halted check is the first thing every command does (step 1 of R216). -/
theorem exec_eq_unlessHalted (i : Instr) (s : State) : ∃ o, exec i s = s.unlessHalted o := by
  cases i with
  | _ => exact ⟨_, rfl⟩

theorem State.unlessHalted_refuses (s : State) (o : Outcome) (h : s.halted = true) :
    s.unlessHalted o = .next (s.withResult 0x80000007#32 0) := by
  rw [s.unlessHalted_halted o h, s.refuseHalted_halted h]

theorem exec_of_halted (i : Instr) (s : State) (h : s.halted = true) :
    exec i s = .next (s.withResult 0x80000007#32 0) := by
  obtain ⟨o, ho⟩ := exec_eq_unlessHalted i s
  rw [ho, s.unlessHalted_refuses o h]

/-- A halted block answers a word alike whether or not it encodes a command: step 1 of R216 comes before step 2. -/
theorem State.command_of_halted (s : State) (w : Word32) (h : s.halted = true) :
    s.command w = .next (State.withResult { s with port := s.port.withCmd w } 0x80000007#32 0) := by
  unfold State.command
  cases decode w with
  | ok i => exact exec_of_halted i _ h
  | error _ => exact State.unlessHalted_refuses _ _ h

/-! ### Steps of a halted block (R217) -/

theorem step_cons {s : State} {m : Move} {rest : List Move} (h : s.agenda = m :: rest) :
    step s = State.act { s with agenda := rest } m := by
  rw [step, h]

@[simp] theorem State.withResult_halted (s : State) (v : Word32) (r : Word64) :
    (s.withResult v r).halted = v.getLsbD 31 := rfl

/-- No write to a port register reaches `STATUS` (R21). -/
theorem Port.write_status {p q : Port} {off width : Nat} {v : Word64} (h : p.write off width v = some q) :
    q.status = p.status := by
  unfold Port.write at h
  split at h
  case h_15 =>
    split at h
    · cases h; rfl
    · cases h
  all_goals cases h; rfl

theorem State.portWrite_keeps_halt {s t : State} {off width : Nat} {v : Word64} (h : s.halted = true)
    (ht : s.portWrite off width v = .next t) : t.halted = true := by
  unfold State.portWrite at ht
  split at ht
  · rw [s.command_of_halted _ h] at ht
    cases ht
    rw [State.withResult_halted]
    decide
  · split at ht
    next q hq =>
      cases ht
      rw [State.halted, Port.write_status hq]
      exact h
    next => cases ht

theorem State.hostStep_keeps_halt {s t : State} {a : HostAction} (h : s.halted = true)
    (ht : s.hostStep a = .next t) : t.halted = true := by
  cases a with
  | portWrite off width v => exact State.portWrite_keeps_halt h ht
  | portForward off width => exact State.portWrite_keeps_halt h ht
  | portRead | memWrite32 | memRead32 =>
    simp only [State.hostStep, State.portRead] at ht
    split at ht
    · cases ht; exact h
    · cases ht

theorem State.act_keeps_halt {s t : State} {m : Move} (h : s.halted = true) (hm : m ≠ .reset)
    (ht : s.act m = .next t) : t.halted = true := by
  cases m with
  | host a => exact State.hostStep_keeps_halt h ht
  | controller a =>
    cases ht
    rw [State.halted, (s.controllerStep_same a).1.port]
    exact h
  | reset => exact absurd rfl hm
  | block => cases ht; exact h

theorem step_keeps_halt {s t : State} (h : s.halted = true) (hn : noReset s.agenda) (ht : step s = .next t) :
    t.halted = true := by
  cases ha : s.agenda with
  | nil =>
    rw [step, ha] at ht
    cases ht
    exact h
  | cons m rest =>
    rw [step_cons ha] at ht
    refine State.act_keeps_halt (s := { s with agenda := rest }) h (fun hm => hn ?_) ht
    rw [ha, hm]
    exact List.mem_cons_self

/-- Reset clears `FAULT` (R240). -/
theorem State.assertReset_live (s : State) : s.assertReset.live := by
  rw [State.live, State.halted, State.assertReset_port]
  decide

/-! ### Host reads and accesses to DMA memory (R12, R20) -/

theorem State.portRead_of_some {s : State} {off width : Nat} {v : Word64} (h : s.port.read off width = some v) :
    s.portRead off width = .next { s with hostData := v } := by
  rw [State.portRead, h]

theorem State.hostStep_memRead32 (s : State) {a : Word64} (h : a.toNat + 4 ≤ addressSpace) :
    s.hostStep (.memRead32 a) = .next { s with hostData := (s.mem.read32 a.toNat).setWidth 64 } :=
  if_pos ((inAddressSpace_iff _ _).mpr h)

theorem State.hostStep_memWrite32 (s : State) {a : Word64} (v : Word32) (h : a.toNat + 4 ≤ addressSpace) :
    s.hostStep (.memWrite32 a v) = .next { s with mem := s.mem.write32 a.toNat v } :=
  if_pos ((inAddressSpace_iff _ _).mpr h)

/-- Settles O9: each part is one step lemma, on the state whose agenda has lost its first entry. -/
theorem haltedBlockRefusesEveryCommand : Obligations.HaltedBlockRefusesEveryCommand := by
  refine ⟨exec_of_halted, fun s rest w hh ha => ?_, fun s rest off width v _ ha hv => ?_,
    fun s rest a hfits => ⟨fun ha => ?_, fun v ha => ?_⟩, fun s t => step_keeps_halt, fun s rest ha => ?_⟩
  · have hw : (w.setWidth 64).setWidth 32 = w := by simp
    calc step s = State.command { s with agenda := rest } ((w.setWidth 64).setWidth 32) := step_cons ha
      _ = State.command { s with agenda := rest } w := by rw [hw]
      _ = _ := State.command_of_halted _ w hh
  · exact (step_cons ha).trans (State.portRead_of_some hv)
  · exact (step_cons ha).trans (State.hostStep_memRead32 _ hfits)
  · exact (step_cons ha).trans (State.hostStep_memWrite32 _ v hfits)
  · exact ⟨_, step_cons ha, State.assertReset_live _⟩

end Sys2Proof.Machine
end

section
/-! PROOFS. The decoder and the encoder of 30_encoding.md undo each other, and the words R94 calls illegal are the ones
that select no row. -/

namespace Sys2Proof

/-! ### The three fields of a command word (R90) -/

/-- A word is its three fields. -/
theorem word_eq_iff_fields (w v : Word32) :
    w = v ↔ rsvField w = rsvField v ∧ idxField w = idxField v ∧ opField w = opField v := by
  refine ⟨by rintro rfl; exact ⟨rfl, rfl, rfl⟩, fun ⟨hrsv, hidx, hop⟩ => BitVec.eq_of_toNat_eq ?_⟩
  simp only [rsvField, idxField, opField, ← BitVec.toNat_inj, BitVec.extractLsb'_toNat, Nat.shiftRight_eq_div_pow]
    at hrsv hidx hop
  omega

/-- The fields the two kinds of row fix (R93). -/
theorem mask_fields :
    (rsvField maskPlain = BitVec.allOnes 16 ∧ idxField maskPlain = BitVec.allOnes 8 ∧
        opField maskPlain = BitVec.allOnes 8) ∧
      rsvField maskIdx = BitVec.allOnes 16 ∧ idxField maskIdx = 0 ∧ opField maskIdx = BitVec.allOnes 8 := by
  decide

/-- The match value of a row is an operation code alone. -/
theorem opcodeTable_pat_fields : ∀ r ∈ opcodeTable, rsvField r.pat = 0 ∧ idxField r.pat = 0 := by decide

/-- A row is selected by its operation code, reserved bits 0, and `idx` 0 where the row fixes it (R93). -/
theorem OpcodeRow.selects_iff_fields {r : OpcodeRow} (hr : r ∈ opcodeTable) (w : Word32) :
    r.selects w = true ↔ rsvField w = 0 ∧ (r.mask = maskIdx ∨ idxField w = 0) ∧ opField w = opField r.pat := by
  obtain ⟨hrsv, hidx⟩ := opcodeTable_pat_fields r hr
  obtain ⟨⟨hrsvPlain, hidxPlain, hopPlain⟩, hrsvIdx, hidxIdx, hopIdx⟩ := mask_fields
  have hfields (m : Word32) : w &&& m = r.pat ↔ rsvField w &&& rsvField m = 0 ∧
      idxField w &&& idxField m = 0 ∧ opField w &&& opField m = opField r.pat := by
    rw [word_eq_iff_fields, hrsv, hidx]
    simp only [rsvField, idxField, opField, BitVec.extractLsb'_and]
  have hne : maskPlain ≠ maskIdx := by decide
  obtain ⟨hmask, -⟩ | ⟨hmask, -⟩ := opcodeTable_row_kinds r hr
  · rw [r.selects_iff, hfields, hmask, hrsvPlain, hidxPlain, hopPlain]
    simp only [BitVec.and_allOnes, hne, false_or]
  · rw [r.selects_iff, hfields, hmask, hrsvIdx, hidxIdx, hopIdx]
    simp only [BitVec.and_allOnes, BitVec.ofNat_eq_ofNat, BitVec.and_zero, true_or, true_and]

/-! ### The decoder (R93) -/

/-- A word that selects a row decodes to the row's command: no other row is selected. -/
theorem decode_of_selects {r : OpcodeRow} (hr : r ∈ opcodeTable) {w : Word32} (h : r.selects w = true) :
    decode w = .ok (r.command (idxField w).toNat) := by
  unfold decode
  cases hf : opcodeTable.find? fun r => r.selects w with
  | none => exact absurd h (List.find?_eq_none.mp hf r hr)
  | some r' =>
    have hr' : r' ∈ opcodeTable := List.mem_of_find?_eq_some hf
    have hw' : r'.selects w = true := by simpa using List.find?_some hf
    by_cases heq : r' = r
    · rw [heq]
    · have hsymm : Std.Symm fun a b : OpcodeRow => ∀ w : Word32, ¬(a.selects w = true ∧ b.selects w = true) :=
        ⟨fun _ _ hab w hw => hab w hw.symm⟩
      exact absurd ⟨hw', h⟩ (opcodeTable_rows_disjoint.forall hr' hr heq w)

theorem decode_eq_ok_iff (w : Word32) (i : Instr) :
    decode w = .ok i ↔ ∃ r ∈ opcodeTable, r.selects w = true ∧ i = r.command (idxField w).toNat := by
  refine ⟨fun h => ?_, fun ⟨r, hr, hw, hi⟩ => hi ▸ decode_of_selects hr hw⟩
  unfold decode at h
  split at h
  · next r hf =>
    cases h
    exact ⟨r, List.mem_of_find?_eq_some hf, by simpa using List.find?_some hf, rfl⟩
  · cases h

/-- The decoder refuses a word exactly when it selects no row. -/
theorem decode_error_iff (w : Word32) :
    (∃ e, decode w = .error e) ↔ ∀ r ∈ opcodeTable, ¬r.selects w = true := by
  refine ⟨fun ⟨e, he⟩ r hr hw => ?_, fun h => ?_⟩
  · rw [decode_of_selects hr hw] at he
    cases he
  · cases hd : decode w with
    | error e => exact ⟨e, rfl⟩
    | ok i =>
      obtain ⟨r, hr, hw, -⟩ := (decode_eq_ok_iff w i).mp hd
      exact absurd hw (h r hr)

/-! ### Encoding and decoding (R90 to R93) -/

/-- The fields of the word of a well-formed command. -/
theorem encode_fields (i : Instr) : Laws.EncodeFields.Statement i := by
  cases i with
  | poolAlloc => exact Laws.EncodeFields.poolAlloc
  | poolAllocArr => exact Laws.EncodeFields.poolAllocArr
  | poolFree => exact Laws.EncodeFields.poolFree
  | ringInit k => exact Laws.EncodeFields.ringInit k
  | ringPush k => exact Laws.EncodeFields.ringPush k
  | ringBuf k => exact Laws.EncodeFields.ringBuf k
  | erInit k => exact Laws.EncodeFields.erInit k
  | erHasFront k => exact Laws.EncodeFields.erHasFront k
  | erFront k => exact Laws.EncodeFields.erFront k
  | erPop k => exact Laws.EncodeFields.erPop k
  | epidMake => exact Laws.EncodeFields.epidMake
  | epidAddr => exact Laws.EncodeFields.epidAddr
  | epidNum => exact Laws.EncodeFields.epidNum
  | epidIsIn => exact Laws.EncodeFields.epidIsIn
  | epcfgMake => exact Laws.EncodeFields.epcfgMake
  | epcfgEpid => exact Laws.EncodeFields.epcfgEpid
  | epcfgType => exact Laws.EncodeFields.epcfgType
  | epcfgMps => exact Laws.EncodeFields.epcfgMps
  | epcfgIval => exact Laws.EncodeFields.epcfgIval

/-- Every command stands in a row of the table, under its own operation code. -/
theorem exists_row_of_instr (i : Instr) : ∃ r ∈ opcodeTable, r.pat = i.opcode ∧ r.command i.idx = i := by
  cases i <;> simp [opcodeTable, Instr.opcode, Instr.idx]

/-- The command of a row has the row's match value as its operation code. -/
theorem opcode_command : ∀ r ∈ opcodeTable, ∀ k, (r.command k).opcode = r.pat := by
  simp [opcodeTable, Instr.opcode]

/-- Settles O1: the word of a command has the fields that select the command's own row. -/
theorem decodeOfEncodeIsCommand : Obligations.DecodeOfEncodeIsCommand := by
  intro i hwf
  obtain ⟨hop, hidx, hrsv⟩ := encode_fields i hwf
  obtain ⟨r, hr, hpat, hcommand⟩ := exists_row_of_instr i
  have hfree : r.mask = maskIdx ∨ i.idx = 0 := (OpcodeRow.command_idx_iff hr i.idx).mp (congrArg Instr.idx hcommand)
  have hselects : r.selects (encode i) = true := by
    refine (OpcodeRow.selects_iff_fields hr _).mpr ⟨hrsv, hfree.imp_right fun h0 => ?_, ?_⟩
    · exact BitVec.eq_of_toNat_eq (hidx.trans h0)
    · rw [hop, hpat]
      rfl
  rw [decode_of_selects hr hselects, hidx, hcommand]

/-- The instance number a row's command takes from a word that selects the row. -/
theorem OpcodeRow.idx_command_of_selects {r : OpcodeRow} (hr : r ∈ opcodeTable) {w : Word32}
    (h : r.selects w = true) : (r.command (idxField w).toNat).idx = (idxField w).toNat := by
  obtain ⟨-, hfree, -⟩ := (OpcodeRow.selects_iff_fields hr w).mp h
  exact (OpcodeRow.command_idx_iff hr _).mpr (hfree.imp_right fun h0 => by rw [h0]; rfl)

/-- Settles O2: a word and the word of the command it decodes to have the same fields. -/
theorem decodedWordIsEncoding : Obligations.DecodedWordIsEncoding := by
  intro w i h
  obtain ⟨r, hr, hw, rfl⟩ := (decode_eq_ok_iff w i).mp h
  obtain ⟨hrsvW, -, hopW⟩ := (OpcodeRow.selects_iff_fields hr w).mp hw
  have hnumber := OpcodeRow.idx_command_of_selects hr hw
  have hwf : (r.command (idxField w).toNat).wellFormed = true := by
    simpa [Instr.wellFormed, hnumber] using (idxField w).isLt
  obtain ⟨hop, hidx, hrsv⟩ := encode_fields _ hwf
  refine ⟨hwf, (word_eq_iff_fields _ _).mpr ⟨hrsv.trans hrsvW.symm, ?_, ?_⟩⟩
  · exact BitVec.eq_of_toNat_eq (hidx.trans hnumber)
  · rw [hop, hopW, opcode_command r hr]
    rfl

/-! ### Illegal words (R94) -/

/-- A row's operation code as a number. -/
theorem opField_eq_iff_toNat {r : OpcodeRow} (hr : r ∈ opcodeTable) (w : Word32) :
    opField w = opField r.pat ↔ r.pat.toNat = (opField w).toNat := by
  have hlt := opcodeTable_pat_lt r hr
  rw [← BitVec.toNat_inj, opField, opField, BitVec.extractLsb'_toNat (x := r.pat), Nat.shiftRight_zero,
    Nat.mod_eq_of_lt hlt, eq_comm]

/-- The nineteen operation codes, and those of them that take an instance, in the order of R91. -/
theorem opcodeTable_codes :
    opcodeTable.map (·.pat.toNat) =
        [0x01, 0x02, 0x03, 0x10, 0x11, 0x12, 0x20, 0x21, 0x22, 0x23, 0x30, 0x31, 0x32, 0x33,
          0x38, 0x39, 0x3A, 0x3B, 0x3C] ∧
      (opcodeTable.filter (·.mask = maskIdx)).map (·.pat.toNat) =
        [0x10, 0x11, 0x12, 0x20, 0x21, 0x22, 0x23] := by decide

/-- Settles O4: a word selects a row when its `op` is listed, its reserved bits are 0, and its `idx` is 0 or
its `op` that of a row that leaves `idx` free. -/
theorem illegalWordsAreExactlyTheUnlisted : Obligations.IllegalWordsAreExactlyTheUnlisted := by
  intro w
  obtain ⟨hcodes, hidxCodes⟩ := opcodeTable_codes
  rw [decode_error_iff, ← hcodes, ← hidxCodes]
  simp only [List.mem_map, List.mem_filter, decide_eq_true_eq]
  change _ ↔ (¬∃ r ∈ opcodeTable, r.pat.toNat = (opField w).toNat) ∨ rsvField w ≠ 0 ∨
    (idxField w ≠ 0 ∧ ¬∃ r, (r ∈ opcodeTable ∧ r.mask = maskIdx) ∧ r.pat.toNat = (opField w).toNat)
  constructor
  · intro hnone
    by_contra hlegal
    push Not at hlegal
    obtain ⟨⟨r, hr, hop⟩, hrsv, hidx⟩ := hlegal
    by_cases h0 : idxField w = 0
    · exact hnone r hr ((OpcodeRow.selects_iff_fields hr w).mpr ⟨hrsv, .inr h0, (opField_eq_iff_toNat hr w).mpr hop⟩)
    · obtain ⟨q, ⟨hq, hmask⟩, hop⟩ := hidx h0
      exact hnone q hq ((OpcodeRow.selects_iff_fields hq w).mpr ⟨hrsv, .inl hmask, (opField_eq_iff_toNat hq w).mpr hop⟩)
  · intro hillegal r hr hw
    obtain ⟨hrsv, hfree, hop⟩ := (OpcodeRow.selects_iff_fields hr w).mp hw
    rw [opField_eq_iff_toNat hr] at hop
    rcases hillegal with hunlisted | hreserved | ⟨h0, hplain⟩
    · exact hunlisted ⟨r, hr, hop⟩
    · exact hreserved hrsv
    · exact hfree.elim (fun hmask => hplain ⟨r, ⟨hr, hmask⟩, hop⟩) h0

/-- Settles O5: ten words, one of each family among them, through the whole decoder. -/
theorem writtenOutWordsDecode : Obligations.WrittenOutWordsDecode := by
  unfold Obligations.WrittenOutWordsDecode
  decide

end Sys2Proof
end

section
/-! PROOFS. The controller of 44_controller_agent.md: what each of its steps does, what no step of it touches, and
the consume, link and produce steps. -/

namespace Sys2Proof.Machine

/-! ### The bits of a 64-bit access (R61) -/

/-- The bits of what is read are those of the bytes read, the lowest byte first. -/
theorem Memory.testBit_read (m : Memory) (a n k : Nat) :
    (m.read a n).testBit k = (decide (k < 8 * n) && (m.peek (a + k / 8)).getLsbD (k % 8)) := by
  induction n generalizing a k with
  | zero => simp
  | succ n ih =>
    have hbyte : (m.peek a).toNat < 2 ^ 8 := (m.peek a).isLt
    rw [Memory.read_succ, Nat.add_comm, Nat.testBit_two_pow_mul_add _ hbyte]
    by_cases hk : k < 8
    · have hlow : k / 8 = 0 ∧ k % 8 = k ∧ k < 8 * (n + 1) := by omega
      obtain ⟨hdiv, hmod, hlt⟩ := hlow
      rw [if_pos hk, hdiv, hmod, decide_eq_true hlt, Bool.true_and]
      rfl
    · have hhigh : a + 1 + (k - 8) / 8 = a + k / 8 ∧ (k - 8) % 8 = k % 8 ∧ (k - 8 < 8 * n ↔ k < 8 * (n + 1)) := by
        omega
      obtain ⟨haddr, hmod, hlt⟩ := hhigh
      rw [if_neg hk, ih, haddr, hmod, decide_eq_decide.mpr hlt]

theorem Memory.getLsbD_read64 (m : Memory) (a k : Nat) (hk : k < 64) :
    (m.read64 a).getLsbD k = (m.peek (a + k / 8)).getLsbD (k % 8) := by
  rw [Memory.read64, BitVec.getLsbD_ofNat, Memory.testBit_read, decide_eq_true hk, Bool.true_and, Bool.true_and]

/-- The bits of every byte after a 64-bit write. -/
theorem Memory.getLsbD_peek_write64 (m : Memory) (a x i : Nat) (v : Word64) (hi : i < 8) :
    ((m.write64 a v).peek x).getLsbD i =
      if a ≤ x ∧ x < a + 8 then v.getLsbD (8 * (x - a) + i) else (m.peek x).getLsbD i := by
  rw [Memory.write64, Memory.peek_write]
  split
  · have hpow : 256 ^ (x - a) = 2 ^ (8 * (x - a)) := by rw [Nat.pow_mul]
    rw [BitVec.getLsbD_ofNat, decide_eq_true hi, Bool.true_and, hpow, Nat.testBit_div_two_pow, BitVec.getLsbD,
      Nat.add_comm i]
  · rfl

/-- A 64-bit write of a value that differs from what is there only in bits 3:0 changes bits 3:0 of the first byte
and nothing else. -/
theorem Memory.getLsbD_peek_write64_low (m : Memory) (a x i : Nat) (v : Word64) (hi : i < 8)
    (hv : ∀ k, 4 ≤ k → k < 64 → v.getLsbD k = (m.read64 a).getLsbD k) (hx : x ≠ a ∨ 4 ≤ i) :
    ((m.write64 a v).peek x).getLsbD i = (m.peek x).getLsbD i := by
  rw [m.getLsbD_peek_write64 a x i v hi]
  split
  · have haddr : a + (8 * (x - a) + i) / 8 = x ∧ (8 * (x - a) + i) % 8 = i := by omega
    obtain ⟨hbyte, hbit⟩ := haddr
    rw [hv _ (by omega) (by omega), m.getLsbD_read64 a _ (by omega), hbyte, hbit]
  · rfl

/-! ### What each step of the controller does -/

theorem Producer.mayProduce_iff (p : Producer) (dequeue : Word64) :
    p.mayProduce dequeue = true ↔
      p.nextEnq ≠ dequeue.toNat ∧ p.enq.toNat + 16 ≤ addressSpace ∧ p.nextEnq < addressSpace := by
  simp [Producer.mayProduce, and_assoc]

/-- The producer of an interrupter may write the slot at its `h_eq`. -/
def State.ProducerReady (s : State) (regs : Nat) (p : Producer) : Prop :=
  tableGet s.producers regs = some p ∧ p.mayProduce (erdpPtr (s.erdp regs)) = true

theorem State.writeWord_of_ready {s : State} {regs : Nat} {p : Producer} (h : s.ProducerReady regs p) (k : Fin 3)
    (v : Word32) : s.writeWord regs k v = { s with mem := s.mem.write32 (p.enq.toNat + 4 * k.val) v } := by
  obtain ⟨hget, hmay⟩ := h
  rw [State.writeWord, hget]
  exact if_pos hmay

theorem State.produce_of_ready {s : State} {regs : Nat} {p : Producer} (h : s.ProducerReady regs p) (e : Entry) :
    s.produce regs e =
      { s with
        mem := s.mem.writeEntry p.enq.toNat { e with w3 := stamp e.w3 p.pcs }
        producers := tablePut s.producers regs p.advance } := by
  obtain ⟨hget, hmay⟩ := h
  rw [State.produce, hget]
  exact if_pos hmay

theorem State.produce_of_not_mayProduce {s : State} {regs : Nat} {p : Producer} (h : tableGet s.producers regs = some p)
    (hmay : ¬p.mayProduce (erdpPtr (s.erdp regs)) = true) (e : Entry) : s.produce regs e = s := by
  rw [State.produce, h]
  exact if_neg hmay

theorem State.writeWord_of_not_ready {s : State} {regs : Nat} (h : ∀ p, ¬s.ProducerReady regs p) (k : Fin 3)
    (v : Word32) : s.writeWord regs k v = s := by
  unfold State.writeWord
  split
  · rfl
  · next p hp => exact if_neg fun hmay => h p ⟨hp, hmay⟩

theorem State.produce_of_not_ready {s : State} {regs : Nat} (h : ∀ p, ¬s.ProducerReady regs p) (e : Entry) :
    s.produce regs e = s := by
  unfold State.produce
  split
  · rfl
  · next p hp => exact if_neg fun hmay => h p ⟨hp, hmay⟩

/-- The state with what the controller holds for Ring `i` replaced. -/
def State.withConsumer (s : State) (i : Nat) (c : Consumer) : State :=
  { s with consumers := s.consumers.set i (some c) }

theorem State.consume_of_some {s : State} {i : Nat} {c : Consumer} (h : s.consumers[i]? = some (some c)) :
    s.consume i = s.withConsumer i (c.look s.mem) := by
  rw [State.consume, h]
  rfl

theorem State.consume_of_none {s : State} {i : Nat} (h : s.consumers[i]? = some none) : s.consume i = s := by
  rw [State.consume, h]

/-- Everything a step of the controller can do: nothing, or the one effect of its kind. -/
inductive ControllerEffect (s : State) : ControllerAction → State → Prop
  | none (a : ControllerAction) : ControllerEffect s a s
  | told (i : Nat) (c : Consumer) : ControllerEffect s (.tellRing i) (s.withConsumer i c)
  | consumed (i : Nat) (c : Consumer) : ControllerEffect s (.consume i) (s.withConsumer i c)
  | wroteWord (regs : Nat) (k : Fin 3) (v : Word32) (p : Producer) : s.ProducerReady regs p →
      ControllerEffect s (.writeWord regs k v) { s with mem := s.mem.write32 (p.enq.toNat + 4 * k.val) v }
  | produced (regs : Nat) (e : Entry) (p : Producer) : s.ProducerReady regs p →
      ControllerEffect s (.produce regs e)
        { s with
          mem := s.mem.writeEntry p.enq.toNat { e with w3 := stamp e.w3 p.pcs }
          producers := tablePut s.producers regs p.advance }
  | latched (regs : Nat) (v : BitVec 4) : s.isInterrupter regs = true → regs + interrupterBytes ≤ addressSpace →
      ControllerEffect s (.latch regs v)
        { s with mmio := s.mmio.write64 (regs + erdpOffset) (erdpPtr (s.erdp regs) ||| v.setWidth 64) }

theorem State.controllerStep_effect (s : State) (a : ControllerAction) : ControllerEffect s a (s.controllerStep a) := by
  cases a with
  | tellRing i =>
    simp only [State.controllerStep, State.tellRing]
    split
    · exact .none _
    · split
      · exact .told i _
      · exact .none _
  | consume i =>
    simp only [State.controllerStep, State.consume]
    split
    · exact .consumed i _
    · exact .none _
    · exact .none _
  | writeWord regs k v =>
    by_cases h : ∃ p, s.ProducerReady regs p
    · obtain ⟨p, hp⟩ := h
      rw [State.controllerStep, State.writeWord_of_ready hp]
      exact .wroteWord regs k v p hp
    · rw [State.controllerStep, State.writeWord_of_not_ready fun p hp => h ⟨p, hp⟩]
      exact .none _
  | produce regs e =>
    by_cases h : ∃ p, s.ProducerReady regs p
    · obtain ⟨p, hp⟩ := h
      rw [State.controllerStep, State.produce_of_ready hp]
      exact .produced regs e p hp
    · rw [State.controllerStep, State.produce_of_not_ready fun p hp => h ⟨p, hp⟩]
      exact .none _
  | latch regs v =>
    simp only [State.controllerStep, State.latch]
    split
    · next h =>
      obtain ⟨hi, hr⟩ := Bool.and_eq_true_iff.mp h
      exact .latched regs v hi (of_decide_eq_true hr)
    · exact .none _

/-- A latched value has the pointer bits of the register. -/
theorem getLsbD_erdpPtr_or_status (old : Word64) (v : BitVec 4) {k : Nat} (h4 : 4 ≤ k) (h64 : k < 64) :
    (erdpPtr old ||| v.setWidth 64).getLsbD k = old.getLsbD k := by
  rw [BitVec.getLsbD_or, erdpPtr, BitVec.getLsbD_and, getLsbD_erdpPtrMask, BitVec.getLsbD_setWidth,
    v.getLsbD_of_ge k h4]
  simp [h4, h64]

/-! ### What the controller never does (R194, R199, R202) -/

/-- The bytes of DMA memory a step of the controller changes lie in the slot at a `h_eq` that is not full. -/
theorem State.controllerStep_mem_changes {s : State} {a : ControllerAction} {x : Nat}
    (h : (s.controllerStep a).mem.peek x ≠ s.mem.peek x) :
    ∃ regs p, tableGet s.producers regs = some p ∧ p.nextEnq ≠ (erdpPtr (s.erdp regs)).toNat ∧
      ((∃ e, a = .produce regs e ∧ p.enq.toNat ≤ x ∧ x < p.enq.toNat + 16) ∨
        ∃ k v, a = .writeWord regs k v ∧ p.enq.toNat ≤ x ∧ x < p.enq.toNat + 12) := by
  have heff := s.controllerStep_effect a
  generalize s.controllerStep a = t at h heff
  cases heff with
  | none | told | consumed | latched => exact absurd rfl h
  | wroteWord regs k v p hp =>
    obtain ⟨hnext, -, -⟩ := (p.mayProduce_iff _).mp hp.2
    refine ⟨regs, p, hp.1, hnext, .inr ⟨k, v, rfl, ?_⟩⟩
    by_contra hout
    have := k.isLt
    exact h (Memory.peek_write_outside _ _ _ _ _ (by omega))
  | produced regs e p hp =>
    obtain ⟨hnext, -, -⟩ := (p.mayProduce_iff _).mp hp.2
    refine ⟨regs, p, hp.1, hnext, .inl ⟨e, rfl, ?_⟩⟩
    by_contra hout
    exact h (Memory.peek_writeEntry_outside _ _ _ _ (by omega))

/-- The bits of the register space a step of the controller leaves alone: all but bits 3:0 of a latched `ERDP`. -/
theorem State.controllerStep_mmio_bit (s : State) (a : ControllerAction) (x : Nat) {i : Nat} (hi : i < 8)
    (h : 4 ≤ i ∨ ∀ regs v, a = .latch regs v → x ≠ regs + erdpOffset) :
    ((s.controllerStep a).mmio.peek x).getLsbD i = (s.mmio.peek x).getLsbD i := by
  have heff := s.controllerStep_effect a
  generalize s.controllerStep a = t at heff
  cases heff with
  | none | told | consumed | wroteWord | produced => rfl
  | latched regs v =>
    exact Memory.getLsbD_peek_write64_low _ _ _ _ _ hi (fun k h4 h64 => getLsbD_erdpPtr_or_status _ v h4 h64)
      (h.symm.imp_left fun hx => hx regs v rfl)

/-- Settles O52: of each kind of step, the bytes written. -/
theorem controllerWritesOnlyItsOwn : Obligations.ControllerWritesOnlyItsOwn := by
  refine fun s a => ⟨fun x => State.controllerStep_mem_changes, fun x hx => ?_, fun x => ?_⟩
  · by_contra hno
    refine hx (BitVec.eq_of_getLsbD_eq fun i hi => s.controllerStep_mmio_bit a x hi (.inr fun regs v ha hxr => ?_))
    exact hno ⟨regs, v, ha, hxr⟩
  · refine BitVec.eq_of_getLsbD_eq fun i hi => ?_
    rw [BitVec.getLsbD_and, BitVec.getLsbD_and]
    by_cases h4 : 4 ≤ i
    · rw [s.controllerStep_mmio_bit a x hi (.inl h4)]
    · have hmask : (0xF0#8).getLsbD i = false := by
        interval_cases i <;> rfl
      rw [hmask, Bool.and_false, Bool.and_false]

/-! ### The produce step (R198, R199) -/

theorem Producer.wraps_iff (p : Producer) :
    p.wraps = true ↔ p.enq.toNat + 16 = p.base.toNat + 16 * p.size.toNat := beq_iff_eq

theorem Producer.nextEnq_eq (p : Producer) :
    p.nextEnq = if p.enq.toNat + 16 = p.base.toNat + 16 * p.size.toNat then p.base.toNat else p.enq.toNat + 16 := by
  simp only [Producer.nextEnq, p.wraps_iff]

theorem Producer.advance_eq (p : Producer) :
    p.advance = { p with
      enq := BitVec.ofNat 64 p.nextEnq
      pcs := if p.enq.toNat + 16 = p.base.toNat + 16 * p.size.toNat then !p.pcs else p.pcs } := by
  simp only [Producer.advance, p.wraps_iff]

/-- Settles O51: the step is refused by the full rule, or writes the slot and advances. -/
theorem produceStepAndFullRule : Obligations.ProduceStepAndFullRule := by
  intro s regs p e hget
  simp only [← p.nextEnq_eq]
  refine ⟨fun hfull => ?_, fun hnext hslot hlt => ?_⟩
  · exact State.produce_of_not_mayProduce hget (fun hmay => ((p.mayProduce_iff _).mp hmay).1 hfull) e
  · have hstep := State.produce_of_ready ⟨hget, (p.mayProduce_iff _).mpr ⟨hnext, hslot, hlt⟩⟩ e
    simp only [State.controllerStep, hstep, Memory.entryAt_writeEntry, tableGet_put, p.advance_eq, if_true]
    exact ⟨trivial, rfl, fun x hx => Memory.peek_writeEntry_outside _ _ _ _ hx, trivial,
      fun x hx => if_neg (Ne.symm hx)⟩

/-! ### The reads of the consumer (R191 to R193) -/

/-- A consumer with other words read so far. -/
def Consumer.withGot (c : Consumer) (l : List Word32) : Consumer := { c with got := l }

@[simp] theorem Consumer.withGot_got (c : Consumer) (l : List Word32) : (c.withGot l).got = l := rfl
@[simp] theorem Consumer.withGot_withGot (c : Consumer) (l l' : List Word32) :
    (c.withGot l).withGot l' = c.withGot l' := rfl

theorem Consumer.look_stale {mem : Memory} {c : Consumer} (hgot : c.got = [])
    (h : cycleOf (mem.read32 (c.dq.toNat + 12)) ≠ c.ccs) : c.look mem = c := by
  simp only [Consumer.look, hgot]
  exact if_neg h

theorem Consumer.look_first {mem : Memory} {c : Consumer} (hgot : c.got = [])
    (h : cycleOf (mem.read32 (c.dq.toNat + 12)) = c.ccs) :
    c.look mem = c.withGot [mem.read32 (c.dq.toNat + 12)] := by
  simp only [Consumer.look, hgot]
  exact if_pos h

theorem Consumer.look_second {mem : Memory} {c : Consumer} {w3 : Word32} (hgot : c.got = [w3]) :
    c.look mem = c.withGot [w3, mem.read32 c.dq.toNat] := by
  simp only [Consumer.look, hgot]
  rfl

theorem Consumer.look_link {mem : Memory} {c : Consumer} {w3 w0 : Word32} (hgot : c.got = [w3, w0])
    (h : isLink w3 = true) : c.look mem = c.follow w3 w0 (mem.read32 (c.dq.toNat + 4)) := by
  simp only [Consumer.look, hgot]
  exact if_pos h

theorem Consumer.look_third {mem : Memory} {c : Consumer} {w3 w0 : Word32} (hgot : c.got = [w3, w0])
    (h : ¬isLink w3 = true) : c.look mem = c.withGot [w3, w0, mem.read32 (c.dq.toNat + 4)] := by
  simp only [Consumer.look, hgot]
  exact if_neg h

theorem Consumer.look_last {mem : Memory} {c : Consumer} {w3 w0 w1 : Word32} (hgot : c.got = [w3, w0, w1]) :
    c.look mem = c.take { w0 := w0, w1 := w1, w2 := mem.read32 (c.dq.toNat + 8), w3 := w3 } := by
  simp only [Consumer.look, hgot]

theorem Consumer.take_of_lt {c : Consumer} (e : Entry) (h : c.dq.toNat + 16 < addressSpace) :
    c.take e = { c with dq := c.dq + 16, got := [], taken := c.taken ++ [e] } := by
  have hdq : BitVec.ofNat 64 (c.dq.toNat + 16) = c.dq + 16 := by
    rw [BitVec.ofNat_add, BitVec.ofNat_toNat, BitVec.setWidth_eq]
    rfl
  rw [Consumer.take, if_pos h, hdq]

@[simp] theorem State.withConsumer_mem (s : State) (i : Nat) (c : Consumer) : (s.withConsumer i c).mem = s.mem := rfl

theorem State.withConsumer_self {s : State} {i : Nat} {c : Consumer} (h : s.consumers[i]? = some (some c)) :
    s.withConsumer i c = s := by
  obtain ⟨_, hc⟩ := List.getElem?_eq_some_iff.mp h
  rw [State.withConsumer, ← hc, List.set_getElem_self]

/-- Reads of one Ring's consumer, one after the other, only move that consumer. -/
theorem State.consume_iterate {s : State} {i : Nat} {c : Consumer} (h : s.consumers[i]? = some (some c)) (n : Nat) :
    (fun t => State.controllerStep t (.consume i))^[n] s = s.withConsumer i ((Consumer.look s.mem)^[n] c) := by
  have hi : i < s.consumers.length := (List.getElem?_eq_some_iff.mp h).1
  induction n with
  | zero => exact (State.withConsumer_self h).symm
  | succ n ih =>
    have hnow : (s.withConsumer i ((Consumer.look s.mem)^[n] c)).consumers[i]? =
        some (some ((Consumer.look s.mem)^[n] c)) := List.getElem?_set_self hi
    rw [Function.iterate_succ_apply', Function.iterate_succ_apply', ih, State.controllerStep,
      State.consume_of_some hnow, State.withConsumer_mem]
    simp only [State.withConsumer, List.set_set]

theorem isLink_iff (w : Word32) : isLink w = true ↔ w.extractLsb' 10 6 = 6 := beq_iff_eq

/-- Four reads pass a plain entry with the expected cycle bit (R192). -/
theorem Consumer.look_four {mem : Memory} {c : Consumer} (hgot : c.got = [])
    (hcycle : cycleOf (mem.read32 (c.dq.toNat + 12)) = c.ccs) (hplain : ¬isLink (mem.read32 (c.dq.toNat + 12)) = true)
    (hnext : c.dq.toNat + 16 < addressSpace) :
    (Consumer.look mem)^[4] c =
      { c with dq := c.dq + 16, got := [], taken := c.taken ++ [mem.entryAt c.dq.toNat] } := by
  show Consumer.look mem (Consumer.look mem (Consumer.look mem (Consumer.look mem c))) = _
  rw [Consumer.look_first hgot hcycle, Consumer.look_second (Consumer.withGot_got _ _), Consumer.withGot_withGot,
    Consumer.look_third (Consumer.withGot_got _ _) hplain, Consumer.withGot_withGot,
    Consumer.look_last (Consumer.withGot_got _ _)]
  exact Consumer.take_of_lt (c := c.withGot _) _ hnext

/-- Three reads follow a Link entry with the expected cycle bit (R193). -/
theorem Consumer.look_three {mem : Memory} {c : Consumer} (hgot : c.got = [])
    (hcycle : cycleOf (mem.read32 (c.dq.toNat + 12)) = c.ccs) (hlink : isLink (mem.read32 (c.dq.toNat + 12)) = true) :
    (Consumer.look mem)^[3] c =
      c.follow (mem.entryAt c.dq.toNat).w3 (mem.entryAt c.dq.toNat).w0 (mem.entryAt c.dq.toNat).w1 := by
  show Consumer.look mem (Consumer.look mem (Consumer.look mem c)) = _
  rw [Consumer.look_first hgot hcycle, Consumer.look_second (Consumer.withGot_got _ _), Consumer.withGot_withGot,
    Consumer.look_link (Consumer.withGot_got _ _) hlink]
  rfl

/-- Settles O50: telling, and the reads of one consumer one by one. -/
theorem consumeAndLinkSteps : Obligations.ConsumeAndLinkSteps := by
  refine ⟨fun s i r hr hs => ?_, fun s i hno => ?_, fun s i h => State.consume_of_none h,
    fun s i c hc hgot => ⟨fun hstale => ?_, fun hcycle hplain hnext => ?_, fun hcycle hlink => ?_⟩⟩
  · rw [State.controllerStep, State.tellRing, hr]
    exact if_pos hs
  · rw [State.controllerStep, State.tellRing]
    split
    · rfl
    · next r hr => exact if_neg (hno r hr)
  · refine (State.consume_iterate hc 1).trans ?_
    rw [Function.iterate_one, Consumer.look_stale hgot hstale, State.withConsumer_self hc]
  · refine (State.consume_iterate hc 4).trans ?_
    rw [Consumer.look_four hgot hcycle (fun h => hplain ((isLink_iff _).mp h)) hnext, ← hgot]
    rfl
  · refine (State.consume_iterate hc 3).trans ?_
    rw [Consumer.look_three hgot hcycle ((isLink_iff _).mpr hlink), Consumer.follow, ← hgot]
    rfl

end Sys2Proof.Machine
end

section
/-! PROOFS. What a command's events can do whatever the controller does between them (R70, R240), and, from that, how
every command can end. -/

namespace Sys2Proof.Machine

/-! ### What the events of a command do -/

/-- What the events of a command and the controller's steps between them keep: the block itself, the canonical forms of
the memories and of the table of producers, the number of consumers; and they only use up the agenda. -/
structure EventsDone (s t : State) : Prop where
  same : BlockSame s t
  consumers : t.consumers.length = s.consumers.length
  mem : s.mem.wf → t.mem.wf
  mmio : s.mmio.wf → t.mmio.wf
  producers : tableSorted s.producers → tableSorted t.producers
  agenda : t.agenda <:+ s.agenda

theorem EventsDone.refl (s : State) : EventsDone s s :=
  ⟨.refl s, rfl, id, id, id, List.suffix_refl _⟩

theorem EventsDone.trans {s t u : State} (h : EventsDone s t) (k : EventsDone t u) : EventsDone s u where
  same := h.same.trans k.same
  consumers := k.consumers.trans h.consumers
  mem := k.mem ∘ h.mem
  mmio := k.mmio ∘ h.mmio
  producers := k.producers ∘ h.producers
  agenda := k.agenda.trans h.agenda

theorem EventsDone.noReset {s t : State} (h : EventsDone s t) (hn : noReset s.agenda) : noReset t.agenda :=
  fun hm => hn (h.agenda.subset hm)

/-- A write of DMA memory inside the address space. -/
theorem EventsDone.writeMem (s : State) {m : Memory} (h : s.mem.wf → m.wf) : EventsDone s { s with mem := m } :=
  ⟨⟨rfl, rfl, rfl, rfl, rfl, rfl, rfl⟩, rfl, h, id, id, List.suffix_refl _⟩

/-- A write of the register space inside the address space. -/
theorem EventsDone.writeMmio (s : State) {m : Memory} (h : s.mmio.wf → m.wf) : EventsDone s { s with mmio := m } :=
  ⟨⟨rfl, rfl, rfl, rfl, rfl, rfl, rfl⟩, rfl, id, h, id, List.suffix_refl _⟩

theorem State.controllerStep_done (s : State) (a : ControllerAction) : EventsDone s (s.controllerStep a) := by
  obtain ⟨hsame, hagenda⟩ := s.controllerStep_same a
  have hconsumers := s.controllerStep_consumers_length a
  have heff := s.controllerStep_effect a
  generalize s.controllerStep a = t at *
  have hsuffix : t.agenda <:+ s.agenda := hagenda ▸ List.suffix_refl _
  cases heff with
  | none | told | consumed => exact ⟨hsame, hconsumers, id, id, id, hsuffix⟩
  | wroteWord regs k v p hp =>
    obtain ⟨-, hslot, -⟩ := (p.mayProduce_iff _).mp hp.2
    have hk := k.isLt
    exact .writeMem s fun hm => Memory.wf_write32 _ _ _ hm (by omega)
  | produced regs e p hp =>
    obtain ⟨-, hslot, -⟩ := (p.mayProduce_iff _).mp hp.2
    exact ⟨hsame, hconsumers, fun hm => Memory.wf_writeEntry _ _ _ hm hslot, id, tableSorted_put _ _ _, hsuffix⟩
  | latched regs v hi hr => exact .writeMmio s fun hm => Memory.wf_write64 _ _ _ hm hr

theorem State.controllerSteps_done (s : State) (as : List ControllerAction) : EventsDone s (s.controllerSteps as) := by
  induction as generalizing s with
  | nil => exact .refl s
  | cons a as ih => exact (s.controllerStep_done a).trans (ih _)

/-- Everything a part of a command can do: it goes on, its events done; or a reset the agenda lists abandoned the
command after some of them; or an access had no address, which needs that they do not all fit. `now` is the
state in what the part answers. -/
inductive Part {α : Type} (fits : Prop) (s : State) (now : α → State) : Run α → Prop
  | goesOn (a : α) : EventsDone s (now a) → Part fits s now (.ok a)
  | abandoned (u : State) (rest : List Move) : EventsDone s u → Move.reset ∈ s.agenda →
      Part fits s now (.error (.next { u.assertReset with agenda := rest }))
  | stopped : ¬fits → Part fits s now (.error (.fault .busAddress))

theorem Part.mono {α : Type} {p q : Prop} {s : State} {now : α → State} {x : Run α} (h : Part p s now x) (hqp : q → p) :
    Part q s now x := by
  cases h with
  | goesOn a ha => exact .goesOn a ha
  | abandoned u rest hu hm => exact .abandoned u rest hu hm
  | stopped hp => exact .stopped fun hq => hp (hqp hq)

theorem Part.after {α : Type} {p : Prop} {s t : State} {now : α → State} {x : Run α} (h : Part p t now x)
    (hst : EventsDone s t) : Part p s now x := by
  cases h with
  | goesOn a ha => exact .goesOn a (hst.trans ha)
  | abandoned u rest hu hm => exact .abandoned u rest (hst.trans hu) (hst.agenda.subset hm)
  | stopped hp => exact .stopped hp

/-- Two parts in a row. -/
theorem Part.bind {α β : Type} {p : Prop} {s : State} {now : α → State} {next : β → State} {x : Run α}
    {f : α → Run β} (hx : Part p s now x) (hf : ∀ a, Part p (now a) next (f a)) : Part p s next (x >>= f) := by
  cases hx with
  | goesOn a ha => exact (hf a).after ha
  | abandoned u rest hu hm => exact .abandoned u rest hu hm
  | stopped hp => exact .stopped hp

/-- A part that has no events. -/
theorem Part.pure {α : Type} {p : Prop} {s : State} {now : α → State} {a : α} (h : now a = s) :
    Part p s now (Pure.pure a) := .goesOn a (h ▸ .refl _)

/-- The block's next event comes, or a reset the agenda lists comes before it. -/
theorem State.nextEvent_part (s : State) : Part True s id s.nextEvent := by
  rcases betweenEvents_cases s.agenda s with ⟨as, rest, hb, pre, hp⟩ | ⟨as, rest, hl, hb⟩
  · rw [State.nextEvent, hb]
    obtain ⟨hsame, hconsumers, hmem, hmmio, hproducers, -⟩ := s.controllerSteps_done as
    obtain ⟨h1, h2, h3, h4, h5, h6, h7⟩ := hsame
    exact .goesOn _ ⟨⟨h1, h2, h3, h4, h5, h6, h7⟩, hconsumers, hmem, hmmio, hproducers, _, hp.symm⟩
  · rw [State.nextEvent, hb]
    exact .abandoned _ rest (s.controllerSteps_done as) (by rw [hl]; simp)

/-- Every event: it waits for its turn, then has its effect if it has an address. -/
theorem Part.event {α : Type} {fits : Prop} {s : State} {now : α → State} {c : Bool} {f : State → α}
    (hc : fits → c = true)
    (hf : ∀ u, c = true → EventsDone u (now (f u))) :
    Part fits s now (s.nextEvent >>= fun u => if c then .ok (f u) else .error (.fault .busAddress)) := by
  refine (s.nextEvent_part.mono fun _ => trivial).bind fun u => ?_
  by_cases hcase : c = true
  · rw [if_pos hcase]
    exact .goesOn _ (hf u hcase)
  · rw [if_neg hcase]
    exact .stopped fun hfits => hcase (hc hfits)

/-! ### The events (R62, R64) -/

theorem State.memWrite32_part (s : State) (a : Nat) (v : Word32) :
    Part (a + 4 ≤ addressSpace) s id (s.memWrite32 a v) :=
  Part.event (inAddressSpace_iff a 4).mpr fun u h =>
    .writeMem u fun hm => Memory.wf_write32 _ _ _ hm ((inAddressSpace_iff a 4).mp h)

theorem State.memWrite64_part (s : State) (a : Nat) (v : Word64) :
    Part (a + 8 ≤ addressSpace) s id (s.memWrite64 a v) :=
  Part.event (inAddressSpace_iff a 8).mpr fun u h =>
    .writeMem u fun hm => Memory.wf_write64 _ _ _ hm ((inAddressSpace_iff a 8).mp h)

theorem State.memRead32_part (s : State) (a : Nat) :
    Part (a + 4 ≤ addressSpace) s Prod.snd (s.memRead32 a) :=
  Part.event (inAddressSpace_iff a 4).mpr fun u _ => .refl u

/-- A register of an interrupter whose block fits has an address. -/
theorem inAddressSpace_register {regs off n : Nat} (hoff : off + n ≤ interrupterBytes)
    (h : regs + interrupterBytes ≤ addressSpace) : inAddressSpace (regs + off) n = true :=
  (inAddressSpace_iff _ _).mpr (by omega)

theorem State.erstszEvent_part (s : State) (regs : Nat) (v : Word32) :
    Part (regs + interrupterBytes ≤ addressSpace) s id (s.erstszEvent regs v) :=
  Part.event (inAddressSpace_register (by decide)) fun u h =>
    .writeMmio u fun hm => Memory.wf_write32 _ _ _ hm ((inAddressSpace_iff _ _).mp h)

theorem State.erstbaEvent_part (s : State) (regs : Nat) (v : Word64) :
    Part (regs + interrupterBytes ≤ addressSpace) s id (s.erstbaEvent regs v) :=
  Part.event (inAddressSpace_register (by decide)) fun u h =>
    ⟨⟨rfl, rfl, rfl, rfl, rfl, rfl, rfl⟩, rfl, id,
      fun hm => Memory.wf_write64 _ _ _ hm ((inAddressSpace_iff _ _).mp h), tableSorted_put _ _ _, List.suffix_refl _⟩

theorem State.erdpReadEvent_part (s : State) (regs : Nat) :
    Part (regs + interrupterBytes ≤ addressSpace) s Prod.snd (s.erdpReadEvent regs) :=
  Part.event (inAddressSpace_register (by decide)) fun u _ => .refl u

theorem State.erdpWriteEvent_part (s : State) (regs : Nat) (v : Word64) :
    Part (regs + interrupterBytes ≤ addressSpace) s id (s.erdpWriteEvent regs v) :=
  Part.event (inAddressSpace_register (by decide)) fun u h =>
    .writeMmio u fun hm => Memory.wf_write64 _ _ _ hm ((inAddressSpace_iff _ _).mp h)

/-! ### The parts commands are made of -/

theorem State.entryEvents_part (s : State) (a : Nat) (e : Entry) :
    Part (a + 16 ≤ addressSpace) s id (s.entryEvents a e) :=
  ((s.memWrite32_part _ _).mono fun _ => by omega).bind fun t =>
    ((t.memWrite32_part _ _).mono fun _ => by omega).bind fun t =>
      ((t.memWrite32_part _ _).mono fun _ => by omega).bind fun t => (t.memWrite32_part _ _).mono fun _ => by omega

theorem zeroFill_part (n a : Nat) (s : State) : Part (a + 16 * n ≤ addressSpace) s id (zeroFill n a s) := by
  induction n generalizing a s with
  | zero => exact .pure rfl
  | succ n ih =>
    exact ((s.entryEvents_part _ _).mono fun _ => by omega).bind fun t =>
      (ih _ t).mono fun _ => by simp only [entryBytes]; omega

theorem State.erdpUpdate_part (s : State) (regs : Nat) (next : Nat → Nat) :
    Part (regs + interrupterBytes ≤ addressSpace) s Prod.snd (s.erdpUpdate regs next) :=
  (s.erdpReadEvent_part regs).bind fun ⟨_, t⟩ => (t.erdpWriteEvent_part regs _).bind fun _ => .pure rfl

theorem State.registerEvents_part (s : State) (m b t regs : Nat) :
    Part (b + 16 * m ≤ addressSpace ∧ t + 16 ≤ addressSpace ∧ regs + interrupterBytes ≤ addressSpace) s id
      (s.registerEvents m b t regs) :=
  ((zeroFill_part m b s).mono And.left).bind fun u =>
    ((u.memWrite64_part _ _).mono fun ⟨_, _, _⟩ => by omega).bind fun u =>
      ((u.memWrite64_part _ _).mono fun ⟨_, _, _⟩ => by omega).bind fun u =>
        ((u.erstszEvent_part regs 1).mono fun h => h.2.2).bind fun u =>
          ((u.erdpUpdate_part regs _).mono fun h => h.2.2).bind fun ⟨_, u⟩ =>
            (u.erstbaEvent_part regs _).mono fun h => h.2.2

theorem State.linkEvents_part (s : State) (r : Ring) :
    Part (r.wrapsNext = true → r.slot (r.cap.toNat - 1) + 16 ≤ addressSpace) s id (s.linkEvents r) := by
  unfold State.linkEvents
  split
  · next hw => exact (s.entryEvents_part _ _).mono fun h => h hw
  · exact .pure rfl

/-- The word-3 read needs no premise: the 16 bytes at a dequeue pointer have addresses. -/
theorem State.frontEvents_part (s : State) (e : EventRing) :
    Part (regsFit e.regs) s (fun x => x.2.2) (s.frontEvents e) :=
  (s.erdpReadEvent_part e.regsAddr).bind fun ⟨v, t⟩ =>
    ((t.memRead32_part _).mono fun _ => erdpPtr_add_entryBytes_le v).bind fun ⟨_, _⟩ => .pure rfl

/-! ### How every command ends -/

/-- The faults the dispatcher can raise for a command (R213, R216). -/
def faultsOf : Instr → List ResultCode
  | .ringInit _ | .erInit _ => [.badIndex, .alreadyInitialized]
  | .ringPush _ | .ringBuf _ | .erHasFront _ | .erFront _ | .erPop _ => [.badIndex, .notInitialized]
  | .poolAlloc | .poolAllocArr | .poolFree => []
  | .epidMake | .epidAddr | .epidNum | .epidIsIn => []
  | .epcfgMake | .epcfgEpid | .epcfgType | .epcfgMps | .epcfgIval => []

/-- The errors of `INIT` that leave the instance `FAILED` (R136, R151). -/
def initErrors : List ResultCode := [.allocationFailure, .invalidCapacity]

/-- Everything a command can answer, whatever the controller does between its events: one constructor for each way to
end, with the state in which the last event has happened. -/
inductive CommandEnd (s : State) : Instr → Outcome → Prop
  /-- Step 1 of the dispatcher (R217). -/
  | halted (i : Instr) : s.halted = true → CommandEnd s i (.next s.refuseHalted)
  /-- Steps 3 to 5 of the dispatcher (R219 to R221). -/
  | faulted (i : Instr) (c : ResultCode) : s.live → c ∈ faultsOf i → CommandEnd s i (.next (s.takeFault c))
  /-- A command without events that only answers. -/
  | computed (i : Instr) (v : Word64) : s.live → CommandEnd s i (.next (s.done v))
  /-- `POOL.ALLOC`, `POOL.ALLOCARR` (R121, R124). -/
  | allocated (i : Instr) (a size : Nat) : s.live → s.cursor ≤ a → a + size ≤ s.cfg.poolEnd →
      CommandEnd s i (.next (State.doneNat { s with cursor := a + size } a))
  | noRoom (i : Instr) : s.live → i ∈ [Instr.poolAlloc, .poolAllocArr] →
      CommandEnd s i (.next (s.fail .allocationFailure))
  /-- `RING.INIT` (R136). -/
  | ringFailed (k : Nat) (r : Ring) (c : ResultCode) : s.live → s.rings[k]? = some r → r.state = .uninit →
      c ∈ initErrors →
      CommandEnd s (.ringInit k) (.next ((s.setRing k { r with state := .failed }).fail c))
  | ringMade (k : Nat) (r : Ring) (b n : Nat) (u : State) : s.live → s.rings[k]? = some r → r.state = .uninit →
      2 ≤ n → b % 64 = 0 → s.cursor ≤ b → b + 16 * n ≤ s.cfg.poolEnd →
      EventsDone { s with cursor := b + 16 * n } u →
      CommandEnd s (.ringInit k) (.next ((u.setRing k (Ring.fresh b n)).done (BitVec.ofNat 64 b)))
  /-- `RING.PUSH` (R139). -/
  | pushed (k : Nat) (r : Ring) (u : State) (v : Word64) : s.live → s.rings[k]? = some r → r.state = .ready →
      EventsDone s u → CommandEnd s (.ringPush k) (.next ((u.setRing k r.advance).done v))
  /-- `ER.INIT` (R151); the cursor may have passed the buffer. -/
  | eringFailed (j : Nat) (e : EventRing) (c : ResultCode) (cursor : Nat) : s.live → s.erings[j]? = some e →
      e.state = .uninit → c ∈ initErrors → s.cursor ≤ cursor → (s.cursor ≤ s.cfg.poolEnd → cursor ≤ s.cfg.poolEnd) →
      CommandEnd s (.erInit j)
        (.next ((State.setEventRing { s with cursor := cursor } j { e with state := .failed }).fail c))
  | eringMade (j : Nat) (e : EventRing) (b m t : Nat) (u : State) : s.live → s.erings[j]? = some e →
      e.state = .uninit → 1 ≤ m → m ≤ 65535 → b % 64 = 0 → t % 64 = 0 → s.cursor ≤ b → b + 16 * m ≤ t →
      t + 16 ≤ s.cfg.poolEnd → EventsDone { s with cursor := t + 16 } u →
      CommandEnd s (.erInit j)
        (.next ((u.setEventRing j (EventRing.fresh b m t s.port.arg1)).done (BitVec.ofNat 64 b)))
  /-- `ER.HASFRONT`, `ER.FRONT` (R155, R156): nothing but port registers, `STATUS` from before among them. -/
  | looked (i : Instr) (p : Port) (v : Word64) (u : State) : s.live → p.status = s.port.status → EventsDone s u →
      CommandEnd s i (.next (State.done { u with port := p } v))
  /-- `ER.POP` (R158). -/
  | popped (j : Nat) (e : EventRing) (dq p : Nat) (u : State) : s.live → s.erings[j]? = some e → e.state = .ready →
      EventsDone s u → CommandEnd s (.erPop j) (.next ((u.setEventRing j (e.popped dq)).doneNat p))
  /-- A reset between two events (R240), of an `INIT` after its allocations. -/
  | abandoned (i : Instr) (cursor : Nat) (u : State) (rest : List Move) : Move.reset ∈ s.agenda →
      EventsDone { s with cursor := cursor } u → CommandEnd s i (.next { u.assertReset with agenda := rest })
  /-- An access without an address: only of a command that follows a caller's `regs`, given the invariants. -/
  | stopped (i : Instr) :
      (s.BlockInv → ∃ k, i ∈ [Instr.erInit k, .erHasFront k, .erFront k, .erPop k]) →
      CommandEnd s i (.fault .busAddress)

/-- A part of a command and the rest of it: the part's events fit under the invariants, or are an `ER` command's. -/
theorem CommandEnd.bind {α : Type} {s t : State} {i : Instr} {cursor : Nat} {fits : Prop} {now : α → State}
    {x : Run α} {f : α → Run State} (hx : Part fits t now x) (ht : EventsDone { s with cursor := cursor } t)
    (hfits : s.BlockInv → fits ∨ ∃ k, i ∈ [Instr.erInit k, .erHasFront k, .erFront k, .erPop k])
    (hf : ∀ a, EventsDone { s with cursor := cursor } (now a) → CommandEnd s i (Run.outcome (f a))) :
    CommandEnd s i (Run.outcome (x >>= f)) := by
  cases hx with
  | goesOn a ha => exact hf a (ht.trans ha)
  | abandoned u rest hu hm => exact .abandoned i cursor u rest (ht.agenda.subset hm) (ht.trans hu)
  | stopped hno => exact .stopped i fun hinv => (hfits hinv).resolve_left hno

/-- The checks of a `RING` command, and then its pseudocode. -/
theorem CommandEnd.of_onRing {s : State} {i : Instr} {k : Nat} {need : Lifecycle} {run : Ring → Outcome}
    (hfaults : faultsOf i = [.badIndex, wrongState need])
    (h : ∀ r, s.live → s.rings[k]? = some r → r.state = need → CommandEnd s i (run r)) :
    CommandEnd s i (s.onRing k need run) := by
  rcases s.onRing_cases k need run with ⟨hh, ho⟩ | ⟨hl, -, ho⟩ | ⟨r, hl, -, -, ho⟩ | ⟨r, hl, hr, hs, ho⟩ <;> rw [ho]
  · exact .halted i hh
  · exact .faulted i _ hl (by simp [hfaults])
  · exact .faulted i _ hl (by simp [hfaults])
  · exact h r hl hr hs

/-- The checks of an `ER` command, and then its pseudocode. -/
theorem CommandEnd.of_onEventRing {s : State} {i : Instr} {j : Nat} {need : Lifecycle} {run : EventRing → Outcome}
    (hfaults : faultsOf i = [.badIndex, wrongState need])
    (h : ∀ e, s.live → s.erings[j]? = some e → e.state = need → CommandEnd s i (run e)) :
    CommandEnd s i (s.onEventRing j need run) := by
  rcases s.onEventRing_cases j need run with
    ⟨hh, ho⟩ | ⟨hl, -, ho⟩ | ⟨e, hl, -, -, ho⟩ | ⟨e, hl, he, hs, ho⟩ <;> rw [ho]
  · exact .halted i hh
  · exact .faulted i _ hl (by simp [hfaults])
  · exact .faulted i _ hl (by simp [hfaults])
  · exact h e hl he hs

theorem CommandEnd.of_unlessHalted {s : State} {i : Instr} {o : Outcome} (h : s.live → CommandEnd s i o) :
    CommandEnd s i (s.unlessHalted o) := by
  cases hh : s.halted with
  | true =>
    rw [s.unlessHalted_halted o hh]
    exact .halted i hh
  | false =>
    rw [s.unlessHalted_live o hh]
    exact h hh

theorem State.allocCommand_end (s : State) {i : Instr} (size alignment boundary : Nat) (hl : s.live)
    (hi : i ∈ [Instr.poolAlloc, .poolAllocArr]) : CommandEnd s i (s.allocCommand size alignment boundary) := by
  unfold State.allocCommand
  rcases s.allocate_cases size alignment boundary with h | ⟨a, h, -, -, hlo, hhi⟩ <;> rw [h]
  · exact .noRoom i hl hi
  · exact .allocated i a size hl hlo hhi

theorem State.ringInit_end (s : State) {k : Nat} {r : Ring} (hl : s.live) (hr : s.rings[k]? = some r)
    (hs : r.state = .uninit) : CommandEnd s (.ringInit k) (s.ringInit k r) := by
  simp only [State.ringInit]
  split
  · exact .ringFailed k r _ hl hr hs (by decide)
  next hn =>
  rcases s.allocate_cases (operandNat s.port.arg0 * entryBytes) ringAlign ringBoundary with
    h | ⟨b, h, -, hal, hlo, hhi⟩ <;> rw [h]
  · exact .ringFailed k r _ hl hr hs (by decide)
  have hsize : b + operandNat s.port.arg0 * entryBytes = b + 16 * operandNat s.port.arg0 := by
    simp only [entryBytes]
    omega
  rw [hsize] at hhi
  simp only [hsize]
  exact .bind (zeroFill_part _ b _) (.refl _) (fun hinv => .inl (hhi.trans (of_decide_eq_true hinv.arena)))
    fun u hu => .ringMade k r b _ u hl hr hs (by omega) (hal (by decide)) hlo hhi hu

theorem Ring.wrapsNext_iff (r : Ring) : r.wrapsNext = true ↔ r.widx.toNat + 1 = r.cap.toNat - 1 := beq_iff_eq

/-- The slots a push writes lie below the end of the buffer. -/
theorem Ring.slot_add_le {r : Ring} {x n : Nat} (h : x + 1 ≤ n) : r.slot x + 16 ≤ r.slot n := by
  simp only [Ring.slot, entryBytes]
  omega

/-- A `READY` Ring's buffer has addresses, and its write cursor is below the last slot. -/
theorem State.BlockInv.ring_fits {s : State} (h : s.BlockInv) {k : Nat} {r : Ring} (hr : s.rings[k]? = some r)
    (hs : r.state = .ready) : r.widx.toNat + 2 ≤ r.cap.toNat ∧ r.slot r.cap.toNat ≤ addressSpace := by
  obtain ⟨-, -, hbuffer, hcursor⟩ := h.rings r (List.mem_of_getElem? hr) hs
  have hend : s.cfg.poolEnd ≤ addressSpace := of_decide_eq_true h.arena
  exact ⟨hcursor, hbuffer.trans (h.cursorHigh.trans hend)⟩

theorem State.ringPush_end (s : State) {k : Nat} {r : Ring} (hl : s.live) (hr : s.rings[k]? = some r)
    (hs : r.state = .ready) : CommandEnd s (.ringPush k) (s.ringPush k r) := by
  have hfits (x : Nat) (hx : s.BlockInv → x + 1 ≤ r.cap.toNat) (hinv : s.BlockInv) :
      r.slot x + 16 ≤ addressSpace := (Ring.slot_add_le (hx hinv)).trans (hinv.ring_fits hr hs).2
  refine .bind (cursor := s.cursor) (s.entryEvents_part _ _) (.refl _) (fun hinv => .inl (hfits _ ?_ hinv)) fun t ht =>
    .bind (t.linkEvents_part r) ht (fun hinv => .inl fun _ => hfits _ ?_ hinv) fun u hu => .pushed k r u _ hl hr hs hu
  all_goals
    intro hinv
    have hcursor := (hinv.ring_fits hr hs).1
    omega

theorem State.eventRingInit_end (s : State) {j : Nat} {e : EventRing} (hl : s.live) (he : s.erings[j]? = some e)
    (hs : e.state = .uninit) : CommandEnd s (.erInit j) (s.eventRingInit j e) := by
  simp only [State.eventRingInit]
  split
  · exact .eringFailed j e _ s.cursor hl he hs (by decide) (Nat.le_refl _) id
  next hm =>
  rcases s.allocate_cases (operandNat s.port.arg0 * entryBytes) erAlign erBoundary with
    h | ⟨b, h, -, hal, hlo, hhi⟩ <;> rw [h]
  · exact .eringFailed j e _ s.cursor hl he hs (by decide) (Nat.le_refl _) id
  rcases State.allocate_cases { s with cursor := b + operandNat s.port.arg0 * entryBytes } erstEntryBytes erstAlign
    erstBoundary with h | ⟨t, h, -, haltable, htlo, hthi⟩ <;> simp only [h]
  · exact .eringFailed j e _ _ hl he hs (by decide) (by omega) fun _ => hhi
  simp only [entryBytes, erCapMax] at hm htlo
  have hbuffer : b + 16 * operandNat s.port.arg0 ≤ t := by omega
  exact .bind (State.registerEvents_part _ _ b t _) (.refl _) (fun _ => .inr ⟨j, by simp⟩)
    fun u hu => .eringMade j e b _ t u hl he hs (by omega) (by omega) (hal (by decide)) (haltable (by decide)) hlo
      hbuffer hthi hu

theorem State.hasFront_end (s : State) {j : Nat} (e : EventRing) (hl : s.live) :
    CommandEnd s (.erHasFront j) (s.hasFront e) :=
  .bind (cursor := s.cursor) (s.frontEvents_part e) (.refl _) (fun _ => .inr ⟨j, by simp⟩)
    fun ⟨_, _, u⟩ hu => .looked _ u.port _ u hl (congrArg Port.status hu.same.port) hu

theorem State.front_end (s : State) {j : Nat} (e : EventRing) (hl : s.live) :
    CommandEnd s (.erFront j) (s.front e) :=
  have her {p : Prop} : s.BlockInv → p ∨ ∃ k, Instr.erFront j ∈ [Instr.erInit k, .erHasFront k, .erFront k, .erPop k] :=
    fun _ => .inr ⟨j, by simp⟩
  .bind (cursor := s.cursor) (s.frontEvents_part e) (.refl _) her fun ⟨_, _, t⟩ ht =>
    .bind (t.memRead32_part _) ht her fun ⟨_, t⟩ ht =>
      .bind (t.memRead32_part _) ht her fun ⟨_, t⟩ ht =>
        .bind (t.memRead32_part _) ht her fun ⟨_, u⟩ hu =>
          .looked _ _ _ u hl ((u.port.withFront_status _).trans (congrArg Port.status hu.same.port)) hu

theorem State.pop_end (s : State) {j : Nat} {e : EventRing} (hl : s.live) (he : s.erings[j]? = some e)
    (hs : e.state = .ready) : CommandEnd s (.erPop j) (s.pop j e) :=
  .bind (cursor := s.cursor) (s.erdpReadEvent_part _) (.refl _) (fun _ => .inr ⟨j, by simp⟩) fun ⟨_, t⟩ ht =>
    .bind (t.erdpWriteEvent_part _ _) ht (fun _ => .inr ⟨j, by simp⟩) fun u hu => .popped j e _ _ u hl he hs hu

/-- Every command ends in one of these ways. -/
theorem exec_end (i : Instr) (s : State) : CommandEnd s i (exec i s) := by
  cases i with
  | poolAlloc => exact .of_unlessHalted fun hl => s.allocCommand_end _ _ _ hl (by simp)
  | poolAllocArr => exact .of_unlessHalted fun hl => s.allocCommand_end _ _ _ hl (by simp)
  | ringInit k => exact .of_onRing rfl fun r hl hr hs => s.ringInit_end hl hr hs
  | ringPush k => exact .of_onRing rfl fun r hl hr hs => s.ringPush_end hl hr hs
  | ringBuf k => exact .of_onRing rfl fun r hl _ _ => .computed _ r.base hl
  | erInit j => exact .of_onEventRing rfl fun e hl he hs => s.eventRingInit_end hl he hs
  | erHasFront j => exact .of_onEventRing rfl fun e hl _ _ => s.hasFront_end e hl
  | erFront j => exact .of_onEventRing rfl fun e hl _ _ => s.front_end e hl
  | erPop j => exact .of_onEventRing rfl fun e hl he hs => s.pop_end hl he hs
  | poolFree | epidMake | epidAddr | epidNum | epidIsIn | epcfgMake | epcfgEpid | epcfgType | epcfgMps | epcfgIval =>
    exact .of_unlessHalted fun hl => .computed _ _ hl

end Sys2Proof.Machine
end

section
/-! PROOFS. Statements about every command and every step: `STATUS`, errors, the halt, the pool cursor, independence of
the instances, and the invariants (R21, R28, R31, R33, R35, R122, R213 to R218). -/

namespace Sys2Proof.Machine

/-! ### `STATUS` after a command (R21, R213) -/

/-- The errors of a command that are no faults (R213). -/
def errorsOf : Instr → List ResultCode
  | .poolAlloc | .poolAllocArr => [.allocationFailure]
  | .ringInit _ | .erInit _ => initErrors
  | .poolFree | .ringPush _ | .ringBuf _ | .erHasFront _ | .erFront _ | .erPop _ => []
  | .epidMake | .epidAddr | .epidNum | .epidIsIn => []
  | .epcfgMake | .epcfgEpid | .epcfgType | .epcfgMps | .epcfgIval => []

theorem State.done_status {s : State} (v : Word64) (h : s.live) : (s.done v).port.status = 0 :=
  statusAfter_live _ _ h

theorem State.doneNat_status {s : State} (v : Nat) (h : s.live) : (s.doneNat v).port.status = 0 := by
  rcases s.doneNat_cases v with ⟨-, hd⟩ | ⟨-, hd⟩ <;> rw [hd]
  · exact s.done_status _ h
  · exact State.done_status (s := { s with draws := s.draws + 1 }) _ h

theorem State.fail_status {s : State} (c : ResultCode) (h : s.live) : (s.fail c).port.status = c.word :=
  statusAfter_live _ _ h

/-- A block whose `STATUS` is as before is live as before. -/
theorem State.live_of_status {s t : State} (h : s.live) (ht : t.port.status = s.port.status) : t.live := by
  rw [State.live, State.halted, ht]
  exact h

theorem BlockSame.status {s u : State} (h : BlockSame s u) : u.port.status = s.port.status :=
  congrArg Port.status h.port

/-- Everything a command can answer in `STATUS`: 0 where it succeeds or is abandoned, the refusal of a halted block, a
fault of the dispatcher, an error. -/
def statusesOf (i : Instr) : List Word32 :=
  0 :: 0x80000007#32 :: (faultsOf i).map (fun c => faultBit ||| c.word) ++ (errorsOf i).map ResultCode.word

theorem zero_mem_statusesOf (i : Instr) : (0 : Word32) ∈ statusesOf i := List.mem_cons_self

theorem fault_mem_statusesOf {i : Instr} {c : ResultCode} (h : c ∈ faultsOf i) :
    (faultBit ||| c.word) ∈ statusesOf i :=
  List.mem_append_left _ (List.mem_cons_of_mem _ (List.mem_cons_of_mem _ (List.mem_map_of_mem h)))

theorem error_mem_statusesOf {i : Instr} {c : ResultCode} (h : c ∈ errorsOf i) : c.word ∈ statusesOf i :=
  List.mem_append_right _ (List.mem_map_of_mem h)

/-- The ends of a command that did not fail: it succeeded with `STATUS` 0, or was abandoned. -/
theorem exec_status_or_untouched {i : Instr} {s t : State} (h : exec i s = .next t) :
    t.port.status = 0 ∨ t.port.status ∈ statusesOf i ∧ t.mem = s.mem ∧ t.mmio = s.mmio ∧
      t.consumers = s.consumers ∧ t.producers = s.producers ∧ t.agenda = s.agenda ∧
      t.port = { s.port with status := t.port.status, res := 0 } := by
  have hend := exec_end i s
  rw [h] at hend
  cases hend with
  | halted _ hh =>
    have h7 : s.refuseHalted.port.status = 0x80000007#32 :=
      congrArg (fun s => s.port.status) (s.refuseHalted_halted hh)
    exact .inr ⟨h7 ▸ List.mem_cons_of_mem _ List.mem_cons_self, rfl, rfl, rfl, rfl, rfl, rfl⟩
  | faulted _ c _ hc => exact .inr ⟨fault_mem_statusesOf hc, rfl, rfl, rfl, rfl, rfl, rfl⟩
  | noRoom _ hl hi =>
    have hc : ResultCode.allocationFailure ∈ errorsOf i := by
      simp only [List.mem_cons, List.not_mem_nil, or_false] at hi
      rcases hi with rfl | rfl <;> decide
    exact .inr ⟨State.fail_status _ hl ▸ error_mem_statusesOf hc, rfl, rfl, rfl, rfl, rfl, rfl⟩
  | ringFailed k r c hl _ _ hc =>
    have hstatus := State.fail_status (s := s.setRing k { r with state := .failed }) c hl
    exact .inr ⟨hstatus ▸ error_mem_statusesOf hc, rfl, rfl, rfl, rfl, rfl, rfl⟩
  | eringFailed j e c cursor hl _ _ hc =>
    have hstatus :=
      State.fail_status (s := State.setEventRing { s with cursor := cursor } j { e with state := .failed }) c hl
    exact .inr ⟨hstatus ▸ error_mem_statusesOf hc, rfl, rfl, rfl, rfl, rfl, rfl⟩
  | computed _ v hl => exact .inl (State.done_status v hl)
  | allocated _ a size hl => exact .inl (State.doneNat_status (s := { s with cursor := a + size }) a hl)
  | ringMade _ _ _ _ _ hl _ _ _ _ _ _ hu => exact .inl (State.done_status _ (State.live_of_status hl hu.same.status))
  | eringMade _ _ _ _ _ _ hl _ _ _ _ _ _ _ _ _ hu =>
    exact .inl (State.done_status _ (State.live_of_status hl hu.same.status))
  | pushed _ _ _ _ hl _ _ hu => exact .inl (State.done_status _ (State.live_of_status hl hu.same.status))
  | looked _ _ _ _ hl hp _ => exact .inl (State.done_status _ (State.live_of_status hl hp))
  | popped _ _ _ _ _ hl _ _ hu => exact .inl (State.doneNat_status _ (State.live_of_status hl hu.same.status))
  | abandoned => exact .inl rfl

theorem exec_status_mem {i : Instr} {s t : State} (h : exec i s = .next t) : t.port.status ∈ statusesOf i := by
  rcases exec_status_or_untouched h with h0 | ⟨hmem, -⟩
  · rw [h0]
    exact zero_mem_statusesOf i
  · exact hmem

/-- Settles O13: the table of R213 lists for each command the codes of its faults and errors. -/
theorem statusAfterEachCommand : Obligations.StatusAfterEachCommand := by
  intro i s t h
  have hmem := exec_status_mem h
  generalize t.port.status = v at hmem
  cases i <;> simp [statusesOf, faultsOf, errorsOf, initErrors, faultBit, ResultCode.word] at hmem ⊢ <;> tauto

/-- Every value `STATUS` takes is one R21, R210 and R213 allow. -/
theorem Port.statusLegal_of_mem {p : Port}
    (h : p.status ∈ [0#32, 1#32, 2#32, 0x80000003#32, 0x80000004#32, 0x80000005#32, 0x80000006#32, 0x80000007#32]) :
    p.statusLegal := by
  unfold Port.statusLegal
  generalize p.status = v at h
  simp only [List.mem_cons, List.not_mem_nil, or_false] at h
  rcases h with rfl | rfl | rfl | rfl | rfl | rfl | rfl | rfl <;> decide

theorem exec_statusLegal {i : Instr} {s t : State} (h : exec i s = .next t) : t.port.statusLegal := by
  have hmem := statusAfterEachCommand i s t h
  refine Port.statusLegal_of_mem ?_
  cases i <;> simp at hmem ⊢ <;> tauto

/-! ### Errors (R214, R215, R218) -/

/-- Settles O14: the ends with `STATUS` not 0 are those of the dispatcher, of the allocator and of a failed `INIT`, and
none of them comes after an event. -/
theorem errorsArePrecise : Obligations.ErrorsArePrecise := by
  intro i s t h h0
  rcases exec_status_or_untouched h with hzero | ⟨-, huntouched⟩
  · exact absurd hzero h0
  · exact huntouched

/-- Settles O57: a command that stops follows a caller's `regs`. -/
theorem commandsDoNotStop : Obligations.CommandsDoNotStop := by
  intro i s hinv hi
  have hend := exec_end i s
  generalize exec i s = o at hend
  cases hend with
  | stopped _ hwhy =>
    obtain ⟨k, hk⟩ := hwhy hinv
    exact absurd hk (hi k)
  | _ => exact ⟨_, rfl⟩

end Sys2Proof.Machine
end

section
/-! PROOFS. What a step can do, and the invariants every step keeps (R21, R28, R31, R33, R35, R49, R69, R122, R217). -/

namespace Sys2Proof.Machine

/-! ### What a step can do -/

/-- The word a host action writes to `CMD`, if it writes one (R20). -/
def State.commandWord (s : State) : HostAction → Option Word32
  | .portWrite off width v => if off = 0 ∧ width = 4 then some (v.setWidth 32) else none
  | .portForward off width => if off = 0 ∧ width = 4 then some (s.hostData.setWidth 32) else none
  | .portRead _ _ | .memWrite32 _ _ | .memRead32 _ => none

/-- Everything the next entry of the agenda can do, where it does not stop the machine. -/
inductive ActEnd (s : State) : Move → State → Prop
  /-- A legal word written to `CMD` (R20). -/
  | command (a : HostAction) (w : Word32) (i : Instr) (t : State) : s.commandWord a = some w → decode w = .ok i →
      exec i { s with port := s.port.withCmd w } = .next t → ActEnd s (.host a) t
  /-- An illegal word written to `CMD` (R217, R222). -/
  | illegal (a : HostAction) (w : Word32) (v : Word32) : v ∈ [0x80000006#32, 0x80000007#32] →
      ActEnd s (.host a) (State.withResult { s with port := s.port.withCmd w } v 0)
  /-- A write of another port register (R21 to R26). -/
  | portWrite (a : HostAction) (p : Port) : p.status = s.port.status → ActEnd s (.host a) { s with port := p }
  /-- A host read (R12, R26). -/
  | hostRead (a : HostAction) (v : Word64) : ActEnd s (.host a) { s with hostData := v }
  /-- A host write to DMA memory (R12). -/
  | hostWrite (a : HostAction) (m : Memory) : (s.mem.wf → m.wf) → ActEnd s (.host a) { s with mem := m }
  | controller (a : ControllerAction) : ActEnd s (.controller a) (s.controllerStep a)
  | reset : ActEnd s .reset s.assertReset
  | block : ActEnd s .block s

theorem State.command_of_ok {s : State} {w : Word32} {i : Instr} (h : decode w = .ok i) :
    s.command w = exec i { s with port := s.port.withCmd w } := by
  rw [State.command, h]

/-- An illegal word is `ILLEGAL_COMMAND` on a live block and `HALTED` on a halted one (R216, R217, R222). -/
theorem State.command_of_error {s : State} {w : Word32} {e : DecodeError} (h : decode w = .error e) :
    s.command w = .next (State.withResult { s with port := s.port.withCmd w }
      (if s.halted then 0x80000007#32 else 0x80000006#32) 0) := by
  obtain ⟨-, -, -, hillegal⟩ := State.takeFault_withResult { s with port := s.port.withCmd w }
  cases hh : s.halted with
  | true => exact s.command_of_halted w hh
  | false =>
    have hlive := State.unlessHalted_live { s with port := s.port.withCmd w }
      (.next (State.takeFault { s with port := s.port.withCmd w } .illegalCommand)) hh
    rw [State.command, h]
    exact hlive.trans (congrArg Host.Outcome.next hillegal)

theorem State.portWrite_command (s : State) (v : Word64) : s.portWrite 0 4 v = s.command (v.setWidth 32) :=
  if_pos ⟨rfl, rfl⟩

theorem State.portWrite_register {s : State} {off width : Nat} {v : Word64} {p : Port}
    (hcmd : ¬(off = 0 ∧ width = 4)) (h : s.port.write off width v = some p) :
    s.portWrite off width v = .next { s with port := p } := by
  rw [State.portWrite, if_neg hcmd, h]

theorem State.portWrite_end {s t : State} {a : HostAction} {off width : Nat} {v : Word64}
    (ha : s.commandWord a = if off = 0 ∧ width = 4 then some (v.setWidth 32) else none)
    (h : s.portWrite off width v = .next t) : ActEnd s (.host a) t := by
  by_cases hcmd : off = 0 ∧ width = 4
  · obtain ⟨rfl, rfl⟩ := hcmd
    rw [s.portWrite_command] at h
    cases hd : decode (v.setWidth 32) with
    | ok i => exact .command a _ i t ha hd (State.command_of_ok hd ▸ h)
    | error e =>
      rw [State.command_of_error hd] at h
      cases h
      exact .illegal a _ _ (by split <;> simp)
  · rw [State.portWrite, if_neg hcmd] at h
    split at h
    · next p hp =>
      cases h
      exact .portWrite a p (Port.write_status hp)
    · cases h

theorem State.hostStep_end {s t : State} {a : HostAction} (h : s.hostStep a = .next t) : ActEnd s (.host a) t := by
  cases a with
  | portWrite off width v => exact State.portWrite_end rfl h
  | portForward off width => exact State.portWrite_end rfl h
  | portRead off width =>
    simp only [State.hostStep, State.portRead] at h
    split at h <;> cases h
    exact .hostRead _ _
  | memWrite32 addr v =>
    simp only [State.hostStep] at h
    split at h <;> cases h
    next hfits => exact .hostWrite _ _ fun hm => Memory.wf_write32 _ _ _ hm ((inAddressSpace_iff _ _).mp hfits)
  | memRead32 addr =>
    simp only [State.hostStep] at h
    split at h <;> cases h
    exact .hostRead _ _

theorem State.act_end {s t : State} {m : Move} (h : s.act m = .next t) : ActEnd s m t := by
  cases m with
  | host a => exact State.hostStep_end h
  | controller a => cases h; exact .controller a
  | reset => cases h; exact .reset
  | block => cases h; exact .block

/-- A step either waits or is the first entry of the agenda. -/
theorem step_end {s t : State} (h : step s = .next t) :
    s.agenda = [] ∧ t = s ∨ ∃ m rest, s.agenda = m :: rest ∧ ActEnd { s with agenda := rest } m t := by
  cases ha : s.agenda with
  | nil =>
    rw [step, ha] at h
    cases h
    exact .inl ⟨rfl, rfl⟩
  | cons m rest =>
    rw [step_cons ha] at h
    exact .inr ⟨m, rest, rfl, State.act_end h⟩

/-! ### The halt and the cursor (R28, R217) -/

/-- What a halted block keeps in a move that is no reset. -/
theorem ActEnd.halted_keeps {s t : State} {m : Move} (h : ActEnd s m t) (hh : s.halted = true) (hm : m ≠ .reset) :
    t.cursor = s.cursor ∧ t.rings = s.rings ∧ t.erings = s.erings := by
  cases h with
  | command a w i _ _ _ hexec =>
    have hrefused := exec_of_halted i { s with port := s.port.withCmd w } hh
    rw [hexec] at hrefused
    cases hrefused
    exact ⟨rfl, rfl, rfl⟩
  | illegal | portWrite | hostRead | hostWrite | block => exact ⟨rfl, rfl, rfl⟩
  | controller a =>
    obtain ⟨-, -, hcursor, hrings, herings, -, -⟩ := (s.controllerStep_same a).1
    exact ⟨hcursor, hrings, herings⟩
  | reset => exact absurd rfl hm

/-- Settles O15: a halted block refuses every command before it looks at the pool or an instance. -/
theorem onlyResetLeavesTheHalt : Obligations.OnlyResetLeavesTheHalt := by
  intro s t hh hn h
  refine ⟨step_keeps_halt hh hn h, ?_⟩
  rcases step_end h with ⟨-, rfl⟩ | ⟨m, rest, ha, hact⟩
  · exact ⟨rfl, rfl, rfl⟩
  · exact hact.halted_keeps hh fun hm => hn (by rw [ha, hm]; exact List.mem_cons_self)

theorem State.doneNat_cursor (s : State) (v : Nat) : (s.doneNat v).cursor = s.cursor := by
  rcases s.doneNat_cases v with ⟨-, h⟩ | ⟨-, h⟩ <;> rw [h] <;> rfl

/-- Without a reset no command moves the cursor back. -/
theorem exec_cursor_le {i : Instr} {s t : State} (hn : noReset s.agenda) (h : exec i s = .next t) :
    s.cursor ≤ t.cursor := by
  have hend := exec_end i s
  rw [h] at hend
  cases hend with
  | halted | faulted | computed | noRoom | ringFailed => exact Nat.le_refl _
  | allocated _ a size _ hlo _ =>
    rw [State.doneNat_cursor]
    exact hlo.trans (Nat.le_add_right _ _)
  | ringMade k r b n u _ _ _ _ _ hlo _ hu => exact hlo.trans ((Nat.le_add_right _ _).trans hu.same.cursor.ge)
  | pushed _ _ u _ _ _ _ hu => exact hu.same.cursor.ge
  | eringFailed _ _ _ _ _ _ _ _ hlo _ => exact hlo
  | eringMade j e b m tbl u _ _ _ _ _ _ _ hlo hbt _ hu =>
    have hcursor : u.cursor = tbl + 16 := hu.same.cursor
    show s.cursor ≤ u.cursor
    omega
  | looked _ _ _ u _ _ hu => exact hu.same.cursor.ge
  | popped j e dq p u _ _ _ hu =>
    rw [State.doneNat_cursor]
    exact hu.same.cursor.ge
  | abandoned _ _ _ _ hm _ => exact absurd hm hn

/-- Settles O26: of the moves that are no reset, only a command moves the cursor. -/
theorem cursorNeverMovesBack : Obligations.CursorNeverMovesBack := by
  intro s t hn h
  rcases step_end h with ⟨-, rfl⟩ | ⟨m, rest, ha, hact⟩
  · exact Nat.le_refl _
  rw [noReset, ha, List.mem_cons, not_or] at hn
  obtain ⟨hm, hrest⟩ := hn
  cases hact with
  | command a w i _ _ _ hexec =>
    exact exec_cursor_le (s := { s with agenda := rest, port := s.port.withCmd w }) hrest hexec
  | illegal | portWrite | hostRead | hostWrite | block => exact Nat.le_refl _
  | controller a => exact (State.controllerStep_same { s with agenda := rest } a).1.cursor.ge
  | reset => exact absurd rfl hm

/-! ### Independence of the instances (R33) -/

/-- What `doneNat` leaves alone: all but the port and the count of free values. -/
theorem State.doneNat_frame (s : State) (v : Nat) :
    (s.doneNat v).cfg = s.cfg ∧ (s.doneNat v).rings = s.rings ∧ (s.doneNat v).erings = s.erings ∧
      (s.doneNat v).consumers = s.consumers ∧ (s.doneNat v).hostData = s.hostData := by
  rcases s.doneNat_cases v with ⟨-, h⟩ | ⟨-, h⟩ <;> rw [h] <;> exact ⟨rfl, rfl, rfl, rfl, rfl⟩

/-- The instances after a command that no reset abandons: at most the one it is addressed to has changed. -/
inductive InstancesAfter (s : State) (i : Instr) : State → Prop
  | same (t : State) : t.rings = s.rings → t.erings = s.erings → InstancesAfter s i t
  | ring (k : Nat) (r : Ring) (t : State) : i ∈ [Instr.ringInit k, .ringPush k, .ringBuf k] →
      t.rings = s.rings.set k r → t.erings = s.erings → InstancesAfter s i t
  | ering (k : Nat) (e : EventRing) (t : State) :
      i ∈ [Instr.erInit k, .erHasFront k, .erFront k, .erPop k] →
      t.rings = s.rings → t.erings = s.erings.set k e → InstancesAfter s i t

theorem exec_instances {i : Instr} {s t : State} (hn : noReset s.agenda) (h : exec i s = .next t) :
    InstancesAfter s i t ∧ t.hostData = s.hostData := by
  have hend := exec_end i s
  rw [h] at hend
  cases hend with
  | halted | faulted | computed | noRoom => exact ⟨.same _ rfl rfl, rfl⟩
  | allocated _ a size =>
    obtain ⟨-, hrings, herings, -, hdata⟩ := State.doneNat_frame { s with cursor := a + size } a
    exact ⟨.same _ hrings herings, hdata⟩
  | ringFailed k r => exact ⟨.ring k _ _ (by simp) rfl rfl, rfl⟩
  | ringMade k r b n u _ _ _ _ _ _ _ hu =>
    exact ⟨.ring k (Ring.fresh b n) _ (by simp) (congrArg (List.set · k (Ring.fresh b n)) hu.same.rings)
      hu.same.erings, hu.same.hostData⟩
  | pushed k r u _ _ _ _ hu =>
    exact ⟨.ring k r.advance _ (by simp) (congrArg (List.set · k r.advance) hu.same.rings) hu.same.erings,
      hu.same.hostData⟩
  | eringFailed j => exact ⟨.ering j _ _ (by simp) rfl rfl, rfl⟩
  | eringMade j e b m tbl u _ _ _ _ _ _ _ _ _ _ hu =>
    exact ⟨.ering j (EventRing.fresh b m tbl s.port.arg1) _ (by simp) hu.same.rings
      (congrArg (List.set · j (EventRing.fresh b m tbl s.port.arg1)) hu.same.erings), hu.same.hostData⟩
  | looked _ _ _ u _ _ hu => exact ⟨.same _ hu.same.rings hu.same.erings, hu.same.hostData⟩
  | popped j e dq p u _ _ _ hu =>
    obtain ⟨-, hrings, herings, -, hdata⟩ := State.doneNat_frame (u.setEventRing j (e.popped dq)) p
    exact ⟨.ering j (e.popped dq) _ (by simp) (hrings.trans hu.same.rings)
      (herings.trans (congrArg (List.set · j (e.popped dq)) hu.same.erings)), hdata.trans hu.same.hostData⟩
  | abandoned _ _ _ _ hm _ => exact absurd hm hn

/-- The parameters and the numbers of instances and consumers are the same after every command, abandoned or not. -/
structure CountsSame (s t : State) : Prop where
  cfg : t.cfg = s.cfg
  rings : t.rings.length = s.rings.length
  erings : t.erings.length = s.erings.length
  consumers : t.consumers.length = s.consumers.length

theorem EventsDone.counts {s u : State} {c : Nat} (h : EventsDone { s with cursor := c } u) : CountsSame s u :=
  ⟨h.same.cfg, congrArg _ h.same.rings, congrArg _ h.same.erings, h.consumers⟩

theorem exec_counts {i : Instr} {s t : State} (h : exec i s = .next t) : CountsSame s t := by
  have hend := exec_end i s
  rw [h] at hend
  cases hend with
  | halted | faulted | computed | noRoom => exact ⟨rfl, rfl, rfl, rfl⟩
  | allocated _ a size =>
    obtain ⟨hcfg, hrings, herings, hconsumers, -⟩ := State.doneNat_frame { s with cursor := a + size } a
    exact ⟨hcfg, congrArg _ hrings, congrArg _ herings, congrArg _ hconsumers⟩
  | ringFailed => exact ⟨rfl, List.length_set, rfl, rfl⟩
  | ringMade _ _ _ _ _ _ _ _ _ _ _ _ hu =>
    obtain ⟨hcfg, hrings, herings, hconsumers⟩ := hu.counts
    exact ⟨hcfg, List.length_set.trans hrings, herings, hconsumers⟩
  | pushed _ _ _ _ _ _ _ hu =>
    obtain ⟨hcfg, hrings, herings, hconsumers⟩ := EventsDone.counts (c := s.cursor) hu
    exact ⟨hcfg, List.length_set.trans hrings, herings, hconsumers⟩
  | eringFailed => exact ⟨rfl, rfl, List.length_set, rfl⟩
  | eringMade _ _ _ _ _ _ _ _ _ _ _ _ _ _ _ _ hu =>
    obtain ⟨hcfg, hrings, herings, hconsumers⟩ := hu.counts
    exact ⟨hcfg, hrings, List.length_set.trans herings, hconsumers⟩
  | looked _ _ _ _ _ _ hu =>
    obtain ⟨hcfg, hrings, herings, hconsumers⟩ := EventsDone.counts (c := s.cursor) hu
    exact ⟨hcfg, hrings, herings, hconsumers⟩
  | popped j e dq p u _ _ _ hu =>
    obtain ⟨hcfg, hrings, herings, hconsumers⟩ := EventsDone.counts (c := s.cursor) hu
    obtain ⟨hcfg', hrings', herings', hconsumers', -⟩ := State.doneNat_frame (u.setEventRing j (e.popped dq)) p
    exact ⟨hcfg'.trans hcfg, (congrArg _ hrings').trans hrings,
      (congrArg _ herings').trans (List.length_set.trans herings), (congrArg _ hconsumers').trans hconsumers⟩
  | abandoned _ _ _ _ _ hu =>
    obtain ⟨hcfg, hrings, herings, hconsumers⟩ := hu.counts
    exact ⟨hcfg, (List.length_map _).trans hrings, (List.length_map _).trans herings, hconsumers⟩

/-- Settles O56: a command sets at most the instance it is addressed to. -/
theorem instancesAreIndependent : Obligations.InstancesAreIndependent := by
  intro i s t hn h
  obtain ⟨hinst, hdata⟩ := exec_instances hn h
  obtain ⟨hcfg, hrings, herings, -⟩ := exec_counts h
  refine ⟨fun k hk => ?_, fun k hk => ?_, hrings, herings, hcfg, hdata⟩
  · cases hinst with
    | same _ hr _ => rw [hr]
    | ring k' r _ hi hr _ =>
      have hne : k' ≠ k := fun hkk => hk (hkk ▸ hi)
      rw [hr, List.getElem?_set_ne hne]
    | ering _ _ _ _ hr _ => rw [hr]
  · cases hinst with
    | same _ _ he => rw [he]
    | ring _ _ _ _ _ he => rw [he]
    | ering k' e _ hi _ he =>
      have hne : k' ≠ k := fun hkk => hk (hkk ▸ hi)
      rw [he, List.getElem?_set_ne hne]

end Sys2Proof.Machine
end

section
/-! PROOFS. The invariants of 10_state.md, the disjointness of the regions, and the caller's duty for `regs`: every
step keeps them (R28, R31, R35, R68, R69, R122, R257). -/

namespace Sys2Proof.Machine

/-! ### The invariants of the block -/

theorem State.BlockInv.poolEnd_le {s : State} (h : s.BlockInv) : s.cfg.poolEnd ≤ addressSpace :=
  of_decide_eq_true h.arena

/-- The invariants of a Ring hold at every later cursor. -/
theorem Ring.invariant_mono {c : Config} {x y : Nat} {r : Ring} (h : r.invariant c x) (hxy : x ≤ y) :
    r.invariant c y := by
  intro hs
  obtain ⟨halign, hlow, hhigh, hcursor⟩ := h hs
  exact ⟨halign, hlow, hhigh.trans hxy, hcursor⟩

theorem EventRing.invariant_mono {c : Config} {x y : Nat} {e : EventRing} (h : e.invariant c x) (hxy : x ≤ y) :
    e.invariant c y := by
  intro hs
  obtain ⟨hbase, herst, hlow, hmin, hmax, hapart, hhigh⟩ := h hs
  exact ⟨hbase, herst, hlow, hmin, hmax, hapart, hhigh.trans hxy⟩

/-- The invariants after the events of a command that has moved the cursor inside the arena. -/
theorem EventsDone.blockInv {s u : State} {c : Nat} (h : EventsDone { s with cursor := c } u) (hs : s.BlockInv)
    (hlo : s.cursor ≤ c) (hhi : c ≤ s.cfg.poolEnd) : u.BlockInv := by
  obtain ⟨⟨hcfg, hport, hcursor, hrings, herings, -, -⟩, -, hmem, hmmio, hproducers, -⟩ := h
  constructor
  case arena => exact hcfg ▸ hs.arena
  case cursorLow => exact hcfg ▸ hcursor ▸ hs.cursorLow.trans hlo
  case cursorHigh => exact hcfg ▸ hcursor ▸ hhi
  case rings =>
    rw [hcfg, hcursor, hrings]
    exact fun r hr => Ring.invariant_mono (hs.rings r hr) hlo
  case erings =>
    rw [hcfg, hcursor, herings]
    exact fun e he => EventRing.invariant_mono (hs.erings e he) hlo
  case mem => exact hmem hs.mem
  case mmio => exact hmmio hs.mmio
  case producers => exact hproducers hs.producers
  case status =>
    rw [hport]
    exact hs.status

/-- The same for a command that has not moved the cursor. -/
theorem EventsDone.blockInv_of_same {s u : State} (h : EventsDone s u) (hs : s.BlockInv) : u.BlockInv :=
  EventsDone.blockInv (c := s.cursor) h hs (Nat.le_refl _) hs.cursorHigh

theorem State.BlockInv.setRing {s : State} (h : s.BlockInv) (k : Nat) {r : Ring}
    (hr : r.invariant s.cfg s.cursor) : (s.setRing k r).BlockInv :=
  { h with rings := fun q hq => (List.mem_or_eq_of_mem_set hq).elim (h.rings q) fun heq => heq ▸ hr }

theorem State.BlockInv.setEventRing {s : State} (h : s.BlockInv) (j : Nat) {e : EventRing}
    (he : e.invariant s.cfg s.cursor) : (s.setEventRing j e).BlockInv :=
  { h with erings := fun q hq => (List.mem_or_eq_of_mem_set hq).elim (h.erings q) fun heq => heq ▸ he }

theorem State.BlockInv.withPort {s : State} (h : s.BlockInv) {p : Port} (hp : p.statusLegal) :
    State.BlockInv { s with port := p } :=
  { h with status := hp }

theorem State.BlockInv.endWith {s : State} (h : s.BlockInv) {c : ResultCode} {f : Bool} {v : Word64}
    (hp : (s.endWith c f v).port.statusLegal) : (s.endWith c f v).BlockInv := h.withPort hp

theorem State.BlockInv.doneNat {s : State} (h : s.BlockInv) {v : Nat} (hp : (s.doneNat v).port.statusLegal) :
    (s.doneNat v).BlockInv := by
  rcases s.doneNat_cases v with ⟨-, hd⟩ | ⟨-, hd⟩ <;> rw [hd] at hp ⊢
  · exact h.endWith hp
  · exact State.BlockInv.endWith (s := { s with draws := s.draws + 1 }) { h with } hp

theorem State.BlockInv.withCursor {s : State} (h : s.BlockInv) {c : Nat} (hlo : s.cursor ≤ c)
    (hhi : c ≤ s.cfg.poolEnd) :
    State.BlockInv { s with cursor := c } :=
  (EventsDone.refl { s with cursor := c }).blockInv h hlo hhi

/-- Reset brings every instance to `UNINIT` and the cursor to the base, whatever they were. -/
theorem EventsDone.blockInv_reset {s u : State} {c : Nat} (h : EventsDone { s with cursor := c } u) (hs : s.BlockInv)
    (rest : List Move) : State.BlockInv { u.assertReset with agenda := rest } := by
  have huninit {r : Ring} (hr : r ∈ u.rings.map fun _ => Ring.reset) : r = Ring.reset := by
    obtain ⟨_, -, rfl⟩ := List.mem_map.mp hr
    rfl
  have huninitE {e : EventRing} (he : e ∈ u.erings.map fun _ => EventRing.reset) : e = EventRing.reset := by
    obtain ⟨_, -, rfl⟩ := List.mem_map.mp he
    rfl
  constructor
  case arena => exact h.same.cfg ▸ hs.arena
  case cursorLow => exact Nat.le_refl _
  case cursorHigh => exact Nat.le_add_right _ _
  case rings => exact fun r hr hready => by rw [huninit hr] at hready; cases hready
  case erings => exact fun e he hready => by rw [huninitE he] at hready; cases hready
  case mem => exact h.mem hs.mem
  case mmio => exact h.mmio hs.mmio
  case producers => exact h.producers hs.producers
  case status => exact Port.statusLegal_of_mem (List.mem_cons_self)

/-- A fresh Ring in the arena has its invariants (R136). -/
theorem Ring.fresh_invariant {c : Config} {b n : Nat} (hend : c.poolEnd ≤ addressSpace) (hn : 2 ≤ n) (hal : b % 64 = 0)
    (hlo : c.poolBase ≤ b) (hhi : b + 16 * n ≤ c.poolEnd) : (Ring.fresh b n).invariant c (b + 16 * n) := by
  intro _
  have hb : (BitVec.ofNat 64 b).toNat = b := toNat_ofNat64_of_lt (by simp only [addressSpace] at hend; omega)
  have hcap : (BitVec.ofNat 64 n).toNat = n := toNat_ofNat64_of_lt (by simp only [addressSpace] at hend; omega)
  simp only [Ring.fresh, hb, hcap]
  exact ⟨hal, hlo, Nat.le_refl _, by simpa using hn⟩

/-- A fresh EventRing in the arena has its invariants (R151). -/
theorem EventRing.fresh_invariant {c : Config} {b m t : Nat} (regs : Word64) (hend : c.poolEnd ≤ addressSpace)
    (hmin : 1 ≤ m) (hmax : m ≤ 65535) (hal : b % 64 = 0) (haltable : t % 64 = 0) (hlo : c.poolBase ≤ b)
    (hbt : b + 16 * m ≤ t) (hhi : t + 16 ≤ c.poolEnd) : (EventRing.fresh b m t regs).invariant c (t + 16) := by
  intro _
  have hb : (BitVec.ofNat 64 b).toNat = b := toNat_ofNat64_of_lt (by simp only [addressSpace] at hend; omega)
  have hcap : (BitVec.ofNat 64 m).toNat = m := toNat_ofNat64_of_lt (by omega)
  have ht : (BitVec.ofNat 64 t).toNat = t := toNat_ofNat64_of_lt (by simp only [addressSpace] at hend; omega)
  simp only [EventRing.fresh, hb, hcap, ht]
  exact ⟨hal, haltable, hlo, hmin, hmax, hbt, Nat.le_refl _⟩

/-- A push keeps the invariants of a Ring: the write cursor stays below the last slot (R139). -/
theorem Ring.advance_invariant {c : Config} {x : Nat} {r : Ring} (h : r.invariant c x) (hs : r.state = .ready) :
    r.advance.invariant c x := by
  intro _
  obtain ⟨halign, hlow, hhigh, hcursor⟩ := h hs
  have hcap := r.cap.isLt
  unfold Ring.advance
  split
  · exact ⟨halign, hlow, hhigh, by simpa using (show 2 ≤ r.cap.toNat by omega)⟩
  · next hw =>
    rw [r.wrapsNext_iff] at hw
    have hwidx : (BitVec.ofNat 64 (r.widx.toNat + 1)).toNat = r.widx.toNat + 1 := toNat_ofNat64_of_lt (by omega)
    refine ⟨halign, hlow, hhigh, ?_⟩
    show (BitVec.ofNat 64 (r.widx.toNat + 1)).toNat + 2 ≤ r.cap.toNat
    omega

theorem EventRing.popped_invariant {c : Config} {x : Nat} {e : EventRing} (h : e.invariant c x) (dq : Nat) :
    (e.popped dq).invariant c x := by
  unfold EventRing.popped
  split
  · exact h
  · exact h

/-- Every command keeps the invariants of the block. -/
theorem exec_blockInv {i : Instr} {s t : State} (hs : s.BlockInv) (h : exec i s = .next t) : t.BlockInv := by
  have hstatus := exec_statusLegal h
  have hend := exec_end i s
  rw [h] at hend
  cases hend with
  | halted | faulted | computed | noRoom => exact hs.endWith hstatus
  | allocated _ a size _ hlo hhi =>
    exact (hs.withCursor (c := a + size) (hlo.trans (Nat.le_add_right _ _)) hhi).doneNat hstatus
  | ringFailed k r =>
    refine (hs.setRing k fun hready => ?_).endWith hstatus
    cases hready
  | ringMade k r b n u _ _ _ hn hal hlo hhi hu =>
    have huInv := hu.blockInv hs (hlo.trans (Nat.le_add_right _ _)) hhi
    refine (huInv.setRing k ?_).endWith hstatus
    rw [hu.same.cfg, hu.same.cursor]
    exact Ring.fresh_invariant hs.poolEnd_le hn hal (hs.cursorLow.trans hlo) hhi
  | pushed k r u v _ hr hready hu =>
    refine ((hu.blockInv_of_same hs).setRing k ?_).endWith hstatus
    rw [hu.same.cfg, hu.same.cursor]
    exact Ring.advance_invariant (hs.rings r (List.mem_of_getElem? hr)) hready
  | eringFailed j e c cursor _ _ _ _ hlo hhi =>
    refine ((hs.withCursor hlo (hhi hs.cursorHigh)).setEventRing j fun hready => ?_).endWith hstatus
    cases hready
  | eringMade j e b m tbl u _ _ _ hmin hmax hal haltable hlo hbt hhi hu =>
    have huInv := hu.blockInv hs (by omega) hhi
    refine (huInv.setEventRing j ?_).endWith hstatus
    rw [hu.same.cfg, hu.same.cursor]
    exact EventRing.fresh_invariant _ hs.poolEnd_le hmin hmax hal haltable (hs.cursorLow.trans hlo) hbt hhi
  | looked _ p v u _ _ hu => exact ((hu.blockInv_of_same hs)).withPort hstatus
  | popped j e dq p u _ he _ hu =>
    refine ((hu.blockInv_of_same hs).setEventRing j ?_).doneNat hstatus
    rw [hu.same.cfg, hu.same.cursor]
    exact EventRing.popped_invariant (hs.erings e (List.mem_of_getElem? he)) dq
  | abandoned _ _ u rest _ hu => exact hu.blockInv_reset hs rest

/-- Every move keeps the invariants of the block. -/
theorem ActEnd.blockInv {s t : State} {m : Move} (h : ActEnd s m t) (hs : s.BlockInv) : t.BlockInv := by
  have hport {p : Port} (hp : p.status = s.port.status) : p.statusLegal := by
    rw [Port.statusLegal, hp]
    exact hs.status
  cases h with
  | command a w i _ _ _ hexec => exact exec_blockInv (hs.withPort (hport (s.port.withCmd_status w))) hexec
  | illegal a w v hv =>
    refine hs.withPort (Port.statusLegal_of_mem ?_)
    simp only [List.mem_cons, List.not_mem_nil, or_false] at hv ⊢
    tauto
  | portWrite a p hp => exact hs.withPort (hport hp)
  | hostRead => exact { hs with }
  | hostWrite a m hm => exact { hs with mem := hm hs.mem }
  | controller a => exact (s.controllerStep_done a).blockInv_of_same hs
  | reset => exact EventsDone.blockInv_reset (c := s.cursor) (.refl s) hs s.agenda
  | block => exact hs

theorem step_blockInv {s t : State} (hs : s.BlockInv) (h : step s = .next t) : t.BlockInv := by
  rcases step_end h with ⟨-, rfl⟩ | ⟨m, rest, -, hact⟩
  · exact hs
  · exact hact.blockInv { hs with }

theorem step_counts {s t : State} (h : step s = .next t) : CountsSame s t := by
  rcases step_end h with ⟨-, rfl⟩ | ⟨m, rest, -, hact⟩
  · exact ⟨rfl, rfl, rfl, rfl⟩
  cases hact with
  | command a w i _ _ _ hexec =>
    obtain ⟨hcfg, hrings, herings, hconsumers⟩ := exec_counts hexec
    exact ⟨hcfg, hrings, herings, hconsumers⟩
  | illegal | portWrite | hostRead | hostWrite | block => exact ⟨rfl, rfl, rfl, rfl⟩
  | controller a =>
    have hdone := State.controllerStep_done { s with agenda := rest } a
    exact ⟨hdone.same.cfg, congrArg _ hdone.same.rings, congrArg _ hdone.same.erings, hdone.consumers⟩
  | reset => exact ⟨rfl, List.length_map _, List.length_map _, rfl⟩

/-- Settles O59: the invariants of the block by the ends of every move; the platform's part rests on parameters and
counts that no step changes. -/
theorem everyStepKeepsTheInvariants : Obligations.EveryStepKeepsTheInvariants := by
  refine ⟨fun s t => step_blockInv, fun s t hs h => ?_⟩
  obtain ⟨hcfg, hrings, herings, hconsumers⟩ := step_counts h
  exact
    { step_blockInv hs.toBlockInv h with
      platform := hcfg ▸ hs.platform
      ringCount := hrings.trans (hcfg ▸ hs.ringCount)
      eringCount := herings.trans (hcfg ▸ hs.eringCount)
      consumerCount := hconsumers.trans (hcfg ▸ hs.consumerCount) }

end Sys2Proof.Machine
end

section
/-! PROOFS. Every step keeps the regions of the instances disjoint, and genuine `regs` operands keep every EventRing on
an interrupter of its own (R68, R69, R122, R257). -/

namespace Sys2Proof.Machine

/-! ### Regions and their lists -/

/-- An element replaced by one that gives the same list. -/
theorem flatMap_set_eq {α β : Type} {g : α → List β} {l : List α} {k : Nat} {x y : α} (h : l[k]? = some x)
    (hg : g y = g x) : (l.set k y).flatMap g = l.flatMap g := by
  induction l generalizing k with
  | nil => rfl
  | cons a l ih =>
    cases k with
    | zero =>
      obtain rfl : a = x := by simpa using h
      simp [hg]
    | succ k => simp [ih (by simpa using h)]

/-- An element that gave nothing replaced by one that gives a list. -/
theorem flatMap_set_perm {α β : Type} {g : α → List β} {l : List α} {k : Nat} {x : α} (y : α) (h : l[k]? = some x)
    (hg : g x = []) : ((l.set k y).flatMap g).Perm (g y ++ l.flatMap g) := by
  induction l generalizing k with
  | nil => simp at h
  | cons a l ih =>
    cases k with
    | zero =>
      obtain rfl : a = x := by simpa using h
      simp [hg]
    | succ k =>
      simp only [List.set_cons_succ, List.flatMap_cons]
      exact ((ih (by simpa using h)).append_left (g a)).trans (List.perm_append_comm_assoc _ _ _)

theorem rangesDisjoint_of_le {a b : Nat × Nat} (h : a.1 + a.2 ≤ b.1) : rangesDisjoint a b = true := by
  simp [rangesDisjoint, h]

theorem rangesDisjoint_symm {a b : Nat × Nat} (h : rangesDisjoint a b = true) : rangesDisjoint b a = true :=
  rangesDisjoint_comm a b ▸ h

theorem Ring.regions_of_not_ready {r : Ring} (h : r.state ≠ .ready) : r.regions = [] := if_neg h
theorem EventRing.regions_of_not_ready {e : EventRing} (h : e.state ≠ .ready) : e.regions = [] := if_neg h

/-- Under the invariants every region lies below the cursor (R122). -/
theorem State.BlockInv.regions_below {s : State} (h : s.BlockInv) : ∀ a ∈ s.regions, a.1 + a.2 ≤ s.cursor := by
  intro a ha
  rcases List.mem_append.mp ha with ha | ha
  · obtain ⟨r, hr, ha⟩ := List.mem_flatMap.mp ha
    by_cases hs : r.state = .ready
    · obtain ⟨-, -, hhigh, -⟩ := h.rings r hr hs
      rw [Ring.regions, if_pos hs, List.mem_singleton] at ha
      exact ha ▸ hhigh
    · simp [Ring.regions_of_not_ready hs] at ha
  · obtain ⟨e, he, ha⟩ := List.mem_flatMap.mp ha
    by_cases hs : e.state = .ready
    · obtain ⟨-, -, -, -, -, hapart, hhigh⟩ := h.erings e he hs
      rw [EventRing.regions, if_pos hs, List.mem_cons, List.mem_singleton] at ha
      rcases ha with rfl | rfl
      · exact hapart.trans (by omega)
      · exact hhigh
    · simp [EventRing.regions_of_not_ready hs] at ha

/-- Regions put above the cursor are disjoint from those there. -/
theorem regionsDisjoint_of_perm {s t : State} {new : List (Nat × Nat)} (hinv : s.BlockInv) (hd : s.regionsDisjoint)
    (hperm : t.regions.Perm (new ++ s.regions)) (hnew : new.Pairwise fun a b => rangesDisjoint a b = true)
    (hlo : ∀ a ∈ new, s.cursor ≤ a.1) : t.regionsDisjoint := by
  refine (hperm.pairwise_iff rangesDisjoint_symm).mpr (List.pairwise_append.mpr ⟨hnew, hd, fun a ha b hb => ?_⟩)
  exact rangesDisjoint_symm (rangesDisjoint_of_le ((hinv.regions_below b hb).trans (hlo a ha)))

theorem regionsDisjoint_of_eq {s t : State} (hd : s.regionsDisjoint)
    (hr : t.rings.flatMap Ring.regions = s.rings.flatMap Ring.regions)
    (he : t.erings.flatMap EventRing.regions = s.erings.flatMap EventRing.regions) : t.regionsDisjoint := by
  rw [State.regionsDisjoint, State.regions, hr, he]
  exact hd

/-- After reset no instance owns a region. -/
theorem State.assertReset_regions (s : State) : s.assertReset.regions = [] := by
  have hr : (s.rings.map fun _ => Ring.reset).flatMap Ring.regions = [] := by
    simp [Ring.regions_of_not_ready (r := Ring.reset) (by decide)]
  have he : (s.erings.map fun _ => EventRing.reset).flatMap EventRing.regions = [] := by
    simp [EventRing.regions_of_not_ready (e := EventRing.reset) (by decide)]
  rw [State.regions, State.assertReset_rings, State.assertReset_erings, hr, he]
  rfl

theorem Ring.advance_regions (r : Ring) : r.advance.regions = r.regions := by
  unfold Ring.advance
  split <;> rfl

theorem EventRing.popped_regions (e : EventRing) (dq : Nat) : (e.popped dq).regions = e.regions := by
  unfold EventRing.popped
  split <;> rfl

theorem Lifecycle.uninit_ne_ready {l : Lifecycle} (h : l = .uninit) : l ≠ .ready := h ▸ by decide

/-- Every command keeps the regions disjoint. -/
theorem exec_regionsDisjoint {i : Instr} {s t : State} (hs : s.BlockInv) (hd : s.regionsDisjoint)
    (h : exec i s = .next t) : t.regionsDisjoint := by
  have hend := exec_end i s
  rw [h] at hend
  cases hend with
  | halted | faulted | computed | noRoom => exact hd
  | allocated _ a size =>
    obtain ⟨-, hrings, herings, -, -⟩ := State.doneNat_frame { s with cursor := a + size } a
    exact regionsDisjoint_of_eq hd (congrArg _ hrings) (congrArg _ herings)
  | ringFailed k r c _ hr hs' =>
    exact regionsDisjoint_of_eq hd
      (flatMap_set_eq hr (Ring.regions_of_not_ready (Lifecycle.uninit_ne_ready hs')).symm) rfl
  | ringMade k r b n u _ hr hs' hn hal hlo hhi hu =>
    have hend := hs.poolEnd_le
    simp only [addressSpace] at hend
    have hb : (BitVec.ofNat 64 b).toNat = b := toNat_ofNat64_of_lt (by omega)
    have hregions : (Ring.fresh b n).regions = [((BitVec.ofNat 64 b).toNat, 16 * (BitVec.ofNat 64 n).toNat)] := rfl
    refine regionsDisjoint_of_perm (new := (Ring.fresh b n).regions) hs hd ?_
      (hregions ▸ List.pairwise_singleton _ _) ?_
    · have hperm := flatMap_set_perm (Ring.fresh b n) hr (Ring.regions_of_not_ready (Lifecycle.uninit_ne_ready hs'))
      simp only [State.regions, State.done_rings, State.done_erings, State.setRing_rings, State.setRing_erings,
        hu.same.rings, hu.same.erings, ← List.append_assoc]
      exact hperm.append_right _
    · simp [hregions, hb, hlo]
  | pushed k r u v _ hr _ hu =>
    refine regionsDisjoint_of_eq hd ?_ (congrArg _ hu.same.erings)
    rw [State.done_rings, State.setRing_rings, hu.same.rings, flatMap_set_eq hr r.advance_regions]
  | eringFailed j e c cursor _ he hs' =>
    exact regionsDisjoint_of_eq hd rfl
      (flatMap_set_eq he (EventRing.regions_of_not_ready (Lifecycle.uninit_ne_ready hs')).symm)
  | eringMade j e b m tbl u _ he hs' hmin hmax hal haltable hlo hbt hhi hu =>
    have hend := hs.poolEnd_le
    simp only [addressSpace] at hend
    have hb : (BitVec.ofNat 64 b).toNat = b := toNat_ofNat64_of_lt (by omega)
    have hm : (BitVec.ofNat 64 m).toNat = m := toNat_ofNat64_of_lt (by omega)
    have ht : (BitVec.ofNat 64 tbl).toNat = tbl := toNat_ofNat64_of_lt (by omega)
    have hregions : (EventRing.fresh b m tbl s.port.arg1).regions = [(b, 16 * m), (tbl, 16)] := by
      show [((BitVec.ofNat 64 b).toNat, 16 * (BitVec.ofNat 64 m).toNat), ((BitVec.ofNat 64 tbl).toNat, 16)] = _
      rw [hb, hm, ht]
    refine regionsDisjoint_of_perm (new := [(b, 16 * m), (tbl, 16)]) hs hd ?_ ?_ ?_
    · have hperm := flatMap_set_perm (EventRing.fresh b m tbl s.port.arg1) he
        (EventRing.regions_of_not_ready (Lifecycle.uninit_ne_ready hs'))
      rw [hregions] at hperm
      simp only [State.regions, State.done_rings, State.done_erings, State.setEventRing_rings,
        State.setEventRing_erings, hu.same.rings, hu.same.erings]
      exact (hperm.append_left _).trans (List.perm_append_comm_assoc _ _ _)
    · exact List.pairwise_pair.mpr (rangesDisjoint_of_le hbt)
    · simp only [List.forall_mem_cons, List.not_mem_nil, false_implies, implies_true, and_true]
      omega
  | looked _ p v u _ _ hu => exact regionsDisjoint_of_eq hd (congrArg _ hu.same.rings) (congrArg _ hu.same.erings)
  | popped j e dq p u _ he _ hu =>
    obtain ⟨-, hrings, herings, -, -⟩ := State.doneNat_frame (u.setEventRing j (e.popped dq)) p
    refine regionsDisjoint_of_eq hd (congrArg _ (hrings.trans hu.same.rings)) ?_
    rw [herings, State.setEventRing_erings, hu.same.erings, flatMap_set_eq he (e.popped_regions dq)]
  | abandoned _ _ u rest _ _ =>
    have hnone : State.regions { u.assertReset with agenda := rest } = [] := u.assertReset_regions
    rw [State.regionsDisjoint, hnone]
    exact List.Pairwise.nil

theorem step_regionsDisjoint {s t : State} (hs : s.BlockInv) (hd : s.regionsDisjoint) (h : step s = .next t) :
    t.regionsDisjoint := by
  rcases step_end h with ⟨-, rfl⟩ | ⟨m, rest, -, hact⟩
  · exact hd
  have hinv : State.BlockInv { s with agenda := rest } := { hs with }
  cases hact with
  | command a w i _ _ _ hexec => exact exec_regionsDisjoint (hinv.withPort (p := s.port.withCmd w) hinv.status) hd hexec
  | illegal | portWrite | hostRead | hostWrite | block => exact hd
  | controller a =>
    have hsame := (State.controllerStep_same { s with agenda := rest } a).1
    exact regionsDisjoint_of_eq hd (congrArg _ hsame.rings) (congrArg _ hsame.erings)
  | reset =>
    rw [State.regionsDisjoint, State.assertReset_regions]
    exact List.Pairwise.nil

/-! ### EventRings on interrupters (R68, R257) -/

theorem State.RegsGenuine.of_eq {s t : State} (h : s.RegsGenuine) (hcfg : t.cfg = s.cfg) (he : t.erings = s.erings) :
    t.RegsGenuine :=
  ⟨hcfg ▸ he ▸ h.onPlatform, he ▸ h.apart⟩

/-- The EventRings sit on interrupters of their own, by their indices. -/
theorem State.regsGenuine_iff (s : State) :
    s.RegsGenuine ↔
      (∀ e ∈ s.erings, e.state = .ready → e.regsAddr ∈ s.cfg.interrupters) ∧
        ∀ (j k : Nat) (e f : EventRing), s.erings[j]? = some e → s.erings[k]? = some f → j < k → e.state = .ready →
          f.state = .ready → e.regsAddr ≠ f.regsAddr := by
  constructor
  · rintro ⟨hon, hapart⟩
    refine ⟨hon, fun j k e f he hf hjk => ?_⟩
    obtain ⟨hj, rfl⟩ := List.getElem?_eq_some_iff.mp he
    obtain ⟨hk, rfl⟩ := List.getElem?_eq_some_iff.mp hf
    exact List.pairwise_iff_getElem.mp hapart j k hj hk hjk
  · rintro ⟨hon, hapart⟩
    refine ⟨hon, List.pairwise_iff_getElem.mpr fun j k hj hk hjk => ?_⟩
    exact hapart j k _ _ (List.getElem?_eq_getElem hj) (List.getElem?_eq_getElem hk) hjk

/-- Two different `READY` EventRings have different registers. -/
theorem State.RegsGenuine.ne {s : State} (h : s.RegsGenuine) {j k : Nat} {e f : EventRing} (he : s.erings[j]? = some e)
    (hf : s.erings[k]? = some f) (hne : j ≠ k) (hes : e.state = .ready) (hfs : f.state = .ready) :
    e.regsAddr ≠ f.regsAddr := by
  obtain ⟨-, hapart⟩ := s.regsGenuine_iff.mp h
  rcases Nat.lt_or_gt_of_ne hne with hlt | hgt
  · exact hapart j k e f he hf hlt hes hfs
  · exact (hapart k j f e hf he hgt hfs hes).symm

/-- One EventRing replaced by one that is not `READY`, or is on an interrupter no other `READY` EventRing has. -/
theorem State.RegsGenuine.set {s t : State} {j : Nat} {f : EventRing} (h : s.RegsGenuine) (hcfg : t.cfg = s.cfg)
    (he : t.erings = s.erings.set j f)
    (hf : f.state = .ready → f.regsAddr ∈ s.cfg.interrupters ∧
      ∀ k e, k ≠ j → s.erings[k]? = some e → e.state = .ready → e.regsAddr ≠ f.regsAddr) : t.RegsGenuine := by
  have hat {k : Nat} {e : EventRing} (hk : t.erings[k]? = some e) : k = j ∧ e = f ∨ k ≠ j ∧ s.erings[k]? = some e := by
    by_cases hkj : k = j
    · subst hkj
      rw [he, List.getElem?_set] at hk
      simp only [if_true] at hk
      split at hk
      · exact .inl ⟨rfl, (Option.some.inj hk).symm⟩
      · cases hk
    · rw [he, List.getElem?_set_ne (Ne.symm hkj)] at hk
      exact .inr ⟨hkj, hk⟩
  refine t.regsGenuine_iff.mpr ⟨fun e hmem hes => ?_, fun a b e g ha hb hab hes hgs => ?_⟩
  · obtain ⟨k, hk, rfl⟩ := List.mem_iff_getElem.mp hmem
    rcases hat (List.getElem?_eq_getElem hk) with ⟨-, heq⟩ | ⟨-, hold⟩
    · rw [heq] at hes ⊢
      exact hcfg ▸ (hf hes).1
    · exact hcfg ▸ h.onPlatform _ (List.mem_of_getElem? hold) hes
  · rcases hat ha with ⟨haj, rfl⟩ | ⟨haj, hea⟩ <;> rcases hat hb with ⟨hbj, rfl⟩ | ⟨hbj, hgb⟩
    · omega
    · exact ((hf hes).2 b g hbj hgb hgs).symm
    · exact (hf hgs).2 a e haj hea hes
    · exact h.ne hea hgb (Nat.ne_of_lt hab) hes hgs

/-- With every instance `UNINIT` there is nothing to keep. -/
theorem State.regsGenuine_of_reset {s : State} (h : ∀ e ∈ s.erings, e = EventRing.reset) : s.RegsGenuine := by
  have hno : ∀ e ∈ s.erings, e.state ≠ .ready := fun e he => h e he ▸ by decide
  exact ⟨fun e he hs => absurd hs (hno e he),
    List.Pairwise.imp_of_mem (fun he _ _ hs => absurd hs (hno _ he)) (List.pairwise_of_forall fun _ _ => trivial)⟩

theorem State.assertReset_regsGenuine (s : State) (rest : List Move) :
    State.RegsGenuine { s.assertReset with agenda := rest } :=
  State.regsGenuine_of_reset fun e he => by
    obtain ⟨_, -, rfl⟩ := List.mem_map.mp he
    rfl

/-- A command keeps the caller's duty, given that an `ER.INIT` has a genuine operand. -/
theorem exec_regsGenuine {i : Instr} {s t : State} (hg : s.RegsGenuine)
    (hop : ∀ j, i = .erInit j → s.regsOperandGenuine)
    (h : exec i s = .next t) : t.RegsGenuine := by
  have hend := exec_end i s
  rw [h] at hend
  cases hend with
  | halted | faulted | computed | noRoom | ringFailed => exact hg.of_eq rfl rfl
  | allocated _ a size =>
    obtain ⟨hcfg, -, herings, -, -⟩ := State.doneNat_frame { s with cursor := a + size } a
    exact hg.of_eq hcfg herings
  | ringMade _ _ _ _ u _ _ _ _ _ _ _ hu => exact hg.of_eq hu.same.cfg hu.same.erings
  | pushed _ _ u _ _ _ _ hu => exact hg.of_eq hu.same.cfg hu.same.erings
  | looked _ _ _ u _ _ hu => exact hg.of_eq hu.same.cfg hu.same.erings
  | eringFailed j e => exact hg.set rfl rfl fun hready => by cases hready
  | eringMade j e b m tbl u _ _ _ _ _ _ _ _ _ _ hu =>
    obtain ⟨hmem, hfree⟩ := hop j rfl
    refine hg.set (f := EventRing.fresh b m tbl s.port.arg1) hu.same.cfg
      (congrArg (List.set · j (EventRing.fresh b m tbl s.port.arg1)) hu.same.erings) fun _ => ⟨hmem, ?_⟩
    exact fun k f _ hf hfs heq => hfree f (List.mem_of_getElem? hf) hfs (BitVec.eq_of_toNat_eq heq)
  | popped j e dq p u _ he hready hu =>
    obtain ⟨hcfg, -, herings, -, -⟩ := State.doneNat_frame (u.setEventRing j (e.popped dq)) p
    have hregs : (e.popped dq).regsAddr = e.regsAddr := by
      unfold EventRing.popped
      split <;> rfl
    refine hg.set (f := e.popped dq) (hcfg.trans hu.same.cfg)
      (herings.trans (congrArg (List.set · j (e.popped dq)) hu.same.erings)) fun _ => hregs ▸ ⟨?_, ?_⟩
    · exact hg.onPlatform e (List.mem_of_getElem? he) hready
    · exact fun k f hk hf hfs => hg.ne hf he hk hfs hready
  | abandoned _ _ u rest _ _ => exact u.assertReset_regsGenuine rest

/-- The command a host action runs is the one `nextCommand` announces. -/
theorem State.nextCommand_of_commandWord {s : State} {a : HostAction} {rest : List Move} {w : Word32} {i : Instr}
    (ha : s.agenda = .host a :: rest) (hw : s.commandWord a = some w) (hd : decode w = .ok i) :
    s.nextCommand = some i := by
  cases a with
  | portWrite off width v | portForward off width =>
    simp only [State.commandWord] at hw
    split at hw
    · next hcmd =>
      obtain ⟨rfl, rfl⟩ := hcmd
      obtain rfl := Option.some.inj hw
      simp only [State.nextCommand, ha, hd]
      rfl
    · cases hw
  | portRead | memWrite32 | memRead32 => cases hw

theorem step_regsGenuine {s t : State} (hg : s.RegsGenuine)
    (hop : ∀ j, s.nextCommand = some (.erInit j) → s.regsOperandGenuine) (h : step s = .next t) : t.RegsGenuine := by
  rcases step_end h with ⟨-, rfl⟩ | ⟨m, rest, ha, hact⟩
  · exact hg
  cases hact with
  | command a w i _ hw hd hexec =>
    refine exec_regsGenuine (s := { s with agenda := rest, port := s.port.withCmd w }) (hg.of_eq rfl rfl) ?_ hexec
    rintro j rfl
    exact hop j (State.nextCommand_of_commandWord ha hw hd)
  | illegal | portWrite | hostRead | hostWrite | block => exact hg.of_eq rfl rfl
  | controller a =>
    have hsame := (State.controllerStep_same { s with agenda := rest } a).1
    exact hg.of_eq hsame.cfg hsame.erings
  | reset => exact State.assertReset_regsGenuine _ rest

/-- The ranges of the address map apart from one another, as a fact about any two of them (R68). -/
theorem Config.disjoint_of_mem {c : Config} (h : c.wellFormed = true) {a b : Nat × Nat} (ha : a ∈ c.ranges)
    (hb : b ∈ c.ranges) (hne : a ≠ b) : rangesDisjoint a b = true := by
  obtain ⟨-, -, -, -, hdisjoint⟩ := (wellFormed_iff c).mp h
  have hsymm : Std.Symm fun a b : Nat × Nat => rangesDisjoint a b = true := ⟨fun _ _ => rangesDisjoint_symm⟩
  exact (of_decide_eq_true hdisjoint).forall ha hb hne

/-- What a platform the spec allows says of one of its interrupters (R66, R68). -/
theorem Config.interrupter_apart {c : Config} (h : c.wellFormed = true) {x : Nat} (hx : x ∈ c.interrupters) :
    x % 8 = 0 ∧ x + interrupterBytes ≤ addressSpace ∧
      rangesDisjoint (c.poolBase, c.poolCapacity) (x, interrupterBytes) = true ∧
      rangesDisjoint (c.hostportBase, hostportBytes) (x, interrupterBytes) = true := by
  obtain ⟨-, -, hfits, haligned, hdisjoint⟩ := (wellFormed_iff c).mp h
  have hblock : (x, interrupterBytes) ∈ c.interrupters.map fun r => (r, interrupterBytes) :=
    List.mem_map_of_mem (f := fun r => (r, interrupterBytes)) hx
  have hrange : (x, interrupterBytes) ∈ c.ranges := List.mem_cons_of_mem _ (List.mem_cons_of_mem _ hblock)
  obtain ⟨harena, hport⟩ := List.pairwise_cons.mp (of_decide_eq_true hdisjoint)
  obtain ⟨hport, -⟩ := List.pairwise_cons.mp hport
  exact ⟨of_decide_eq_true (List.all_eq_true.mp haligned x hx), of_decide_eq_true (List.all_eq_true.mp hfits _ hrange),
    harena _ (List.mem_cons_of_mem _ hblock), hport _ hblock⟩

/-- Settles O60: new regions lie above the cursor and all others below; genuine operands keep EventRings on
interrupters of their own; and interrupters of the platform are apart from all else. -/
theorem everyStepKeepsRegionsDisjoint : Obligations.EveryStepKeepsRegionsDisjoint := by
  refine ⟨fun s t => step_regionsDisjoint, fun s t => step_regsGenuine, fun s hs hg j e he hes => ?_⟩
  have hmem := hg.onPlatform e (List.mem_of_getElem? he) hes
  obtain ⟨haligned, hfits, harena, hport⟩ := Config.interrupter_apart hs.platform hmem
  refine ⟨haligned, hfits, harena, hport, fun k f hf hfs hkj => ?_⟩
  have hmemF := hg.onPlatform f (List.mem_of_getElem? hf) hfs
  have hrange {x : Nat} (hx : x ∈ s.cfg.interrupters) : (x, interrupterBytes) ∈ s.cfg.ranges :=
    List.mem_cons_of_mem _ (List.mem_cons_of_mem _ (List.mem_map_of_mem (f := fun r => (r, interrupterBytes)) hx))
  exact Config.disjoint_of_mem hs.platform (hrange hmemF) (hrange hmem)
    fun heq => hg.ne hf he hkj hfs hes (Prod.mk.inj heq).1

/-! ### Power-up (R49) -/

theorem State.powerUp_blockInv {cfg : Config} (h : cfg.arenaFits = true) : (State.powerUp cfg).BlockInv := by
  constructor
  case arena => exact h
  case cursorLow => exact Nat.le_refl _
  case cursorHigh => exact Nat.le_add_right _ _
  case rings => exact fun r hr hs => by rw [List.eq_of_mem_replicate hr] at hs; cases hs
  case erings => exact fun e he hs => by rw [List.eq_of_mem_replicate he] at hs; cases hs
  case mem | mmio => exact Memory.wf_nil
  case producers => exact List.Pairwise.nil
  case status => exact Port.statusLegal_of_mem List.mem_cons_self

theorem State.powerUp_regions (cfg : Config) : (State.powerUp cfg).regions = [] := by
  simp [State.regions, List.flatMap_replicate, Ring.regions_of_not_ready (r := Ring.reset) (by decide),
    EventRing.regions_of_not_ready (e := EventRing.reset) (by decide)]

theorem State.powerUp_regsGenuine (cfg : Config) : (State.powerUp cfg).RegsGenuine :=
  State.regsGenuine_of_reset fun _ he => List.eq_of_mem_replicate he

theorem State.powerUp_inv {cfg : Config} (h : cfg.wellFormed = true) : (State.powerUp cfg).Inv :=
  { State.powerUp_blockInv ((wellFormed_iff cfg).mp h).1 with
    platform := h
    ringCount := List.length_replicate
    eringCount := List.length_replicate
    consumerCount := List.length_replicate }

/-- Settles O58: at power-up every instance is `UNINIT` and every table empty; the reset state is the power-up of the
worked platform. -/
theorem powerUpHasTheInvariants : Obligations.PowerUpHasTheInvariants := by
  have hregions (cfg : Config) : (State.powerUp cfg).regionsDisjoint := by
    rw [State.regionsDisjoint, State.powerUp_regions]
    exact List.Pairwise.nil
  exact ⟨fun cfg h => ⟨State.powerUp_blockInv h, hregions cfg, State.powerUp_regsGenuine cfg⟩,
    fun cfg h => State.powerUp_inv h, State.powerUp_inv (by decide), hregions _, State.powerUp_regsGenuine _⟩

end Sys2Proof.Machine
end

section
/-! PROOFS. The allocator of 40_pool.md: `align_up` and `crosses`, where a region lies and when a request fails, what a
success guarantees, and which failures last (R9, R121 to R124, R126). -/

namespace Sys2Proof.Machine

/-! ### `align_up` and `crosses` (R9, R126) -/

theorem dvd_alignUp {x a : Nat} (ha : 0 < a) : a ∣ alignUp x a := by
  rw [alignUp, if_neg (by omega)]
  exact Nat.dvd_mul_left _ _

theorem alignUp_le_of_dvd {x a m : Nat} (ha : 0 < a) (hm : a ∣ m) (hx : x ≤ m) : alignUp x a ≤ m := by
  obtain ⟨k, rfl⟩ := hm
  have hdiv : (x + (a - 1)) / a < k + 1 := by
    rw [Nat.div_lt_iff_lt_mul ha, Nat.add_mul, Nat.mul_comm k]
    omega
  rw [alignUp, if_neg (by omega), Nat.mul_comm a]
  exact Nat.mul_le_mul_right a (Nat.le_of_lt_succ hdiv)

@[simp] theorem alignUp_zero (x : Nat) : alignUp x 0 = x := if_pos rfl

theorem alignUp_of_dvd {x a : Nat} (h : a ∣ x) : alignUp x a = x := by
  rcases Nat.eq_zero_or_pos a with rfl | ha
  · exact alignUp_zero x
  · exact Nat.le_antisymm (alignUp_le_of_dvd ha h (Nat.le_refl x)) (le_alignUp x a)

/-- A range crosses a multiple of `b` when its last byte lies in a later unit than its first. -/
theorem crosses_iff (p n b : Nat) : crosses p n b = true ↔ 0 < b ∧ 0 < n ∧ p / b < (p + n - 1) / b := by
  unfold crosses
  split
  · simp only [Bool.false_eq_true, false_iff]
    omega
  · have hle : p / b ≤ (p + n - 1) / b := Nat.div_le_div_right (by omega)
    simp only [decide_eq_true_eq]
    omega

/-- Settles O18: `align_up` rounds the quotient up, `crosses` compares the quotients of the first and the last byte. -/
theorem alignUpAndCrossesMeanWhatTheySay : Obligations.AlignUpAndCrossesMeanWhatTheySay := by
  refine ⟨fun x a ha => ⟨dvd_alignUp ha, le_alignUp x a, fun m => alignUp_le_of_dvd ha⟩,
    fun x a h => alignUp_of_dvd (Nat.dvd_of_mod_eq_zero h), alignUp_zero, fun a => alignUp_of_dvd (Nat.dvd_zero a),
    fun p n b => ?_⟩
  rw [crosses_iff]
  refine and_congr_right fun hb => and_congr_right fun _ => ⟨fun hlt => ?_, ?_⟩
  · exact ⟨(p + n - 1) / b * b, Nat.dvd_mul_left _ _, (Nat.div_lt_iff_lt_mul hb).mp hlt, Nat.div_mul_le_self _ _⟩
  · rintro ⟨m, ⟨k, rfl⟩, hlt, hle⟩
    rw [Nat.mul_comm] at hlt hle
    exact ((Nat.div_lt_iff_lt_mul hb).mpr hlt).trans_le ((Nat.le_div_iff_mul_le hb).mpr hle)

/-! ### Where a region lies, and when a request fails (R121) -/

/-- The request fails: the place it is tried at breaks its alignment, or it would end beyond the arena. -/
def AllocationFails (limit cursor size alignment boundary : Nat) : Prop :=
  (0 < alignment ∧ regionStart cursor size alignment boundary % alignment ≠ 0) ∨
    limit < regionStart cursor size alignment boundary + size

theorem placeRegion_of_fails {limit cursor size alignment boundary : Nat}
    (h : AllocationFails limit cursor size alignment boundary) :
    placeRegion limit cursor size alignment boundary = none := by
  simp only [placeRegion]
  split
  · rfl
  · next halign => exact if_pos (h.resolve_left halign)

theorem placeRegion_of_not_fails {limit cursor size alignment boundary : Nat}
    (h : ¬AllocationFails limit cursor size alignment boundary) :
    placeRegion limit cursor size alignment boundary = some (regionStart cursor size alignment boundary) := by
  obtain ⟨halign, hroom⟩ := not_or.mp h
  simp only [placeRegion]
  rw [if_neg halign, if_neg hroom]

theorem State.allocate_of_fails {s : State} {size alignment boundary : Nat}
    (h : AllocationFails s.cfg.poolEnd s.cursor size alignment boundary) :
    s.allocate size alignment boundary = none := by
  rw [State.allocate, placeRegion_of_fails h]

theorem State.allocate_of_not_fails {s : State} {size alignment boundary : Nat}
    (h : ¬AllocationFails s.cfg.poolEnd s.cursor size alignment boundary) :
    s.allocate size alignment boundary =
      some (regionStart s.cursor size alignment boundary,
        { s with cursor := regionStart s.cursor size alignment boundary + size }) := by
  rw [State.allocate, placeRegion_of_not_fails h]

theorem State.allocCommand_of_fails {s : State} {size alignment boundary : Nat} (hl : s.live)
    (h : AllocationFails s.cfg.poolEnd s.cursor size alignment boundary) :
    s.allocCommand size alignment boundary = .next (s.withResult 1 0) := by
  rw [State.allocCommand, State.allocate_of_fails h]
  exact congrArg _ (s.fail_live _ hl)

/-- The place found, the cursor goes behind the region (R121). -/
theorem State.allocCommand_of_not_fails {s : State} {size alignment boundary : Nat}
    (h : ¬AllocationFails s.cfg.poolEnd s.cursor size alignment boundary) :
    s.allocCommand size alignment boundary = .next
      (State.doneNat { s with cursor := regionStart s.cursor size alignment boundary + size }
        (regionStart s.cursor size alignment boundary)) := by
  rw [State.allocCommand, State.allocate_of_not_fails h]

/-- An allocation that does not fail ends with `STATUS` 0. -/
theorem State.allocCommand_succeeds {s : State} {size alignment boundary : Nat} (hl : s.live)
    (h : ¬AllocationFails s.cfg.poolEnd s.cursor size alignment boundary) :
    ∃ t, s.allocCommand size alignment boundary = .next t ∧ t.port.status = 0 :=
  ⟨_, State.allocCommand_of_not_fails h, State.doneNat_status _ hl⟩

theorem State.doneNat_fits {s : State} {v : Nat} (hl : s.live) (h : v < addressSpace) :
    s.doneNat v = s.withResult 0 (BitVec.ofNat 64 v) := by
  rw [s.doneNat_of_lt v h, s.done_live _ hl]

/-- A result of `2^64` or more: some value in `RES`, and one free value more drawn (assumption 5). -/
theorem State.doneNat_beyond {s : State} {v : Nat} (hl : s.live) (h : addressSpace ≤ v) :
    ∃ w, s.doneNat v = State.withResult { s with draws := s.draws + 1 } 0 w :=
  ⟨_, (if_neg (Nat.not_lt.mpr h)).trans (State.done_live { s with draws := s.draws + 1 } _ hl)⟩

theorem exec_poolAlloc_live {s : State} (hl : s.live) :
    exec .poolAlloc s = s.allocCommand s.port.arg0.toNat s.port.arg1.toNat s.port.arg2.toNat :=
  s.unlessHalted_live _ hl

theorem exec_poolAllocArr_live {s : State} (hl : s.live) :
    exec .poolAllocArr s =
      s.allocCommand (s.port.arg0.toNat * s.port.arg1.toNat) s.port.arg2.toNat s.port.arg3.toNat :=
  s.unlessHalted_live _ hl

/-- An allocation that succeeds with a start below `2^64`. -/
theorem State.allocCommand_fits {s : State} {size alignment boundary : Nat} (hl : s.live)
    (h : ¬AllocationFails s.cfg.poolEnd s.cursor size alignment boundary)
    (hlt : regionStart s.cursor size alignment boundary < addressSpace) :
    s.allocCommand size alignment boundary = .next (State.withResult
      { s with cursor := regionStart s.cursor size alignment boundary + size } 0
      (BitVec.ofNat 64 (regionStart s.cursor size alignment boundary))) := by
  rw [State.allocCommand_of_not_fails h]
  exact congrArg _ (State.doneNat_fits (s := { s with cursor := _ }) hl hlt)

/-- Settles O19: `POOL.ALLOC` on a live block is the allocator of R121. -/
theorem poolAllocPlacesTheRegion : Obligations.PoolAllocPlacesTheRegion := by
  intro s hl
  rw [exec_poolAlloc_live hl]
  exact ⟨State.allocCommand_of_fails hl, State.allocCommand_fits hl⟩

/-- On a platform the spec allows the arena is smaller than the address space, for the command port needs room. -/
theorem Config.poolCapacity_lt {c : Config} (h : c.wellFormed = true) : c.poolEnd < c.poolBase + addressSpace := by
  obtain ⟨harena, -, hfits, -, hdisjoint⟩ := (wellFormed_iff c).mp h
  have hend : c.poolBase + c.poolCapacity ≤ addressSpace := of_decide_eq_true harena
  have hport : c.hostportBase + hostportBytes ≤ addressSpace :=
    of_decide_eq_true (List.all_eq_true.mp hfits _ (List.mem_cons_of_mem _ List.mem_cons_self))
  have hapart : c.poolBase + c.poolCapacity ≤ c.hostportBase ∨ c.hostportBase + hostportBytes ≤ c.poolBase := by
    simpa [rangesDisjoint] using (List.pairwise_cons.mp (of_decide_eq_true hdisjoint)).1 _ List.mem_cons_self
  simp only [Config.poolEnd, hostportBytes] at *
  omega

/-- Settles O20: the size is the natural product, and no arena has room for `2^64` bytes above its base. -/
theorem poolAllocArrayMultipliesWithoutWrap : Obligations.PoolAllocArrayMultipliesWithoutWrap := by
  intro s hl
  rw [exec_poolAllocArr_live hl]
  refine ⟨State.allocCommand_of_fails hl, State.allocCommand_fits hl, fun hinv hplatform hsize => ?_⟩
  refine State.allocCommand_of_fails hl (.inr ?_)
  have hstart := le_regionStart s.cursor (s.port.arg0.toNat * s.port.arg1.toNat) s.port.arg2.toNat s.port.arg3.toNat
  have hcapacity := Config.poolCapacity_lt hplatform
  have hlow := hinv.cursorLow
  omega

/-! ### What a success guarantees (R122) -/

/-- A region no longer than the boundary does not cross a multiple of it, where it was moved to one or where it was
not (R122 b). -/
theorem regionStart_inside_boundary {cursor size alignment boundary : Nat} (hb : 0 < boundary) (hsize : 1 ≤ size)
    (hle : size ≤ boundary) :
    regionStart cursor size alignment boundary / boundary =
      (regionStart cursor size alignment boundary + size - 1) / boundary := by
  simp only [regionStart]
  split
  · obtain ⟨k, hk⟩ := dvd_alignUp (x := alignUp cursor alignment) hb
    have hlast : boundary * k + size - 1 = boundary * k + (size - 1) := by omega
    rw [hk, hlast, Nat.mul_div_cancel_left k hb, Nat.mul_add_div hb, Nat.div_eq_of_lt (by omega : size - 1 < boundary),
      Nat.add_zero]
  · next hcross =>
    rw [crosses_iff] at hcross
    have hmono : alignUp cursor alignment / boundary ≤ (alignUp cursor alignment + size - 1) / boundary :=
      Nat.div_le_div_right (by omega)
    omega

/-- A failed request ends with `STATUS` 1; any other with 0. -/
theorem exec_poolAlloc_succeeded {s t : State} (hl : s.live) (h : exec .poolAlloc s = .next t)
    (h0 : t.port.status = 0) :
    ¬AllocationFails s.cfg.poolEnd s.cursor s.port.arg0.toNat s.port.arg1.toNat s.port.arg2.toNat := by
  intro hfails
  rw [exec_poolAlloc_live hl, State.allocCommand_of_fails hl hfails] at h
  cases h
  exact absurd h0 (by decide : (1#32 : Word32) ≠ 0)

/-- Settles O22: the place found is aligned, inside one boundary unit, at or above the cursor, and its end is in the
arena. -/
theorem poolAllocGuarantees : Obligations.PoolAllocGuarantees := by
  intro s t hl hlow harena h h0 hnonempty
  have hok := exec_poolAlloc_succeeded hl h h0
  have hcursor := le_regionStart s.cursor s.port.arg0.toNat s.port.arg1.toNat s.port.arg2.toNat
  obtain ⟨halign, hroom⟩ := not_or.mp hok
  have hend : s.cfg.poolEnd ≤ addressSpace := of_decide_eq_true harena
  have hlt : regionStart s.cursor s.port.arg0.toNat s.port.arg1.toNat s.port.arg2.toNat < addressSpace := by omega
  rw [exec_poolAlloc_live hl, State.allocCommand_fits hl hok hlt] at h
  cases h
  simp only [State.withResult_port, State.withResult_cursor, toNat_ofNat64_of_lt hlt]
  refine ⟨fun hpos => ?_, fun hb h1 hle => regionStart_inside_boundary hb h1 hle,
    ⟨hlow, hcursor, trivial, Nat.le_of_not_lt hroom⟩, fun lo len hbelow => rangesDisjoint_of_le (hbelow.trans hcursor),
    hcursor.trans (Nat.le_add_right _ _)⟩
  by_contra hne
  exact halign ⟨hpos, hne⟩

/-! ### Failures that last, and one that does not (R123) -/

/-- On a live block a request fails exactly by the two tests of R121. -/
theorem exec_poolAlloc_fails_iff {s : State} (hl : s.live) :
    exec .poolAlloc s = .next (s.withResult 1 0) ↔
      AllocationFails s.cfg.poolEnd s.cursor s.port.arg0.toNat s.port.arg1.toNat s.port.arg2.toNat := by
  refine ⟨fun h => ?_, fun h => exec_poolAlloc_live hl ▸ State.allocCommand_of_fails hl h⟩
  by_contra hok
  obtain ⟨t, ht, h0⟩ := State.allocCommand_succeeds hl hok
  rw [exec_poolAlloc_live hl, ht] at h
  rw [Host.Outcome.next.inj h] at h0
  exact absurd h0 (by decide : (1#32 : Word32) ≠ 0)

/-- Outside corner case (e) of R121 the place a request is tried at keeps its alignment. -/
theorem regionStart_aligned {cursor size alignment boundary : Nat} (hpos : 0 < alignment)
    (h : boundary = 0 ∨ boundary % alignment = 0) : regionStart cursor size alignment boundary % alignment = 0 := by
  refine Nat.mod_eq_zero_of_dvd ?_
  simp only [regionStart]
  split
  · next hcross =>
    obtain ⟨hb, -, -⟩ := (crosses_iff _ _ _).mp hcross
    exact (Nat.dvd_of_mod_eq_zero (h.resolve_left (by omega))).trans (dvd_alignUp hb)
  · exact dvd_alignUp hpos

/-- A request that found no room finds none at a later cursor. -/
theorem AllocationFails.of_no_room {limit c d size alignment boundary : Nat} (hcd : c ≤ d)
    (h : limit < regionStart c size alignment boundary + size) :
    AllocationFails limit d size alignment boundary :=
  .inr (h.trans_le (Nat.add_le_add_right (regionStart_mono size alignment boundary hcd) size))

/-- Settles O23: the place decides, it moves up with the cursor, and outside corner case (e) only the room can fail. -/
theorem noRoomStaysNoRoom : Obligations.NoRoomStaysNoRoom := by
  refine ⟨fun s t hl h h0 => ?_, fun s t hs ht hcfg harg0 harg1 harg2 => ?_⟩
  · by_cases hfails : AllocationFails s.cfg.poolEnd s.cursor s.port.arg0.toNat s.port.arg1.toNat s.port.arg2.toNat
    · rw [(exec_poolAlloc_fails_iff hl).mpr hfails] at h
      exact (Host.Outcome.next.inj h).symm
    · obtain ⟨u, hu, hzero⟩ := State.allocCommand_succeeds hl hfails
      rw [exec_poolAlloc_live hl, hu] at h
      exact absurd (Host.Outcome.next.inj h ▸ hzero) h0
  · simp only [exec_poolAlloc_fails_iff hs, exec_poolAlloc_fails_iff ht, hcfg, harg0, harg1, harg2]
    refine ⟨fun hstart => ?_, fun hle hroom => ⟨.inr hroom, .of_no_room hle hroom⟩, fun hle hcase hfails => ?_⟩
    · rw [AllocationFails, AllocationFails, hstart]
      exact id
    · rcases hfails with ⟨hpos, hbroken⟩ | hroom
      · exact absurd (regionStart_aligned hpos (hcase.resolve_left (by omega))) hbroken
      · exact .of_no_room hle hroom

/-- The worked platform at a cursor, about to be asked for 40 bytes, alignment 48, boundary 64 (vector P7). -/
def requestAt (cursor : Nat) : State :=
  { State.reset with cursor := cursor, port := { Port.reset with arg0 := 40, arg1 := 48, arg2 := 64 } }

theorem requestAt_inv {cursor : Nat} (hlo : Config.worked.poolBase ≤ cursor)
    (hhi : cursor ≤ Config.worked.poolEnd) : (requestAt cursor).Inv :=
  { State.powerUp_inv (cfg := Config.worked) (by decide) with
    cursorLow := hlo
    cursorHigh := hhi
    rings := fun r hr hs => by rw [List.eq_of_mem_replicate hr] at hs; cases hs
    erings := fun e he hs => by rw [List.eq_of_mem_replicate he] at hs; cases hs
    status := Port.statusLegal_of_mem List.mem_cons_self }

/-- Refutes O24: at `0x1020C8` the boundary move to `0x102100` breaks the alignment 48; at `0x102150` the same request
crosses no multiple of 64 and succeeds. -/
theorem not_everyFailedRequestFailsAgain : ¬Obligations.EveryFailedRequestFailsAgain := by
  intro h
  have hlive (c : Nat) : (requestAt c).live := State.live_of_status (s := State.reset) (by decide) rfl
  have hagain := h (requestAt 0x1020C8) (requestAt 0x102150) (requestAt_inv (by decide) (by decide))
    (requestAt_inv (by decide) (by decide)) (hlive _) (hlive _) rfl (by decide) rfl rfl rfl
    ((exec_poolAlloc_fails_iff (hlive _)).mpr (.inl ⟨by decide, by decide⟩))
  rw [exec_poolAlloc_fails_iff (hlive _)] at hagain
  revert hagain
  unfold AllocationFails
  decide

end Sys2Proof.Machine
end

section
/-! PROOFS. The command port of 10_state.md section 1, as a step sees it, and the reset input (R20 to R26, R49, R216,
R222, R240, R241). -/

namespace Sys2Proof.Machine

/-! ### Command words (R20, R222) -/

/-- A step whose first entry writes a word to `CMD`. -/
theorem step_portWrite_command {s : State} {rest : List Move} {v : Word64}
    (h : s.agenda = .host (.portWrite 0 4 v) :: rest) :
    step s = State.command { s with agenda := rest } (v.setWidth 32) :=
  (step_cons h).trans (State.portWrite_command _ v)

theorem setWidth_setWidth_32 (w : Word32) : (w.setWidth 64).setWidth 32 = w := by simp

/-- Settles O6: the word written is the 64-bit datum's low half. -/
theorem stepRunsDecodedCommand : Obligations.StepRunsDecodedCommand := by
  intro s rest w i ha hd
  rw [step_portWrite_command ha, setWidth_setWidth_32, State.command_of_ok hd]

/-- Settles O7: step 1 of the dispatcher decides which of the two codes it is. -/
theorem stepOnIllegalWord : Obligations.StepOnIllegalWord := by
  intro s rest w e ha hd
  have hstep : step s = .next (State.withResult { s with agenda := rest, port := s.port.withCmd w }
      (if s.halted then 0x80000007#32 else 0x80000006#32) 0) := by
    rw [step_portWrite_command ha, setWidth_setWidth_32]
    exact State.command_of_error hd
  exact ⟨fun hl => by rw [hstep, hl]; rfl, fun hh => by rw [hstep, hh]; rfl⟩

/-! ### The register map (R20 to R26) -/

/-- The registers of the port: offset and width. -/
def portRegisters : List (Nat × Nat) :=
  [(0x00, 4), (0x04, 4), (0x08, 8), (0x10, 8), (0x18, 8), (0x20, 8), (0x28, 8), (0x30, 4), (0x34, 4), (0x38, 4),
    (0x3C, 4), (0x40, 4), (0x44, 4), (0x48, 4), (0x4C, 4)]

theorem unusedAccess_iff (off width : Nat) :
    unusedAccess off width = true ↔
      (off = 0x0C ∧ width = 4) ∨ (0x50 ≤ off ∧ (width = 4 ∨ width = 8) ∧ off % width = 0) := by
  simp [unusedAccess, and_assoc]

/-- No register stands at an unused offset. -/
theorem not_mem_portRegisters_of_unused {off width : Nat} (h : unusedAccess off width = true) :
    (off, width) ∉ portRegisters := by
  rw [unusedAccess_iff] at h
  simp only [portRegisters, List.mem_cons, Prod.mk.injEq, List.not_mem_nil, or_false]
  omega

/-- Away from the registers a read answers 0 at an unused offset and nothing elsewhere. -/
theorem Port.read_of_not_register (p : Port) {off width : Nat} (h : (off, width) ∉ portRegisters) :
    p.read off width = if unusedAccess off width then some 0 else none := by
  unfold Port.read
  split
  case h_16 => rfl
  all_goals exact absurd (by decide) h

/-- Away from the registers a write is ignored at an unused offset and is nothing elsewhere. -/
theorem Port.write_of_not_register (p : Port) {off width : Nat} (v : Word64) (h : (off, width) ∉ portRegisters) :
    p.write off width v = if unusedAccess off width then some p else none := by
  unfold Port.write
  split
  case h_15 => rfl
  all_goals exact absurd (by decide) h

theorem not_command_of_not_register {off width : Nat} (h : (off, width) ∉ portRegisters) :
    ¬(off = 0 ∧ width = 4) := by
  rintro ⟨rfl, rfl⟩
  exact h (by decide)

/-- Settles O8: each access of a register by the map's row, the others by `unusedAccess`. -/
theorem hostAccessesToThePort : Obligations.HostAccessesToThePort := by
  intro s rest v
  have hwrite {off width : Nat} {q : Port} (hcmd : ¬(off = 0 ∧ width = 4))
      (hq : s.port.write off width v = some q) :
      step { s with agenda := .host (.portWrite off width v) :: rest } = .next { s with agenda := rest, port := q } :=
    State.portWrite_register (s := { s with agenda := rest }) hcmd hq
  have hread {off width : Nat} {x : Word64} (hx : s.port.read off width = some x) :
      step { s with agenda := .host (.portRead off width) :: rest } =
        .next { s with agenda := rest, hostData := x } :=
    State.portRead_of_some (s := { s with agenda := rest }) hx
  simp only [← unusedAccess_iff]
  refine ⟨fun i hd => ?_, fun e hd => ?_, hwrite (by decide) rfl, hwrite (by decide) rfl, hwrite (by decide) rfl,
    hwrite (by decide) rfl, hwrite (by decide) rfl, hwrite (by decide) rfl, hwrite (by decide) rfl,
    hwrite (by decide) rfl, ?_, ?_, fun off width hunused => ?_, fun off width hreg hunused => ?_⟩
  · exact (step_portWrite_command rfl).trans (State.command_of_ok hd)
  · exact (step_portWrite_command rfl).trans (State.command_of_error hd)
  · simp only [List.forall_mem_cons, List.not_mem_nil, false_implies, implies_true, and_true]
    exact ⟨hwrite (by decide) rfl, hwrite (by decide) rfl, hwrite (by decide) rfl, hwrite (by decide) rfl,
      hwrite (by decide) rfl, hwrite (by decide) rfl⟩
  · simp only [List.forall_mem_cons, List.not_mem_nil, false_implies, implies_true, and_true]
    exact ⟨hread rfl, hread rfl, hread rfl, hread rfl, hread rfl, hread rfl, hread rfl, hread rfl, hread rfl,
      hread rfl, hread rfl, hread rfl, hread rfl, hread rfl, hread rfl⟩
  · have hreg := not_mem_portRegisters_of_unused hunused
    exact ⟨hwrite (not_command_of_not_register hreg) ((s.port.write_of_not_register v hreg).trans (if_pos hunused)),
      hread ((s.port.read_of_not_register hreg).trans (if_pos hunused))⟩
  · have hnoRead := (s.port.read_of_not_register hreg).trans (if_neg hunused)
    have hnoWrite := (s.port.write_of_not_register v hreg).trans (if_neg hunused)
    constructor
    · show State.portRead { s with agenda := rest } off width = _
      simp only [State.portRead, hnoRead]
    · show State.portWrite { s with agenda := rest } off width v = _
      simp only [State.portWrite, if_neg (not_command_of_not_register hreg), hnoWrite]

/-! ### Reset (R49, R240, R241) -/

/-- Settles O16: the reset state, field by field. -/
theorem resetInputResetsTheBlockAlone : Obligations.ResetInputResetsTheBlockAlone := by
  intro s rest
  refine ⟨State.assertReset { s with agenda := rest }, rfl, rfl, rfl, rfl, rfl, rfl, rfl, rfl, rfl, rfl, rfl, rfl, rfl,
    rfl, rfl, rfl, rfl, List.length_map _, fun r hr => ?_, List.length_map _, fun e he => ?_⟩
  · obtain ⟨_, -, rfl⟩ := List.mem_map.mp hr
    rfl
  · obtain ⟨_, -, rfl⟩ := List.mem_map.mp he
    rfl

end Sys2Proof.Machine
end

section
/-! PROOFS. The Ring commands of 41_ring.md: `RING.INIT`, `RING.BUF`, and `RING.PUSH`, undisturbed, whatever the
controller does between its events, any number of times, and abandoned by a reset. -/

namespace Sys2Proof.Machine

/-! ### Parts of a command that go on -/

/-- Without a reset on the agenda a part whose accesses have addresses goes on. -/
theorem Part.exists_ok {α : Type} {fits : Prop} {s : State} {now : α → State} {x : Run α} (h : Part fits s now x)
    (hfits : fits) (hn : noReset s.agenda) : ∃ a, x = .ok a ∧ EventsDone s (now a) := by
  cases h with
  | goesOn a ha => exact ⟨a, rfl, ha⟩
  | abandoned u rest _ hm => exact absurd hm hn
  | stopped hno => exact absurd hfits hno

theorem State.next_done_live {u : State} (v : Word64) (h : u.live) :
    (.next (u.done v) : Outcome) = .next (u.withResult 0 v) := by
  rw [u.done_live v h]

theorem State.nextEvent_block {s : State} {rest : List Move} (h : s.agenda = .block :: rest) :
    s.nextEvent = .ok { s with agenda := rest } := by
  rw [State.nextEvent, h, betweenEvents]

theorem State.nextEvent_reset {s : State} {rest : List Move} (h : s.agenda = .reset :: rest) :
    s.nextEvent = .error (.next { s.assertReset with agenda := rest }) := by
  rw [State.nextEvent, h, betweenEvents]

/-- One step of the controller, then nobody until the block's event. -/
theorem State.nextEvent_controller {s : State} {a : ControllerAction} {rest : List Move}
    (h : s.agenda = .controller a :: rest) (hq : quiet rest = true) :
    s.nextEvent = .ok { s.controllerStep a with agenda := rest } := by
  rw [State.nextEvent, h, betweenEvents]
  cases rest with
  | nil => rfl
  | cons m l =>
    cases m with
    | host a => rfl
    | block | controller | reset => cases hq

/-- A memory write whose event comes. -/
theorem State.memWrite32_of_nextEvent {s u : State} {a : Nat} (v : Word32) (h : s.nextEvent = .ok u)
    (ha : a + 4 ≤ addressSpace) : s.memWrite32 a v = .ok { u with mem := u.mem.write32 a v } := by
  simp only [State.memWrite32, h, bind, Except.bind, (inAddressSpace_iff a 4).mpr ha, if_true]

/-! ### Allocations without a boundary (R136, R151) -/

theorem regionStart_zero_boundary (cursor size alignment : Nat) :
    regionStart cursor size alignment 0 = alignUp cursor alignment := by
  simp [regionStart, crosses]

theorem allocationFails_zero_boundary {limit cursor size alignment : Nat} :
    AllocationFails limit cursor size alignment 0 ↔ limit < alignUp cursor alignment + size := by
  rw [AllocationFails, regionStart_zero_boundary]
  refine or_iff_right fun ⟨hpos, hne⟩ => hne (Nat.mod_eq_zero_of_dvd (dvd_alignUp hpos))

theorem State.allocate_no_room {s : State} {size alignment : Nat}
    (h : s.cfg.poolEnd < alignUp s.cursor alignment + size) : s.allocate size alignment 0 = none :=
  State.allocate_of_fails (allocationFails_zero_boundary.mpr h)

theorem State.allocate_room {s : State} {size alignment : Nat}
    (h : alignUp s.cursor alignment + size ≤ s.cfg.poolEnd) :
    s.allocate size alignment 0 =
      some (alignUp s.cursor alignment, { s with cursor := alignUp s.cursor alignment + size }) := by
  have hok : ¬AllocationFails s.cfg.poolEnd s.cursor size alignment 0 :=
    fun hf => Nat.not_lt.mpr h (allocationFails_zero_boundary.mp hf)
  rw [State.allocate_of_not_fails hok, regionStart_zero_boundary]

/-! ### `RING.INIT` and `RING.BUF` (R136, R142) -/

theorem exec_ringInit_run {s : State} {i : Nat} {r : Ring} (hl : s.live) (hr : s.rings[i]? = some r)
    (hs : r.state = .uninit) : exec (.ringInit i) s = s.ringInit i r :=
  s.onRing_run i .uninit _ r hl hr hs

theorem State.failRing_live {s : State} {i : Nat} {r : Ring} (c : ResultCode) (hl : s.live) :
    s.failRing i r c =
      .next (State.withResult { s with rings := s.rings.set i { r with state := .failed } } c.word 0) :=
  congrArg _ ((s.setRing i { r with state := .failed }).fail_live c hl)

theorem State.ringInit_no_room {s : State} {i : Nat} {r : Ring} (hn : ¬operandNat s.port.arg0 < 2)
    (h : s.allocate (operandNat s.port.arg0 * entryBytes) ringAlign ringBoundary = none) :
    s.ringInit i r = s.failRing i r .allocationFailure := by
  simp only [State.ringInit, if_neg hn, h]

theorem State.ringInit_room {s u : State} {i b : Nat} {r : Ring} (hn : ¬operandNat s.port.arg0 < 2)
    (h : s.allocate (operandNat s.port.arg0 * entryBytes) ringAlign ringBoundary = some (b, u)) :
    s.ringInit i r = Run.outcome (zeroFill (operandNat s.port.arg0) b u >>= fun u =>
      Pure.pure ((u.setRing i (Ring.fresh b (operandNat s.port.arg0))).done (BitVec.ofNat 64 b))) := by
  simp only [State.ringInit, if_neg hn, h]

/-- Settles O28: the two tests before any event. -/
theorem ringInitFails : Obligations.RingInitFails := by
  intro s i r hl hr hs
  rw [exec_ringInit_run hl hr hs]
  refine ⟨fun hn => (if_pos hn).trans (State.failRing_live .invalidCapacity hl), fun hn hroom => ?_⟩
  have hnone : s.allocate (operandNat s.port.arg0 * entryBytes) ringAlign ringBoundary = none :=
    State.allocate_no_room (by rw [Nat.mul_comm]; exact hroom)
  rw [State.ringInit_no_room (Nat.not_lt.mpr hn) hnone]
  exact State.failRing_live .allocationFailure hl

/-- Settles O27: the buffer is placed at the aligned cursor and zero-filled. -/
theorem ringInitSucceeds : Obligations.RingInitSucceeds := by
  intro s i r hl hu harena hr hs n b hn hroom
  have hend : s.cfg.poolEnd ≤ addressSpace := of_decide_eq_true harena
  have hsize : operandNat s.port.arg0 * entryBytes = 16 * n := Nat.mul_comm _ _
  have hsome : s.allocate (operandNat s.port.arg0 * entryBytes) ringAlign ringBoundary =
      some (b, { s with cursor := b + 16 * n }) := by
    rw [hsize]
    exact State.allocate_room hroom
  have hfill : zeroFill (operandNat s.port.arg0) b { s with cursor := b + 16 * n } =
      .ok { s with cursor := b + 16 * n, mem := s.mem.zeroed b n } :=
    zeroFill_undisturbed n b { s with cursor := b + 16 * n } hu (hroom.trans hend)
  have hfresh : Ring.fresh b (operandNat s.port.arg0) =
      { state := .ready, base := BitVec.ofNat 64 b, cap := s.port.arg0, widx := 0, pcs := true } := by
    simp [Ring.fresh, operandNat]
  refine ⟨State.withResult (State.setRing { s with cursor := b + 16 * n, mem := s.mem.zeroed b n } i
    (Ring.fresh b (operandNat s.port.arg0))) 0 (BitVec.ofNat 64 b), ?_, ?_, fun x => s.mem.peek_zeroed b n x⟩
  · rw [exec_ringInit_run hl hr hs, State.ringInit_room (Nat.not_lt.mpr hn) hsome, hfill]
    exact State.next_done_live _ hl
  · rw [hfresh]
    rfl

/-- Settles O31: `RING.BUF` has no event. -/
theorem ringBufAnswersTheBase : Obligations.RingBufAnswersTheBase := by
  intro s i r hl hr hs
  calc exec (.ringBuf i) s = .next (s.done r.base) := s.onRing_run i .ready _ r hl hr hs
    _ = .next (s.withResult 0 r.base) := by rw [s.done_live _ hl]

/-! ### The write cursor (R139) -/

theorem Ring.advance_of_wrap {r : Ring} (h : r.widx.toNat + 2 = r.cap.toNat) :
    r.advance = { r with widx := 0, pcs := !r.pcs } :=
  if_pos (r.wrapsNext_iff.mpr (by omega))

theorem Ring.advance_of_no_wrap {r : Ring} (h : r.widx.toNat + 2 < r.cap.toNat) :
    r.advance = { r with widx := r.widx + 1 } := by
  have hwidx : BitVec.ofNat 64 (r.widx.toNat + 1) = r.widx + 1 := by
    rw [BitVec.ofNat_add, BitVec.ofNat_toNat, BitVec.setWidth_eq]
    rfl
  rw [Ring.advance, if_neg fun hw => by rw [r.wrapsNext_iff] at hw; omega, hwidx]

/-- A Ring whose write cursor is below the last slot and whose buffer has addresses. -/
structure Ring.Fits (r : Ring) : Prop where
  cursor : r.widx.toNat + 2 ≤ r.cap.toNat
  buffer : r.slot r.cap.toNat ≤ addressSpace

theorem State.BlockInv.ringFits {s : State} (h : s.BlockInv) {k : Nat} {r : Ring} (hr : s.rings[k]? = some r)
    (hs : r.state = .ready) : r.Fits :=
  ⟨(h.ring_fits hr hs).1, (h.ring_fits hr hs).2⟩

theorem Ring.Fits.slot_le {r : Ring} (h : r.Fits) {k : Nat} (hk : k < r.cap.toNat) : r.slot k + 16 ≤ addressSpace :=
  (Ring.slot_add_le hk).trans h.buffer

theorem Ring.Fits.slots_le {r : Ring} (h : r.Fits) :
    r.slot r.widx.toNat + 16 ≤ addressSpace ∧ r.slot (r.cap.toNat - 1) + 16 ≤ addressSpace := by
  have hcursor := h.cursor
  exact ⟨h.slot_le (by omega), h.slot_le (by omega)⟩

theorem Ring.Fits.slot_lt {r : Ring} (h : r.Fits) : r.slot r.widx.toNat < addressSpace := by
  have hslot := h.slots_le.1
  omega

theorem exec_ringPush_run {s : State} {i : Nat} {r : Ring} (hl : s.live) (hr : s.rings[i]? = some r)
    (hs : r.state = .ready) : exec (.ringPush i) s = s.ringPush i r :=
  s.onRing_run i .ready _ r hl hr hs

/-! ### `RING.PUSH` undisturbed (R139) -/

/-- Memory after the writes of a push: the stamped entry, and at the wrap the Link entry. -/
def Memory.afterPush (m : Memory) (r : Ring) (e : Entry) : Memory :=
  let m' := m.writeEntry (r.slot r.widx.toNat) (r.stamped e)
  if r.wrapsNext then m'.writeEntry (r.slot (r.cap.toNat - 1)) (linkEntry r.base r.pcs) else m'

theorem Memory.afterPush_of_wrap {r : Ring} (m : Memory) (e : Entry) (h : r.widx.toNat + 2 = r.cap.toNat) :
    m.afterPush r e = (m.writeEntry (r.slot r.widx.toNat) (r.stamped e)).writeEntry (r.slot (r.cap.toNat - 1))
      (linkEntry r.base r.pcs) :=
  if_pos (r.wrapsNext_iff.mpr (by omega))

theorem Memory.afterPush_of_no_wrap {r : Ring} (m : Memory) (e : Entry) (h : r.widx.toNat + 2 < r.cap.toNat) :
    m.afterPush r e = m.writeEntry (r.slot r.widx.toNat) (r.stamped e) :=
  if_neg fun hw => by rw [r.wrapsNext_iff] at hw; omega

theorem State.linkEvents_undisturbed {s : State} {r : Ring} (hu : s.undisturbed) (hfits : r.Fits) :
    s.linkEvents r = .ok { s with
      mem := if r.wrapsNext then s.mem.writeEntry (r.slot (r.cap.toNat - 1)) (linkEntry r.base r.pcs) else s.mem } := by
  unfold State.linkEvents
  split
  · exact s.entryEvents_undisturbed _ _ hu hfits.slots_le.2
  · rfl

/-- The state after an undisturbed push. -/
def State.pushedState (s : State) (i : Nat) (r : Ring) : State :=
  State.withResult { s with mem := s.mem.afterPush r s.port.entry, rings := s.rings.set i r.advance } 0
    (BitVec.ofNat 64 (r.slot r.widx.toNat))

theorem exec_ringPush_undisturbed {s : State} {i : Nat} {r : Ring} (hl : s.live) (hu : s.undisturbed)
    (hr : s.rings[i]? = some r) (hs : r.state = .ready) (hfits : r.Fits) :
    exec (.ringPush i) s = .next (s.pushedState i r) := by
  have hentry := s.entryEvents_undisturbed _ (r.stamped s.port.entry) hu hfits.slots_le.1
  have hlink := State.linkEvents_undisturbed
    (s := { s with mem := s.mem.writeEntry (r.slot r.widx.toNat) (r.stamped s.port.entry) }) hu hfits
  rw [exec_ringPush_run hl hr hs]
  simp only [State.ringPush, hentry, hlink, bind, Except.bind]
  exact State.next_done_live _ hl

/-- Two slots of a Ring do not overlap. -/
theorem Ring.slot_disjoint {r : Ring} {x y : Nat} (h : x < y) : r.slot x + 16 ≤ r.slot y := Ring.slot_add_le h

/-- Settles O29: inside a lap the only write is that of the stamped entry. -/
theorem ringPushWithinALap : Obligations.RingPushWithinALap := by
  intro s i r hinv hl hu hr hs hlap a
  have hexec := exec_ringPush_undisturbed hl hu hr hs (hinv.ringFits hr hs)
  have hmem := s.mem.afterPush_of_no_wrap s.port.entry hlap
  refine ⟨_, hexec, by rw [State.pushedState, Ring.advance_of_no_wrap hlap]; rfl, ?_, fun x hx => ?_⟩
  · simp only [State.pushedState, State.withResult_mem, hmem]
    exact Memory.entryAt_writeEntry _ _ _
  · simp only [State.pushedState, State.withResult_mem, hmem]
    exact Memory.peek_writeEntry_outside _ _ _ _ hx

/-- A 16-byte entry is not changed by a write of another one beside it. -/
theorem Memory.entryAt_writeEntry_outside (m : Memory) (a b : Nat) (e : Entry) (h : b + 16 ≤ a ∨ a + 16 ≤ b) :
    (m.writeEntry a e).entryAt b = m.entryAt b := by
  have hword (k : Nat) (hk : k ≤ 12) : (m.writeEntry a e).read32 (b + k) = m.read32 (b + k) := by
    rw [Memory.read32, Memory.read_congr _ m _ _ fun x hlo hhi => m.peek_writeEntry_outside a x e (by omega),
      Memory.read32]
  have h0 := hword 0 (by omega)
  rw [Nat.add_zero] at h0
  simp only [Memory.entryAt, h0, hword 4 (by omega), hword 8 (by omega), hword 12 (by omega)]

/-- Settles O30: at the wrap the Link entry in the last slot is written besides. -/
theorem ringPushWraps : Obligations.RingPushWraps := by
  intro s i r hinv hl hu hr hs hwrap a l
  have hexec := exec_ringPush_undisturbed hl hu hr hs (hinv.ringFits hr hs)
  have hmem := s.mem.afterPush_of_wrap s.port.entry hwrap
  have happart : a + 16 ≤ l := Ring.slot_disjoint (r := r) (by omega)
  refine ⟨_, hexec, by rw [State.pushedState, Ring.advance_of_wrap hwrap]; rfl, ?_, ?_, fun x hxa hxl => ?_⟩
  · simp only [State.pushedState, State.withResult_mem, hmem]
    refine (Memory.entryAt_writeEntry_outside _ l a _ (.inl happart)).trans ?_
    exact Memory.entryAt_writeEntry _ _ _
  · simp only [State.pushedState, State.withResult_mem, hmem]
    refine (Memory.entryAt_writeEntry _ l _).trans ?_
    rw [← linkEntry_w3 r.base r.pcs]
    rfl
  · simp only [State.pushedState, State.withResult_mem, hmem]
    exact (Memory.peek_writeEntry_outside _ l x _ hxl).trans (Memory.peek_writeEntry_outside _ a x _ hxa)

/-! ### `RING.PUSH` whatever the controller does (R218) -/

theorem exec_ringPush_noReset {s : State} {i : Nat} {r : Ring} (hl : s.live) (hn : noReset s.agenda)
    (hr : s.rings[i]? = some r) (hs : r.state = .ready) (hfits : r.Fits) :
    ∃ u, EventsDone s u ∧ exec (.ringPush i) s =
      .next (State.withResult (u.setRing i r.advance) 0 (BitVec.ofNat 64 (r.slot r.widx.toNat))) := by
  obtain ⟨t, ht, hst⟩ := (s.entryEvents_part _ (r.stamped s.port.entry)).exists_ok hfits.slots_le.1 hn
  obtain ⟨u, hu, htu⟩ := (t.linkEvents_part r).exists_ok (fun _ => hfits.slots_le.2) (hst.noReset hn)
  have hsu : EventsDone s u := hst.trans htu
  refine ⟨u, hsu, ?_⟩
  rw [exec_ringPush_run hl hr hs]
  simp only [State.ringPush, ht, hu, bind, Except.bind]
  exact congrArg _ (State.done_live (u.setRing i r.advance) _ (State.live_of_status hl hsu.same.status))

/-- Settles O32: the events leave the block as it was, and the end of the command does the rest. -/
theorem pushSucceedsWhateverTheControllerDoes : Obligations.PushSucceedsWhateverTheControllerDoes := by
  intro s i r hinv hl hn hr hs
  have hfits := hinv.ringFits hr hs
  obtain ⟨u, ⟨⟨hcfg, hport, hcursor, hrings, herings, -, -⟩, -⟩, hexec⟩ := exec_ringPush_noReset hl hn hr hs hfits
  have hadvance : r.advance =
      if r.widx.toNat + 2 = r.cap.toNat then { r with widx := 0, pcs := !r.pcs }
      else { r with widx := r.widx + 1 } := by
    have hcap := hfits.cursor
    split
    · next hwrap => exact Ring.advance_of_wrap hwrap
    · next hlap => exact Ring.advance_of_no_wrap (by omega)
  refine ⟨_, hexec, ?_, hcursor, herings, hcfg, ?_⟩
  · rw [State.withResult_port, State.setRing_port, hport]
    rfl
  · rw [State.withResult_rings, State.setRing_rings, hrings, ← hadvance]

/-! ### Any number of pushes (R140) -/

/-- A fresh Ring after `P` pushes. -/
def Ring.afterPushes (b C P : Nat) : Ring :=
  { Ring.fresh b C with widx := BitVec.ofNat 64 (P % (C - 1)), pcs := decide (P / (C - 1) % 2 = 0) }

/-- The next of a row of laps of `n`: one further in the same lap, or the start of the next one. -/
theorem succ_div_mod {P n : Nat} (hn : 0 < n) :
    P % n + 1 = n ∧ (P + 1) % n = 0 ∧ (P + 1) / n = P / n + 1 ∨
      P % n + 1 < n ∧ (P + 1) % n = P % n + 1 ∧ (P + 1) / n = P / n := by
  have hdecomp := Nat.div_add_mod P n
  have hlt := Nat.mod_lt P hn
  rcases Nat.eq_or_lt_of_le (Nat.succ_le_of_lt hlt) with heq | hless
  · have hsum : 0 + n * (P / n + 1) = P + 1 := by
      rw [Nat.mul_add]
      omega
    obtain ⟨hdiv, hmod⟩ := (Nat.div_mod_unique hn).mpr ⟨hsum, hn⟩
    exact .inl ⟨heq, hmod, hdiv⟩
  · obtain ⟨hdiv, hmod⟩ := (Nat.div_mod_unique hn).mpr ⟨(by omega : P % n + 1 + n * (P / n) = P + 1), hless⟩
    exact .inr ⟨hless, hmod, hdiv⟩

/-- What the fields of a Ring after `P` pushes are as numbers, where its buffer has addresses. -/
theorem Ring.afterPushes_fits {b C : Nat} (P : Nat) (hC : 2 ≤ C) (hfits : b + 16 * C ≤ addressSpace) :
    (Ring.afterPushes b C P).widx.toNat = P % (C - 1) ∧ (Ring.afterPushes b C P).cap.toNat = C ∧
      (Ring.afterPushes b C P).Fits ∧
      (Ring.afterPushes b C P).slot (Ring.afterPushes b C P).widx.toNat = b + 16 * (P % (C - 1)) := by
  have hlt := Nat.mod_lt P (show 0 < C - 1 by omega)
  simp only [addressSpace] at hfits
  have hwidx : (Ring.afterPushes b C P).widx.toNat = P % (C - 1) := toNat_ofNat64_of_lt (by omega)
  have hcap : (Ring.afterPushes b C P).cap.toNat = C := toNat_ofNat64_of_lt (by omega)
  have hbase : (Ring.afterPushes b C P).base.toNat = b := toNat_ofNat64_of_lt (by omega)
  refine ⟨hwidx, hcap, ⟨by omega, ?_⟩, ?_⟩
  · rw [Ring.slot, hbase, hcap]
    exact hfits
  · rw [Ring.slot, hbase, hwidx]

theorem Ring.advance_afterPushes {b C : Nat} (P : Nat) (hC : 2 ≤ C) (hfits : b + 16 * C ≤ addressSpace) :
    (Ring.afterPushes b C P).advance = Ring.afterPushes b C (P + 1) := by
  obtain ⟨hwidx, hcap, -, -⟩ := Ring.afterPushes_fits P hC hfits
  rcases succ_div_mod (P := P) (show 0 < C - 1 by omega) with ⟨hwrap, hmod, hdiv⟩ | ⟨hlap, hmod, hdiv⟩
  · have hparity : decide ((P / (C - 1) + 1) % 2 = 0) = !decide (P / (C - 1) % 2 = 0) := by
      rw [← decide_not, decide_eq_decide]
      omega
    rw [Ring.advance_of_wrap (by omega)]
    simp only [Ring.afterPushes, hmod, hdiv, hparity]
    rfl
  · rw [Ring.advance_of_no_wrap (by omega)]
    simp only [Ring.afterPushes, hmod, hdiv, BitVec.ofNat_add]
    rfl

/-- Settles O33: each push advances the closed form by one and answers the slot it wrote. -/
theorem pushesInClosedForm : Obligations.PushesInClosedForm := by
  intro s t i P b C hl hC hr hfits hpushes
  have hfresh : Ring.fresh b C = Ring.afterPushes b C 0 := by
    simp [Ring.afterPushes, Ring.fresh]
  have hinv : t.live ∧ t.rings[i]? = some (Ring.afterPushes b C P) ∧
      (0 < P → t.port.res = BitVec.ofNat 64 (b + 16 * ((P - 1) % (C - 1)))) := by
    induction hpushes with
    | none s => exact ⟨hl, hfresh ▸ hr, fun h => absurd h (Nat.lt_irrefl 0)⟩
    | @push n s t u e l _ hn hexec ih =>
      obtain ⟨htl, htr, -⟩ := ih hl hr
      obtain ⟨-, -, hring, hslot⟩ := Ring.afterPushes_fits n hC hfits
      obtain ⟨v, ⟨⟨-, -, -, hrings, -, -, -⟩, -⟩, hnext⟩ :=
        exec_ringPush_noReset (s := { t with port := t.port.withEntry e, agenda := l }) htl hn htr rfl hring
      rw [hexec] at hnext
      obtain rfl := Host.Outcome.next.inj hnext
      have hindex : i < t.rings.length := (List.getElem?_eq_some_iff.mp htr).1
      have hlive : State.live (State.withResult (v.setRing i (Ring.afterPushes b C n).advance) 0
          (BitVec.ofNat 64 ((Ring.afterPushes b C n).slot (Ring.afterPushes b C n).widx.toNat))) := by
        rw [State.live, State.withResult_halted]
        decide
      refine ⟨hlive, ?_, fun _ => ?_⟩
      · rw [State.withResult_rings, State.setRing_rings, hrings, Ring.advance_afterPushes n hC hfits]
        exact List.getElem?_set_self hindex
      · rw [State.withResult_port, hslot, Nat.add_sub_cancel]
  exact ⟨hinv.2.1, hinv.2.2⟩

/-! ### `RING.PUSH` abandoned (R240) -/

/-- Settles O17: one block event, then the reset at the next. -/
theorem resetBetweenEventsAbandonsThePush : Obligations.ResetBetweenEventsAbandonsThePush := by
  intro s rest i r hinv hl ha hr hs
  have hslot := (hinv.ringFits hr hs).slots_le.1
  have hword : s.memWrite32 (r.slot r.widx.toNat) (r.stamped s.port.entry).w0 =
      .ok { s with agenda := .reset :: rest, mem := s.mem.write32 (r.slot r.widx.toNat) s.port.ent0 } :=
    State.memWrite32_of_nextEvent _ (State.nextEvent_block ha) (by omega)
  have hreset := State.nextEvent_reset (s := { s with
    agenda := .reset :: rest, mem := s.mem.write32 (r.slot r.widx.toNat) s.port.ent0 }) rfl
  have hexec : exec (.ringPush i) s = .next { State.assertReset { s with
      agenda := .reset :: rest, mem := s.mem.write32 (r.slot r.widx.toNat) s.port.ent0 } with agenda := rest } := by
    rw [exec_ringPush_run hl hr hs]
    simp only [State.ringPush, State.entryEvents, bind, Except.bind, hword]
    simp only [State.memWrite32, hreset, bind, Except.bind]
    rfl
  refine ⟨_, hexec, rfl, rfl, fun r' hr' => ?_, fun e he => ?_, Memory.read32_write32 _ _ _, fun x hx => ?_⟩
  · obtain ⟨_, -, rfl⟩ := List.mem_map.mp hr'
    rfl
  · obtain ⟨_, -, rfl⟩ := List.mem_map.mp he
    rfl
  · exact Memory.peek_write_outside _ _ _ _ _ hx

/-! ### The consumer looks into the middle of a push (R72) -/

/-- Word writes one after the other. -/
def State.writeWords : List (Nat × Word32) → State → Run State
  | [], s => .ok s
  | w :: ws, s => s.memWrite32 w.1 w.2 >>= State.writeWords ws

/-- The words of an entry with their addresses, word 3 last (R139). -/
def Entry.words (e : Entry) (a : Nat) : List (Nat × Word32) :=
  [(a, e.w0), (a + 4, e.w1), (a + 8, e.w2), (a + 12, e.w3)]

/-- The word writes of a push in their order. -/
def Ring.pushWords (r : Ring) (e : Entry) : List (Nat × Word32) :=
  (r.stamped e).words (r.slot r.widx.toNat) ++
    if r.wrapsNext then (linkEntry r.base r.pcs).words (r.slot (r.cap.toNat - 1)) else []

theorem State.writeWords_append (ws vs : List (Nat × Word32)) (s : State) :
    s.writeWords (ws ++ vs) = s.writeWords ws >>= State.writeWords vs := by
  induction ws generalizing s with
  | nil => rfl
  | cons w ws ih =>
    simp only [List.cons_append, State.writeWords, bind_assoc]
    exact congrArg _ (funext fun t => ih t)

theorem State.entryEvents_eq_writeWords (s : State) (a : Nat) (e : Entry) :
    s.entryEvents a e = s.writeWords (e.words a) := by
  simp only [State.entryEvents, Entry.words, State.writeWords]
  refine bind_congr fun _ => bind_congr fun _ => bind_congr fun t => ?_
  cases t.memWrite32 (a + 12) e.w3 <;> rfl

theorem State.pushEvents_eq_writeWords (s : State) (r : Ring) (e : Entry) :
    (s.entryEvents (r.slot r.widx.toNat) (r.stamped e) >>= fun t => t.linkEvents r) = s.writeWords (r.pushWords e) := by
  rw [Ring.pushWords, State.writeWords_append, s.entryEvents_eq_writeWords]
  refine bind_congr fun t => ?_
  unfold State.linkEvents
  split
  · exact t.entryEvents_eq_writeWords _ _
  · rfl

/-- Undisturbed word writes change memory alone. -/
theorem State.writeWords_undisturbed {s : State} {ws : List (Nat × Word32)} (hu : s.undisturbed)
    (hfits : ∀ w ∈ ws, w.1 + 4 ≤ addressSpace) : ∃ m, s.writeWords ws = .ok { s with mem := m } := by
  induction ws generalizing s with
  | nil => exact ⟨s.mem, rfl⟩
  | cons w ws ih =>
    have hw := s.memWrite32_undisturbed w.1 w.2 hu (hfits w List.mem_cons_self)
    obtain ⟨m, hm⟩ := ih (s := { s with mem := s.mem.write32 w.1 w.2 }) hu
      fun v hv => hfits v (List.mem_cons_of_mem _ hv)
    refine ⟨m, ?_⟩
    simp only [State.writeWords, hw, bind, Except.bind, hm]

/-- A look at a stale entry before word 3 of it is written, `k` writes into a row of word writes, is no step at all. -/
theorem State.writeWords_with_look {ws : List (Nat × Word32)} {s : State} {k i : Nat} {c : Consumer} {rest : List Move}
    (ha : s.agenda = List.replicate k Move.block ++ Move.controller (.consume i) :: rest) (hq : quiet rest = true)
    (hk : k < ws.length) (hfits : ∀ w ∈ ws, w.1 + 4 ≤ addressSpace)
    (hc : s.consumers[i]? = some (some c)) (hgot : c.got = [])
    (hbefore : ∀ w ∈ ws.take k, w.1 + 4 ≤ c.dq.toNat + 12 ∨ c.dq.toNat + 16 ≤ w.1)
    (hstale : cycleOf (s.mem.read32 (c.dq.toNat + 12)) ≠ c.ccs) :
    ∃ m, s.writeWords ws = .ok { s with mem := m, agenda := rest } := by
  induction k generalizing s ws with
  | zero =>
    obtain ⟨w, ws, rfl⟩ : ∃ w l, ws = w :: l := List.exists_cons_of_length_pos hk
    have hlook : s.controllerStep (.consume i) = s := by
      rw [State.controllerStep, State.consume_of_some hc, Consumer.look_stale hgot hstale, State.withConsumer_self hc]
    have hnext := State.nextEvent_controller ha hq
    rw [hlook] at hnext
    have hw := State.memWrite32_of_nextEvent w.2 hnext (hfits w List.mem_cons_self)
    obtain ⟨m, hm⟩ := State.writeWords_undisturbed (s := { s with mem := s.mem.write32 w.1 w.2, agenda := rest }) hq
      fun v hv => hfits v (List.mem_cons_of_mem _ hv)
    refine ⟨m, ?_⟩
    simp only [State.writeWords, hw, bind, Except.bind, hm]
  | succ k ih =>
    obtain ⟨w, ws, rfl⟩ : ∃ w l, ws = w :: l := List.exists_cons_of_length_pos (by omega)
    rw [List.take_succ_cons, List.forall_mem_cons] at hbefore
    obtain ⟨hw0, hbefore⟩ := hbefore
    have hnext := State.nextEvent_block (s := s) ha
    have hw := State.memWrite32_of_nextEvent w.2 hnext (hfits w List.mem_cons_self)
    have hkeep : (s.mem.write32 w.1 w.2).read32 (c.dq.toNat + 12) = s.mem.read32 (c.dq.toNat + 12) :=
      Memory.read32_write32_outside _ _ _ _ (by omega)
    obtain ⟨m, hm⟩ := ih (s := { s with
        mem := s.mem.write32 w.1 w.2
        agenda := List.replicate k Move.block ++ Move.controller (.consume i) :: rest }) rfl
      (Nat.lt_of_succ_lt_succ hk) (fun v hv => hfits v (List.mem_cons_of_mem _ hv)) hc hbefore (hkeep ▸ hstale)
    refine ⟨m, ?_⟩
    simp only [State.writeWords, hw, bind, Except.bind]
    exact hm

/-- Every word of an entry has an address where its slot has. -/
theorem Entry.words_fit {e : Entry} {a : Nat} (h : a + 16 ≤ addressSpace) :
    ∀ w ∈ e.words a, w.1 + 4 ≤ addressSpace := by
  simp only [Entry.words, List.forall_mem_cons, List.not_mem_nil, false_implies, implies_true, and_true]
  omega

theorem Ring.pushWords_fit {r : Ring} (h : r.Fits) (e : Entry) : ∀ w ∈ r.pushWords e, w.1 + 4 ≤ addressSpace := by
  intro w hw
  rcases List.mem_append.mp hw with hw | hw
  · exact Entry.words_fit h.slots_le.1 w hw
  · split at hw
    · exact Entry.words_fit h.slots_le.2 w hw
    · cases hw

/-- Settles O53: the first three writes of a push leave word 3 of its slot, the first seven of one that wraps leave
word 3 of the last slot, so the look there is one at a stale entry. -/
theorem consumerSeesNoHalfWrittenEntry : Obligations.ConsumerSeesNoHalfWrittenEntry := by
  intro s rest i k r c hinv hl hr hs hq ha hc hgot hwhere hstale
  have hfits := hinv.ringFits hr hs
  have hcap := hfits.cursor
  have hbefore : k < (r.pushWords s.port.entry).length ∧
      ∀ w ∈ (r.pushWords s.port.entry).take k, w.1 + 4 ≤ c.dq.toNat + 12 ∨ c.dq.toNat + 16 ≤ w.1 := by
    rcases hwhere with ⟨hdq, hk⟩ | ⟨hwrap, hdq, hk⟩
    · refine ⟨by simp only [Ring.pushWords, Entry.words, List.length_append, List.length_cons]; omega, fun w hw => ?_⟩
      have hw3 := List.take_subset_take_left _ hk hw
      simp only [Ring.pushWords, Entry.words, List.cons_append, List.take_succ_cons, List.take_zero, List.mem_cons,
        List.not_mem_nil, or_false] at hw3
      rcases hw3 with rfl | rfl | rfl <;> (left; show _ + 4 ≤ _; omega)
    · have happart : r.slot r.widx.toNat + 16 ≤ r.slot (r.cap.toNat - 1) := Ring.slot_disjoint (by omega)
      have hw : r.wrapsNext = true := r.wrapsNext_iff.mpr (by omega)
      refine ⟨by simp only [Ring.pushWords, Entry.words, hw, if_true, List.length_append, List.length_cons]; omega,
        fun w hw' => ?_⟩
      have hw7 := List.take_subset_take_left _ hk hw'
      simp only [Ring.pushWords, Entry.words, hw, if_true, List.cons_append, List.nil_append, List.take_succ_cons,
        List.take_zero, List.mem_cons, List.not_mem_nil, or_false] at hw7
      rcases hw7 with rfl | rfl | rfl | rfl | rfl | rfl | rfl <;> (left; show _ + 4 ≤ _; omega)
  obtain ⟨m, hm⟩ := State.writeWords_with_look ha hq hbefore.1 (Ring.pushWords_fit hfits _) hc hgot hbefore.2 hstale
  refine ⟨(State.setRing { s with mem := m, agenda := rest } i r.advance).done (BitVec.ofNat 64 (r.slot r.widx.toNat)),
    ?_, rfl, rfl⟩
  rw [exec_ringPush_run hl hr hs, State.ringPush, ← bind_assoc, s.pushEvents_eq_writeWords, hm]
  rfl

end Sys2Proof.Machine
end

section
/-! PROOFS. The EventRing commands of 42_event_ring.md: `ER.INIT`, `ER.HASFRONT`, `ER.FRONT` and `ER.POP` undisturbed,
and the register values they leave (R47, R103, R151 to R159, R255). -/

namespace Sys2Proof.Machine

/-! ### `ER.HASFRONT` and `ER.FRONT` (R155, R156) -/

theorem bit64_beq (a b : Bool) : bit64 (a == b) = if a = b then 1 else 0 := by
  cases a <;> cases b <;> rfl

/-- Settles O38: the bit answered is the comparison of the two cycle bits. -/
theorem hasFrontComparesCycleBits : Obligations.HasFrontComparesCycleBits := by
  intro s j e hl hu he hs hr dq
  rw [exec_erHasFront_undisturbed s j e hl hu he hs hr, bit64_beq]
  rfl

/-- `ER.FRONT` undisturbed (R156). -/
theorem exec_erFront_undisturbed {s : State} {j : Nat} {e : EventRing} (hl : s.live) (hu : s.undisturbed)
    (he : s.erings[j]? = some e) (hs : e.state = .ready) (hr : regsFit e.regs) :
    exec (.erFront j) s = .next (State.withResult
      { s with port := s.port.withFront (s.mem.entryAt (erdpPtr (s.erdp e.regsAddr)).toNat) } 0
      (erdpPtr (s.erdp e.regsAddr))) := by
  have hslot := erdpPtr_add_entryBytes_le (s.erdp e.regsAddr)
  have hread (k : Nat) (hk : k + 4 ≤ entryBytes) := s.memRead32_undisturbed ((erdpPtr (s.erdp e.regsAddr)).toNat + k) hu
    (by omega)
  have hread0 := hread 0 (by decide)
  rw [Nat.add_zero] at hread0
  have hres : BitVec.ofNat 64 (erdpPtr (s.erdp e.regsAddr)).toNat = erdpPtr (s.erdp e.regsAddr) := by
    rw [BitVec.ofNat_toNat, BitVec.setWidth_eq]
  have hrun : exec (.erFront j) s = s.front e := s.onEventRing_run j .ready _ e hl he hs
  rw [hrun]
  simp only [State.front, State.frontEvents, s.erdpReadEvent_undisturbed e.regsAddr hu hr, bind, Except.bind,
    hread 12 (by decide), hread0, hread 4 (by decide), hread 8 (by decide), pure, Except.pure, Run.outcome, hres]
  exact State.next_done_live _ hl

/-- Settles O39: the four words at the dequeue pointer. -/
theorem frontReadsTheEntry : Obligations.FrontReadsTheEntry :=
  fun _ _ _ hl hu he hs hr => exec_erFront_undisturbed hl hu he hs hr

/-! ### `ER.POP` (R158, R159) -/

/-- What a pop makes of the state `u` in which its write happens, having read `old`. -/
def State.poppedState (u : State) (j : Nat) (e : EventRing) (old : Word64) : State :=
  (State.setEventRing (u.erdpWrite e.regsAddr (erdpMerge old (e.nextSlot (erdpPtr old).toNat))) j
    (e.popped (erdpPtr old).toNat)).doneNat (e.nextSlot (erdpPtr old).toNat)

/-- A pop whose read comes in state `t` and whose write comes in state `u`. -/
theorem exec_erPop_of_events {s t u : State} {j : Nat} {e : EventRing} (hl : s.live) (he : s.erings[j]? = some e)
    (hs : e.state = .ready) (hr : regsFit e.regs) (hread : s.nextEvent = .ok t) (hwrite : t.nextEvent = .ok u) :
    exec (.erPop j) s = .next (u.poppedState j e (t.erdp e.regsAddr)) := by
  have haddr : inAddressSpace (e.regsAddr + erdpOffset) 8 = true := inAddressSpace_register (by decide) hr
  have hrun : exec (.erPop j) s = s.pop j e := s.onEventRing_run j .ready _ e hl he hs
  rw [hrun]
  simp only [State.pop, State.erdpReadEvent, State.erdpWriteEvent, hread, hwrite, bind, Except.bind, haddr, if_true]
  rfl

theorem exec_erPop_undisturbed {s : State} {j : Nat} {e : EventRing} (hl : s.live) (hu : s.undisturbed)
    (he : s.erings[j]? = some e) (hs : e.state = .ready) (hr : regsFit e.regs) :
    exec (.erPop j) s = .next (s.poppedState j e (s.erdp e.regsAddr)) :=
  exec_erPop_of_events hl he hs hr (s.nextEvent_undisturbed hu) (s.nextEvent_undisturbed hu)

theorem State.doneNat_mmio (s : State) (v : Nat) : (s.doneNat v).mmio = s.mmio := by
  rcases s.doneNat_cases v with ⟨-, h⟩ | ⟨-, h⟩ <;> rw [h] <;> rfl

theorem State.doneNat_agenda (s : State) (v : Nat) : (s.doneNat v).agenda = s.agenda := by
  rcases s.doneNat_cases v with ⟨-, h⟩ | ⟨-, h⟩ <;> rw [h] <;> rfl

theorem State.poppedState_mmio (u : State) (j : Nat) (e : EventRing) (old : Word64) :
    (u.poppedState j e old).mmio =
      (u.erdpWrite e.regsAddr (erdpMerge old (e.nextSlot (erdpPtr old).toNat))).mmio :=
  State.doneNat_mmio _ _

theorem State.poppedState_live {u : State} (hl : u.live) (j : Nat) (e : EventRing) (old : Word64) :
    (u.poppedState j e old).live := by
  have hstatus : (u.poppedState j e old).port.status = 0 := State.doneNat_status _ hl
  rw [State.live, State.halted, hstatus]
  decide

theorem State.poppedState_erings (u : State) (j : Nat) (e : EventRing) (old : Word64) :
    (u.poppedState j e old).erings = u.erings.set j (e.popped (erdpPtr old).toNat) := by
  obtain ⟨-, -, herings, -⟩ := State.doneNat_frame _ _
  exact herings

/-- `ERDP` after a pop: what the register makes of the write (R47, R201). -/
theorem State.poppedState_erdp (u : State) (j : Nat) (e : EventRing) (old : Word64) :
    (u.poppedState j e old).erdp e.regsAddr = erdpAfter u.cfg.erdpWriteModel (u.erdp e.regsAddr)
      (erdpMerge old (e.nextSlot (erdpPtr old).toNat)) := by
  rw [State.erdp, u.poppedState_mmio]
  exact u.erdp_erdpWrite _ _

/-- The pointer of `ERDP` after a pop (R103). -/
theorem State.poppedState_erdpPtr (u : State) (j : Nat) (e : EventRing) (old : Word64) :
    erdpPtr ((u.poppedState j e old).erdp e.regsAddr) = erdpPtr (BitVec.ofNat 64 (e.nextSlot (erdpPtr old).toNat)) := by
  rw [u.poppedState_erdp, erdpPtr_erdpAfter, erdpPtr_erdpMerge]

/-- A pop writes the eight bytes of `ERDP` alone. -/
theorem State.poppedState_peek (u : State) (j : Nat) (e : EventRing) (old : Word64) {x : Nat}
    (hx : x < e.regsAddr + 0x18 ∨ e.regsAddr + 0x20 ≤ x) :
    (u.poppedState j e old).mmio.peek x = u.mmio.peek x := by
  rw [u.poppedState_mmio]
  exact Memory.peek_write_outside _ _ _ _ _ hx

/-- A pop whose new pointer fits: `RES` is that pointer. -/
theorem State.poppedState_fits {u : State} {j : Nat} {e : EventRing} {old : Word64} (hl : u.live)
    (hlt : e.nextSlot (erdpPtr old).toNat < addressSpace) :
    u.poppedState j e old = State.withResult
      (State.setEventRing (u.erdpWrite e.regsAddr (erdpMerge old (e.nextSlot (erdpPtr old).toNat))) j
        (e.popped (erdpPtr old).toNat)) 0 (BitVec.ofNat 64 (e.nextSlot (erdpPtr old).toNat)) :=
  State.doneNat_fits hl hlt

/-- Settles O40: one read and one write of `ERDP`, nobody between them. -/
theorem popAdvancesTheDequeuePointer : Obligations.PopAdvancesTheDequeuePointer := by
  intro s j e hl hu he hs hr old dq atEnd p hlt
  refine ⟨_, exec_erPop_undisturbed hl hu he hs hr, ?_, s.poppedState_erdp j e _, s.poppedState_erdpPtr j e _,
    fun x hx => s.poppedState_peek j e _ hx⟩
  rw [s.poppedState_mmio]
  exact State.poppedState_fits hl hlt

/-- Settles O21: the allocator's start, or the pointer of `2^64`, does not fit `RES`; all else is as for any other. -/
theorem resultsThatDoNotFitAreSomeValue : Obligations.ResultsThatDoNotFitAreSomeValue := by
  refine ⟨fun s hl => ?_, ?_⟩
  · have hcompletes (size alignment boundary : Nat)
        (hbig : addressSpace ≤ regionStart s.cursor size alignment boundary)
        (halign : alignment = 0 ∨ regionStart s.cursor size alignment boundary % alignment = 0)
        (hroom : regionStart s.cursor size alignment boundary + size ≤ s.cfg.poolEnd) :
        ∃ v, s.allocCommand size alignment boundary = .next (State.withResult
          { s with cursor := regionStart s.cursor size alignment boundary + size, draws := s.draws + 1 } 0 v) := by
      have hok : ¬AllocationFails s.cfg.poolEnd s.cursor size alignment boundary := by
        rintro (⟨hpos, hne⟩ | hlt)
        · exact halign.elim (by omega) hne
        · omega
      obtain ⟨v, hv⟩ := State.doneNat_beyond (s := { s with
        cursor := regionStart s.cursor size alignment boundary + size }) hl hbig
      exact ⟨v, by rw [State.allocCommand_of_not_fails hok, hv]⟩
    dsimp only
    rw [exec_poolAlloc_live hl, exec_poolAllocArr_live hl]
    exact ⟨hcompletes _ _ _, hcompletes _ _ _⟩
  · intro s j e hl hu he hs hr old hptr hend
    replace hptr : erdpPtr old = 0xFFFFFFFFFFFFFFF0#64 := hptr
    have hlast : (erdpPtr old).toNat + entryBytes = addressSpace := by
      rw [hptr]
      rfl
    have hnowrap : ¬(erdpPtr old).toNat + entryBytes = e.segmentEnd := fun h => hend (h ▸ hlast)
    have hnext : e.nextSlot (erdpPtr old).toNat = addressSpace := (if_neg hnowrap).trans hlast
    have hpopped : e.popped (erdpPtr old).toNat = e := if_neg hnowrap
    have hsame : s.erings.set j e = s.erings := by
      obtain ⟨_, hget⟩ := List.getElem?_eq_some_iff.mp he
      rw [← hget, List.set_getElem_self]
    have hmerge : erdpMerge old addressSpace = old &&& 0xF#64 := by
      have hzero : BitVec.ofNat 64 addressSpace &&& erdpPtrMask = 0#64 := by decide
      rw [erdpMerge, hzero, BitVec.zero_or]
      rfl
    obtain ⟨v, hv⟩ := State.doneNat_beyond (s := State.setEventRing
      (s.erdpWrite e.regsAddr (erdpMerge old (e.nextSlot (erdpPtr old).toNat))) j (e.popped (erdpPtr old).toNat))
      (v := e.nextSlot (erdpPtr old).toNat) hl hnext.ge
    refine ⟨_, v, exec_erPop_undisturbed hl hu he hs hr, ?_, ?_, ?_, fun x hx => s.poppedState_peek j e _ hx⟩
    · rw [s.poppedState_mmio, State.poppedState, hv, hpopped]
      simp only [State.withResult, State.setEventRing, State.erdpWrite, hsame]
      rfl
    · rw [s.poppedState_erdp, hnext, hmerge]
    · rw [s.poppedState_erdpPtr, hnext]
      decide

/-- Bit 3 of a pointer is 0, so latching status bits beside it sets bit 3 to theirs. -/
theorem getLsbD_three_erdpPtr_or (old : Word64) (v : BitVec 4) :
    (erdpPtr old ||| v.setWidth 64).getLsbD 3 = v.getLsbD 3 := by
  have hmask : erdpPtrMask.getLsbD 3 = false := by decide
  rw [BitVec.getLsbD_or, erdpPtr, BitVec.getLsbD_and, hmask, Bool.and_false, Bool.false_or]
  simp

theorem erdpMerge_and_seven (old : Word64) (p : Nat) : erdpMerge old p &&& 0x7#64 = old &&& 0x7#64 := by
  have hseven : (0x7#64) = erdpStatusMask &&& 0x7#64 := by decide
  rw [hseven, ← BitVec.and_assoc, erdpMerge_and_statusMask, BitVec.and_assoc]

theorem getLsbD_three_erdpMerge (old : Word64) (p : Nat) : (erdpMerge old p).getLsbD 3 = old.getLsbD 3 := by
  simp [erdpMerge, erdpPtrMask, erdpStatusMask]

/-- The state a controller's step between two events leaves, where the status bits it sets are those of a latch. -/
theorem State.nextEvent_latch {s : State} {rest : List Move} {regs : Nat} {v : BitVec 4} (hq : quiet rest = true)
    (ha : s.agenda = .controller (.latch regs v) :: rest) (hi : s.isInterrupter regs = true)
    (hr : regs + interrupterBytes ≤ addressSpace) :
    ∃ u, s.nextEvent = .ok u ∧ u.agenda = rest ∧ u.cfg = s.cfg ∧
      u.erdp regs = erdpPtr (s.erdp regs) ||| v.setWidth 64 :=
  ⟨_, State.nextEvent_controller ha hq, rfl, (s.controllerStep_same _).1.cfg, s.erdp_latch regs v hi hr⟩

/-- Settles O45: the write carries the status bits read before the latch; what the register keeps of the latch is
`erdp_write_model`'s. -/
theorem latchBetweenReadAndWrite : Obligations.LatchBetweenReadAndWrite := by
  intro s rest j e v hl hq ha he hs hr hi
  obtain ⟨u, hwrite, hagenda, hcfg, hlatched⟩ := State.nextEvent_latch
    (s := { s with agenda := .controller (.latch e.regsAddr v) :: rest }) hq rfl hi hr
  have herdp := u.poppedState_erdp j e (s.erdp e.regsAddr)
  rw [hlatched, hcfg] at herdp
  refine ⟨_, exec_erPop_of_events hl he hs hr (State.nextEvent_block ha) hwrite,
    (State.doneNat_agenda _ _).trans hagenda, fun hmodel => ?_, fun hmodel => ⟨?_, ?_⟩⟩
  · refine (congrArg (· &&& 0xF#64) herdp).trans ?_
    simp only [hmodel]
    exact (erdpAfter_and_statusMask _ _ _).trans (erdpMerge_and_statusMask _ _)
  · refine (congrArg (· &&& 0x7#64) herdp).trans ?_
    simp only [hmodel]
    exact (erdpAfter_rw1c_and_seven _ _).trans (erdpMerge_and_seven _ _)
  · refine (congrArg (BitVec.getLsbD · 3) herdp).trans ?_
    simp only [hmodel, erdpAfter_rw1c_bit3, getLsbD_three_erdpPtr_or, getLsbD_three_erdpMerge]

end Sys2Proof.Machine
end

section
/-! PROOFS. The EventRing commands whatever the controller does between their events (R150, R160, R218). -/

namespace Sys2Proof.Machine

/-! ### The commands always succeed (R218) -/

/-- What a command that ends well, having changed neither the pool nor a Ring, leaves of them. -/
def State.Succeeds (s t : State) : Prop := t.port.status = 0 ∧ t.cursor = s.cursor ∧ t.rings = s.rings

theorem EventsDone.succeeds_done {s u : State} (h : EventsDone s u) (hl : s.live) {p : Port}
    (hp : p.status = u.port.status) (v : Word64) : s.Succeeds (State.done { u with port := p } v) :=
  ⟨State.done_status v (State.live_of_status hl (hp.trans h.same.status)), h.same.cursor, h.same.rings⟩

/-- The two reads of `ER.HASFRONT`, which are the first two of `ER.FRONT`. -/
theorem State.frontEvents_noReset {s : State} {e : EventRing} (hn : noReset s.agenda) (hr : regsFit e.regs) :
    ∃ v w3 u, s.frontEvents e = .ok ((erdpPtr v).toNat, w3, u) ∧ EventsDone s u := by
  obtain ⟨⟨v, t⟩, hv, hst⟩ := (s.erdpReadEvent_part e.regsAddr).exists_ok hr hn
  obtain ⟨⟨w3, u⟩, hw, htu⟩ := (t.memRead32_part _).exists_ok (erdpPtr_add_entryBytes_le v) (hst.noReset hn)
  refine ⟨v, w3, u, ?_, hst.trans htu⟩
  simp only [State.frontEvents, hv, bind, Except.bind, hw]
  rfl

theorem exec_erHasFront_noReset {s : State} {j : Nat} {e : EventRing} (hl : s.live) (hn : noReset s.agenda)
    (he : s.erings[j]? = some e) (hs : e.state = .ready) (hr : regsFit e.regs) :
    ∃ t, exec (.erHasFront j) s = .next t ∧ s.Succeeds t := by
  obtain ⟨v, w3, u, hread, hsu⟩ := State.frontEvents_noReset hn hr
  refine ⟨_, (s.onEventRing_run j .ready _ e hl he hs).trans ?_, hsu.succeeds_done hl (p := u.port) rfl
    (bit64 (cycleOf w3 == e.ccs))⟩
  simp only [State.hasFront, hread, bind, Except.bind]
  rfl

theorem exec_erFront_noReset {s : State} {j : Nat} {e : EventRing} (hl : s.live) (hn : noReset s.agenda)
    (he : s.erings[j]? = some e) (hs : e.state = .ready) (hr : regsFit e.regs) :
    ∃ t, exec (.erFront j) s = .next t ∧ s.Succeeds t := by
  obtain ⟨v, w3, u, hread, hsu⟩ := State.frontEvents_noReset hn hr
  have hfits : (erdpPtr v).toNat + 16 ≤ addressSpace := erdpPtr_add_entryBytes_le v
  obtain ⟨⟨w0, t0⟩, h0, hut0⟩ := (u.memRead32_part (erdpPtr v).toNat).exists_ok (by omega) (hsu.noReset hn)
  have hst0 := hsu.trans hut0
  obtain ⟨⟨w1, t1⟩, h1, ht01⟩ := (t0.memRead32_part ((erdpPtr v).toNat + 4)).exists_ok (by omega) (hst0.noReset hn)
  have hst1 := hst0.trans ht01
  obtain ⟨⟨w2, t2⟩, h2, ht12⟩ := (t1.memRead32_part ((erdpPtr v).toNat + 8)).exists_ok (by omega) (hst1.noReset hn)
  refine ⟨_, (s.onEventRing_run j .ready _ e hl he hs).trans ?_,
    (hst1.trans ht12).succeeds_done hl (t2.port.withFront_status { w0 := w0, w1 := w1, w2 := w2, w3 := w3 })
      (BitVec.ofNat 64 (erdpPtr v).toNat)⟩
  simp only [State.front, hread, h0, h1, h2, bind, Except.bind]
  rfl

theorem exec_erPop_noReset {s : State} {j : Nat} {e : EventRing} (hl : s.live) (hn : noReset s.agenda)
    (he : s.erings[j]? = some e) (hs : e.state = .ready) (hr : regsFit e.regs) :
    ∃ t, exec (.erPop j) s = .next t ∧ s.Succeeds t := by
  obtain ⟨⟨v, t⟩, hv, hst⟩ := (s.erdpReadEvent_part e.regsAddr).exists_ok hr hn
  obtain ⟨u, hw, htu⟩ := (t.erdpWriteEvent_part e.regsAddr (erdpMerge v (e.nextSlot (erdpPtr v).toNat))).exists_ok hr
    (hst.noReset hn)
  have hsu := hst.trans htu
  have hlive : (u.setEventRing j (e.popped (erdpPtr v).toNat)).live := State.live_of_status hl hsu.same.status
  obtain ⟨-, hrings, -⟩ := State.doneNat_frame (u.setEventRing j (e.popped (erdpPtr v).toNat))
    (e.nextSlot (erdpPtr v).toNat)
  refine ⟨_, (s.onEventRing_run j .ready _ e hl he hs).trans ?_, State.doneNat_status _ hlive,
    (State.doneNat_cursor _ _).trans hsu.same.cursor, hrings.trans hsu.same.rings⟩
  simp only [State.pop, hv, hw, bind, Except.bind]
  rfl

/-- Settles O43: every access of the three commands has an address, and their events leave the block as it was. -/
theorem eventRingCommandsAlwaysSucceed : Obligations.EventRingCommandsAlwaysSucceed := by
  intro s j e hl hn he hs hr
  rw [List.forall_mem_cons, List.forall_mem_cons, List.forall_mem_singleton]
  exact ⟨exec_erHasFront_noReset hl hn he hs hr, exec_erFront_noReset hl hn he hs hr,
    exec_erPop_noReset hl hn he hs hr⟩

/-! ### The slots of an event buffer (R80, R158) -/

theorem EventRing.segmentEnd_iff {e : EventRing} {k : Nat} :
    e.slot k + entryBytes = e.segmentEnd ↔ k + 1 = e.cap.toNat := by
  simp only [EventRing.segmentEnd, EventRing.slot, entryBytes]
  omega

theorem EventRing.nextSlot_slot {e : EventRing} {k : Nat} (hk : k < e.cap.toNat) :
    e.nextSlot (e.slot k) = e.slot ((k + 1) % e.cap.toNat) := by
  simp only [EventRing.nextSlot, EventRing.segmentEnd_iff]
  split
  · next hwrap =>
    rw [hwrap, Nat.mod_self]
    rfl
  · next hlap =>
    rw [Nat.mod_eq_of_lt (by omega)]
    rfl

theorem EventRing.popped_slot {e : EventRing} {k : Nat} :
    e.popped (e.slot k) = if k + 1 = e.cap.toNat then { e with ccs := !e.ccs } else e := by
  simp only [EventRing.popped, EventRing.segmentEnd_iff]

/-- The buffer of an EventRing is aligned and has addresses. -/
structure EventRing.Fits (e : EventRing) : Prop where
  aligned : e.base.toNat % 64 = 0
  fits : e.segmentEnd ≤ addressSpace

theorem EventRing.Fits.slot_lt {e : EventRing} (h : e.Fits) {k : Nat} (hk : k < e.cap.toNat) :
    e.slot k + 16 ≤ addressSpace := by
  have hfits := h.fits
  simp only [EventRing.segmentEnd, EventRing.slot, entryBytes] at *
  omega

/-- The pointer field of `ERDP` holds the whole address of a slot. -/
theorem EventRing.Fits.erdpPtr_slot {e : EventRing} (h : e.Fits) {k : Nat} (hk : k < e.cap.toNat) :
    (erdpPtr (BitVec.ofNat 64 (e.slot k))).toNat = e.slot k := by
  have hlt := h.slot_lt hk
  have haligned := h.aligned
  have hnat : (BitVec.ofNat 64 (e.slot k)).toNat = e.slot k :=
    toNat_ofNat64_of_lt (by simp only [addressSpace] at hlt; omega)
  have hslot : e.slot k % 16 = 0 := by
    simp only [EventRing.slot, entryBytes]
    omega
  rw [erdpPtr_of_aligned _ (hnat.symm ▸ hslot), hnat]

theorem State.BlockInv.eventRingFits {s : State} (h : s.BlockInv) {j : Nat} {e : EventRing} (he : s.erings[j]? = some e)
    (hs : e.state = .ready) : e.Fits := by
  obtain ⟨haligned, -, -, -, -, hbuffer, htable⟩ := h.erings e (List.mem_of_getElem? he) hs
  have hcursor := h.cursorHigh
  have hend : s.cfg.poolEnd ≤ addressSpace := of_decide_eq_true h.arena
  refine ⟨haligned, ?_⟩
  simp only [EventRing.segmentEnd, EventRing.slot, entryBytes]
  omega

/-- The pointer after a pop at slot `k` stands at the next one. -/
theorem State.dequeueAt_popped {e : EventRing} (hfits : e.Fits) {k : Nat} (hk : k < e.cap.toNat) {old : Word64}
    (hold : (erdpPtr old).toNat = e.slot k) (u : State) (j : Nat) :
    (u.poppedState j e old).dequeueAt e ((k + 1) % e.cap.toNat) := by
  have hnext : (k + 1) % e.cap.toNat < e.cap.toNat := Nat.mod_lt _ (by omega)
  refine ⟨hnext, ?_⟩
  rw [u.poppedState_erdpPtr, hold, EventRing.nextSlot_slot hk, hfits.erdpPtr_slot hnext]

/-! ### The pointer between events (R201) -/

/-- A latch keeps the pointer bits. -/
theorem erdpPtr_or_status (old : Word64) (v : BitVec 4) : erdpPtr (erdpPtr old ||| v.setWidth 64) = erdpPtr old := by
  refine BitVec.eq_of_getLsbD_eq fun k hk => ?_
  rw [erdpPtr, BitVec.getLsbD_and, erdpPtr, BitVec.getLsbD_and (y := erdpPtrMask), getLsbD_erdpPtrMask]
  by_cases h4 : 4 ≤ k
  · exact congrArg (· && _) (getLsbD_erdpPtr_or_status old v h4 hk)
  · simp [h4]

/-- No step of the controller moves the pointer of an `ERDP` that no other interrupter's registers overlap. -/
theorem State.controllerStep_erdpPtr {s : State} {regs : Nat} (h : s.registersApart regs) (a : ControllerAction) :
    erdpPtr ((s.controllerStep a).erdp regs) = erdpPtr (s.erdp regs) := by
  have heff := s.controllerStep_effect a
  generalize s.controllerStep a = t at heff
  cases heff with
  | none | told | consumed | wroteWord | produced => rfl
  | latched x v hi =>
    rcases h x hi with rfl | hapart
    · rw [State.erdp, Memory.read64_write64, erdpPtr_or_status]
    · have hbeside : regs + erdpOffset + 8 ≤ x + erdpOffset ∨ x + erdpOffset + 8 ≤ regs + erdpOffset := by
        simp only [rangesDisjoint, Bool.or_eq_true, decide_eq_true_eq, interrupterBytes] at hapart
        omega
      exact congrArg (fun n => erdpPtr (BitVec.ofNat 64 n)) (Memory.read_write_outside _ _ _ _ _ _ hbeside)

theorem State.registersApart_of_isInterrupter {s t : State} {regs : Nat} (h : s.registersApart regs)
    (ht : ∀ x, t.isInterrupter x = s.isInterrupter x) : t.registersApart regs :=
  fun x hx => h x (ht x ▸ hx)

theorem State.controllerSteps_pointer {s : State} {regs : Nat} (h : s.registersApart regs)
    (as : List ControllerAction) :
    (s.controllerSteps as).registersApart regs ∧
      erdpPtr ((s.controllerSteps as).erdp regs) = erdpPtr (s.erdp regs) := by
  induction as generalizing s with
  | nil => exact ⟨h, rfl⟩
  | cons a as ih =>
    obtain ⟨hapart, hptr⟩ := ih (State.registersApart_of_isInterrupter h (s.controllerStep_isInterrupter a))
    exact ⟨hapart, hptr.trans (State.controllerStep_erdpPtr h a)⟩

/-- When the block's next event comes, the pointer is where it was. -/
theorem State.nextEvent_pointer {s t : State} {regs : Nat} (h : s.registersApart regs) (ht : s.nextEvent = .ok t) :
    t.registersApart regs ∧ erdpPtr (t.erdp regs) = erdpPtr (s.erdp regs) := by
  rcases betweenEvents_cases s.agenda s with ⟨as, rest, hb, -⟩ | ⟨as, rest, -, hb⟩ <;> rw [State.nextEvent, hb] at ht
  · cases ht
    exact State.controllerSteps_pointer h as
  · cases ht

/-! ### Any number of pops (R160) -/

theorem State.doneNat_isInterrupter (s : State) (v x : Nat) : (s.doneNat v).isInterrupter x = s.isInterrupter x := by
  rcases s.doneNat_cases v with ⟨-, h⟩ | ⟨-, h⟩ <;> rw [h] <;> rfl

/-- An EventRing after `n` pops from slot 0 with consumer cycle bit 1. -/
def EventRing.afterPops (e : EventRing) (n : Nat) : EventRing :=
  { e with ccs := decide (n / e.cap.toNat % 2 = 0) }

theorem EventRing.popped_afterPops {e : EventRing} (n : Nat) (hcap : 0 < e.cap.toNat) :
    (e.afterPops n).popped (e.slot (n % e.cap.toNat)) = e.afterPops (n + 1) := by
  have hpopped : (e.afterPops n).popped (e.slot (n % e.cap.toNat)) =
      if n % e.cap.toNat + 1 = e.cap.toNat then { e.afterPops n with ccs := !(e.afterPops n).ccs } else e.afterPops n :=
    EventRing.popped_slot (e := e.afterPops n)
  rw [hpopped]
  rcases succ_div_mod (P := n) hcap with ⟨hwrap, -, hdiv⟩ | ⟨hlap, -, hdiv⟩
  · have hparity : decide ((n / e.cap.toNat + 1) % 2 = 0) = !decide (n / e.cap.toNat % 2 = 0) := by
      rw [← decide_not, decide_eq_decide]
      omega
    rw [if_pos hwrap]
    simp only [EventRing.afterPops, hdiv, hparity]
  · rw [if_neg (Nat.ne_of_lt hlap)]
    simp only [EventRing.afterPops, hdiv]

/-- What holds after `n` pops of `e` (R160). -/
structure State.PoppedTimes (t : State) (j : Nat) (e : EventRing) (n : Nat) : Prop where
  live : t.live
  ering : t.erings[j]? = some (e.afterPops n)
  apart : t.registersApart e.regsAddr
  dequeue : t.dequeueAt e (n % e.cap.toNat)

/-- One more pop, with any steps of the controller before and between its two events. -/
theorem State.PoppedTimes.succ {t u : State} {j : Nat} {e : EventRing} {n : Nat} (h : t.PoppedTimes j e n)
    (hfits : e.Fits) (hs : e.state = .ready) (hr : regsFit e.regs) {l : List Move} (hn : noReset l)
    (hexec : exec (.erPop j) { t with agenda := l } = .next u) : u.PoppedTimes j e (n + 1) := by
  obtain ⟨hl, he, hapart, hk, hdq⟩ := h
  obtain ⟨v, hread, hnv⟩ := State.nextEvent_noReset { t with agenda := l } hn
  obtain ⟨w, hwrite, -⟩ := v.nextEvent_noReset hnv
  obtain ⟨hvapart, hvptr⟩ := State.nextEvent_pointer (s := { t with agenda := l }) hapart hread
  obtain ⟨hwapart, -⟩ := State.nextEvent_pointer hvapart hwrite
  have hsame := (State.nextEvent_ok hread).trans (State.nextEvent_ok hwrite)
  have hold : (erdpPtr (v.erdp e.regsAddr)).toNat = e.slot (n % e.cap.toNat) := (congrArg _ hvptr).trans hdq
  have hpop := exec_erPop_of_events (s := { t with agenda := l }) hl he hs hr hread hwrite
  rw [hexec] at hpop
  obtain rfl := Host.Outcome.next.inj hpop
  have hindex : j < w.erings.length := by
    rw [hsame.erings]
    exact (List.getElem?_eq_some_iff.mp he).1
  have hdequeue : (w.poppedState j (e.afterPops n) (v.erdp e.regsAddr)).dequeueAt e
      ((n % e.cap.toNat + 1) % e.cap.toNat) :=
    State.dequeueAt_popped (e := e.afterPops n) ⟨hfits.aligned, hfits.fits⟩ hk hold w j
  refine ⟨w.poppedState_live ?_ _ _ _, ?_, ?_, Nat.mod_add_mod n _ 1 ▸ hdequeue⟩
  · exact State.live_of_status (s := { t with agenda := l }) hl hsame.status
  · rw [w.poppedState_erings, List.getElem?_set_self hindex]
    exact congrArg some ((congrArg _ hold).trans (EventRing.popped_afterPops n (by omega)))
  · exact State.registersApart_of_isInterrupter hwapart fun x => State.doneNat_isInterrupter _ _ x

/-- Settles O41: the closed form holds of the fresh EventRing, and each pop keeps it. -/
theorem popsInClosedForm : Obligations.PopsInClosedForm := by
  intro s t j Q e hinv hl he hs hccs hr hapart hdq hpops
  have hfits := hinv.eventRingFits he hs
  have hpopped : t.PoppedTimes j e Q := by
    induction hpops with
    | none s =>
      refine ⟨hl, ?_, hapart, by rwa [Nat.zero_mod]⟩
      rw [he, EventRing.afterPops, Nat.zero_div, ← hccs.trans (by decide : true = decide (0 % 2 = 0))]
    | pop l _ hn hexec ih => exact (ih hinv hl he hapart hdq).succ hfits hs hr hn hexec
  exact ⟨hpopped.ering, hpopped.dequeue⟩

end Sys2Proof.Machine
end

section
/-! PROOFS. `ER.INIT` of 42_event_ring.md undisturbed: the failures, the stop at registers without addresses, and
everything a success writes (R151, R196, R201). -/

namespace Sys2Proof.Machine

/-! ### The tests and the two allocations -/

theorem exec_erInit_run {s : State} {j : Nat} {e : EventRing} (hl : s.live) (he : s.erings[j]? = some e)
    (hs : e.state = .uninit) : exec (.erInit j) s = s.eventRingInit j e :=
  s.onEventRing_run j .uninit _ e hl he hs

theorem State.failEventRing_live {s : State} {j : Nat} {e : EventRing} (c : ResultCode) (hl : s.live) :
    s.failEventRing j e c =
      .next (State.withResult { s with erings := s.erings.set j { e with state := .failed } } c.word 0) :=
  congrArg _ ((s.setEventRing j { e with state := .failed }).fail_live c hl)

/-- The capacity operand passes the test. -/
def State.CapacityLegal (s : State) : Prop := ¬(operandNat s.port.arg0 < 1 ∨ operandNat s.port.arg0 > erCapMax)

theorem State.eventRingInit_no_buffer {s : State} {j : Nat} {e : EventRing} (hm : s.CapacityLegal)
    (hb : s.allocate (operandNat s.port.arg0 * entryBytes) erAlign erBoundary = none) :
    s.eventRingInit j e = s.failEventRing j e .allocationFailure := by
  simp only [State.eventRingInit, if_neg hm, hb]

theorem State.eventRingInit_no_table {s u : State} {j b : Nat} {e : EventRing} (hm : s.CapacityLegal)
    (hb : s.allocate (operandNat s.port.arg0 * entryBytes) erAlign erBoundary = some (b, u))
    (ht : u.allocate erstEntryBytes erstAlign erstBoundary = none) :
    s.eventRingInit j e = u.failEventRing j e .allocationFailure := by
  simp only [State.eventRingInit, if_neg hm, hb, ht]

theorem State.eventRingInit_room {s u v : State} {j b t : Nat} {e : EventRing} (hm : s.CapacityLegal)
    (hb : s.allocate (operandNat s.port.arg0 * entryBytes) erAlign erBoundary = some (b, u))
    (ht : u.allocate erstEntryBytes erstAlign erstBoundary = some (t, v)) :
    s.eventRingInit j e =
      Run.outcome (v.registerEvents (operandNat s.port.arg0) b t s.port.arg1.toNat >>= fun w => Pure.pure
        ((w.setEventRing j (EventRing.fresh b (operandNat s.port.arg0) t s.port.arg1)).done (BitVec.ofNat 64 b))) := by
  simp only [State.eventRingInit, if_neg hm, hb, ht]

theorem State.allocate_buffer {s : State} {b : Nat} (hb : b = alignUp s.cursor 64)
    (h : b + 16 * operandNat s.port.arg0 ≤ s.cfg.poolEnd) :
    s.allocate (operandNat s.port.arg0 * entryBytes) erAlign erBoundary =
      some (b, { s with cursor := b + 16 * operandNat s.port.arg0 }) := by
  subst hb
  rw [Nat.mul_comm]
  exact State.allocate_room h

/-- Settles O36: the three ways to fail, in the order of the tests. -/
theorem eventRingInitFails : Obligations.EventRingInitFails := by
  intro s j e hl he hs m limit b tbl failed
  rw [exec_erInit_run hl he hs]
  have hlegal (h1 : 1 ≤ m) (hmax : m ≤ 65535) : s.CapacityLegal := not_or.mpr ⟨Nat.not_lt.mpr h1, Nat.not_lt.mpr hmax⟩
  refine ⟨fun hm => (if_pos hm).trans (State.failEventRing_live .invalidCapacity hl), fun h1 hmax hfull => ?_,
    fun h1 hmax hroom hfull => ?_⟩
  · have hnone : s.allocate (operandNat s.port.arg0 * entryBytes) erAlign erBoundary = none :=
      State.allocate_no_room (by rw [Nat.mul_comm]; exact hfull)
    rw [State.eventRingInit_no_buffer (hlegal h1 hmax) hnone]
    exact State.failEventRing_live .allocationFailure hl
  · have hnone : State.allocate { s with cursor := b + 16 * m } erstEntryBytes erstAlign erstBoundary = none :=
      State.allocate_no_room hfull
    rw [State.eventRingInit_no_table (hlegal h1 hmax) (State.allocate_buffer rfl hroom) hnone]
    exact State.failEventRing_live (s := { s with cursor := b + 16 * m }) .allocationFailure hl

/-- With room for both regions the events of `ER.INIT` remain. -/
theorem exec_erInit_placed {s : State} {j : Nat} {e : EventRing} {b tbl : Nat} (hl : s.live)
    (he : s.erings[j]? = some e) (hs : e.state = .uninit) (h1 : 1 ≤ s.port.arg0.toNat)
    (hmax : s.port.arg0.toNat ≤ 65535)
    (hb : b = alignUp s.cursor 64) (htbl : tbl = alignUp (b + 16 * s.port.arg0.toNat) 64)
    (hroom : tbl + 16 ≤ s.cfg.poolEnd) :
    exec (.erInit j) s =
      Run.outcome (State.registerEvents { s with cursor := tbl + 16 } s.port.arg0.toNat b tbl s.port.arg1.toNat >>=
        fun w => Pure.pure ((w.setEventRing j (EventRing.fresh b s.port.arg0.toNat tbl s.port.arg1)).done
          (BitVec.ofNat 64 b))) := by
  have hbefore : b + 16 * s.port.arg0.toNat ≤ tbl := htbl ▸ le_alignUp _ _
  have htable : State.allocate { s with cursor := b + 16 * s.port.arg0.toNat } erstEntryBytes erstAlign erstBoundary =
      some (tbl, { s with cursor := tbl + 16 }) := by
    subst htbl
    exact State.allocate_room (s := { s with cursor := b + 16 * s.port.arg0.toNat }) hroom
  rw [exec_erInit_run hl he hs]
  exact State.eventRingInit_room (not_or.mpr ⟨Nat.not_lt.mpr h1, Nat.not_lt.mpr hmax⟩)
    (State.allocate_buffer hb (hbefore.trans (by omega))) htable

/-- Settles O37: the accesses to memory have addresses, the one to `ERDP` has none. -/
theorem eventRingInitBeyondTheAddressSpaceStops : Obligations.EventRingInitBeyondTheAddressSpaceStops := by
  intro s j e hl hu harena he hs m h1 hmax hroom hr
  have hend : s.cfg.poolEnd ≤ addressSpace := of_decide_eq_true harena
  have hfits : alignUp (alignUp s.cursor 64 + 16 * m) 64 + 16 ≤ addressSpace := hroom.trans hend
  have hbefore := le_alignUp (alignUp s.cursor 64 + 16 * m) 64
  have hstops := State.registerEvents_beyond
    { s with cursor := alignUp (alignUp s.cursor 64 + 16 * m) 64 + 16 } hu (hbefore.trans (by omega)) hfits hr
  rw [exec_erInit_placed hl he hs h1 hmax rfl rfl hroom, hstops]
  rfl

/-! ### What the events write -/

theorem Memory.read64_write64_outside (m : Memory) (a b : Nat) (v : Word64) (h : b + 8 ≤ a ∨ a + 8 ≤ b) :
    (m.write64 a v).read64 b = m.read64 b :=
  congrArg (BitVec.ofNat 64) (Memory.read_write_outside _ _ _ _ _ _ h)

/-- A 64-byte aligned address has no bits below bit 6. -/
theorem and_align64Mask_of_aligned (v : Word64) (h : v.toNat % 64 = 0) : v &&& align64Mask = v := by
  have hmask (k : Nat) : align64Mask.getLsbD k = (decide (6 ≤ k) && decide (k < 64)) := by
    have hshift : align64Mask = BitVec.allOnes 64 <<< 6 := by decide
    rw [hshift, getLsbD_allOnes_shiftLeft]
  refine BitVec.eq_of_getLsbD_eq fun k hk => ?_
  rw [BitVec.getLsbD_and, hmask]
  by_cases h6 : 6 ≤ k
  · simp [h6, hk]
  · have hlow := Nat.testBit_mod_two_pow v.toNat 6 k
    simp only [show 2 ^ 6 = 64 from rfl, h, Nat.zero_testBit, show k < 6 by omega, decide_true, Bool.true_and] at hlow
    rw [← BitVec.testBit_toNat, ← hlow, Bool.false_and]

/-- The segment table describes the buffer (R151). -/
theorem State.segmentWritten_table (s : State) (m b tbl : Nat) :
    (s.segmentWritten m b tbl).mem.read64 tbl = BitVec.ofNat 64 b ∧
      (s.segmentWritten m b tbl).mem.read64 (tbl + 8) = BitVec.ofNat 64 m := by
  refine ⟨?_, Memory.read64_write64 _ _ _⟩
  rw [State.segmentWritten, Memory.read64_write64_outside _ _ _ _ (.inl (Nat.le_refl _)), Memory.read64_write64]

/-- DMA memory beside the table is as after the zero-fill. -/
theorem State.segmentWritten_peek (s : State) (m b : Nat) {tbl x : Nat} (hx : x < tbl ∨ tbl + 16 ≤ x) :
    (s.segmentWritten m b tbl).mem.peek x = if b ≤ x ∧ x < b + 16 * m then 0 else s.mem.peek x := by
  rw [State.segmentWritten, Memory.write64, Memory.write64, Memory.peek_write_outside _ _ _ _ _ (by omega),
    Memory.peek_write_outside _ _ _ _ _ (by omega), Memory.peek_zeroed]

/-- The controller reads from the table the producer of the fresh buffer (R196). -/
theorem segmentAt_segmentWritten (s : State) {m b tbl : Nat} (hb : b % 64 = 0) (ht : tbl % 64 = 0)
    (hfits : tbl + 16 ≤ addressSpace) :
    segmentAt (s.segmentWritten m b tbl).mem (BitVec.ofNat 64 tbl) =
      { base := BitVec.ofNat 64 b, size := BitVec.ofNat 16 m, enq := BitVec.ofNat 64 b, pcs := true } := by
  have halign (n : Nat) (hn : n % 64 = 0) : BitVec.ofNat 64 n &&& align64Mask = BitVec.ofNat 64 n := by
    refine and_align64Mask_of_aligned _ ?_
    rw [BitVec.toNat_ofNat, Nat.mod_mod_of_dvd n (by decide), hn]
  have hnat : (BitVec.ofNat 64 tbl).toNat = tbl := toNat_ofNat64_of_lt (by simp only [addressSpace] at hfits; omega)
  obtain ⟨hbase, hsize⟩ := s.segmentWritten_table m b tbl
  simp only [segmentAt, halign tbl ht, hnat, hbase, hsize, halign b hb]
  rw [BitVec.setWidth_ofNat_of_le (by decide)]

/-- The register space after the events: `ERSTSZ`, `ERDP` and `ERSTBA`, in the order written. -/
theorem State.registered_mmio (s : State) (m b tbl regs : Nat) :
    (s.registered m b tbl regs).mmio =
      ((s.mmio.write32 (regs + erstszOffset) 1).write64 (regs + erdpOffset)
        (erdpAfter s.cfg.erdpWriteModel ((s.mmio.write32 (regs + erstszOffset) 1).read64 (regs + erdpOffset))
          (erdpMerge ((s.mmio.write32 (regs + erstszOffset) 1).read64 (regs + erdpOffset)) b))).write64
        (regs + erstbaOffset) (BitVec.ofNat 64 tbl) := rfl

/-- What the events change besides the register space. -/
theorem State.registered_eq (s : State) (m b tbl regs : Nat) :
    s.registered m b tbl regs =
      { s with
        mem := (s.segmentWritten m b tbl).mem
        mmio := (s.registered m b tbl regs).mmio
        producers := tablePut s.producers regs (segmentAt (s.segmentWritten m b tbl).mem (BitVec.ofNat 64 tbl)) } :=
  rfl

theorem State.registered_erstsz (s : State) (m b tbl regs : Nat) : (s.registered m b tbl regs).erstsz regs = 1 := by
  have hkeep (mmio : Memory) (off : Nat) (v : Word64) (hoff : erstszOffset + 4 ≤ off) :
      (mmio.write64 (regs + off) v).read32 (regs + erstszOffset) = mmio.read32 (regs + erstszOffset) := by
    rw [Memory.read32, Memory.write64, Memory.read_write_outside _ _ _ _ _ _ (.inl (by omega)), Memory.read32]
  rw [State.erstsz, State.registered_mmio, hkeep _ _ _ (by decide), hkeep _ _ _ (by decide), Memory.read32_write32]

theorem State.registered_erstba (s : State) (m b tbl regs : Nat) :
    (s.registered m b tbl regs).erstba regs = BitVec.ofNat 64 tbl := by
  rw [State.erstba, State.registered_mmio, Memory.read64_write64]

theorem State.registered_erdp (s : State) (m b tbl regs : Nat) :
    (s.registered m b tbl regs).erdp regs =
      erdpAfter s.cfg.erdpWriteModel (s.erdp regs) (erdpMerge (s.erdp regs) b) := by
  have hread : (s.mmio.write32 (regs + erstszOffset) 1).read64 (regs + erdpOffset) = s.erdp regs := by
    rw [Memory.read64, Memory.write32,
      Memory.read_write_outside _ _ _ _ _ _ (.inr (by simp only [erstszOffset, erdpOffset]; omega)), State.erdp,
      Memory.read64]
  rw [State.erdp, State.registered_mmio,
    Memory.read64_write64_outside _ _ _ _ (.inr (by simp only [erstbaOffset, erdpOffset]; omega)),
    Memory.read64_write64, hread]

/-- The register events write the 4 bytes of `ERSTSZ` and the 16 of `ERSTBA` and `ERDP`. -/
theorem State.registered_peek (s : State) (m b tbl : Nat) {regs x : Nat}
    (hx : x < regs + 0x08 ∨ (regs + 0x0C ≤ x ∧ x < regs + 0x10) ∨ regs + 0x20 ≤ x) :
    (s.registered m b tbl regs).mmio.peek x = s.mmio.peek x := by
  simp only [State.registered_mmio, Memory.write64, Memory.write32, erstszOffset, erdpOffset, erstbaOffset]
  rw [Memory.peek_write_outside _ _ _ _ _ (by omega), Memory.peek_write_outside _ _ _ _ _ (by omega),
    Memory.peek_write_outside _ _ _ _ _ (by omega)]

/-- Everything the events of `ER.INIT` write (R151, R196). -/
structure Registered (s r : State) (m b tbl regs : Nat) : Prop where
  whole : r = { s with
    mem := r.mem
    mmio := r.mmio
    producers := tablePut s.producers regs
      { base := BitVec.ofNat 64 b, size := BitVec.ofNat 16 m, enq := BitVec.ofNat 64 b, pcs := true } }
  mem : ∀ x, x < tbl ∨ tbl + 16 ≤ x → r.mem.peek x = if b ≤ x ∧ x < b + 16 * m then 0 else s.mem.peek x
  tableBase : r.mem.read64 tbl = BitVec.ofNat 64 b
  tableSize : r.mem.read64 (tbl + 8) = BitVec.ofNat 64 m
  erstsz : r.erstsz regs = 1
  erstba : r.erstba regs = BitVec.ofNat 64 tbl
  erdp : r.erdp regs = erdpAfter s.cfg.erdpWriteModel (s.erdp regs) (erdpMerge (s.erdp regs) b)
  mmio : ∀ x, x < regs + 0x08 ∨ (regs + 0x0C ≤ x ∧ x < regs + 0x10) ∨ regs + 0x20 ≤ x →
    r.mmio.peek x = s.mmio.peek x

theorem State.registered_all (s : State) {m b tbl : Nat} (regs : Nat) (hb : b % 64 = 0) (ht : tbl % 64 = 0)
    (hfits : tbl + 16 ≤ addressSpace) : Registered s (s.registered m b tbl regs) m b tbl regs where
  whole := by rw [s.registered_eq m b tbl regs, segmentAt_segmentWritten s hb ht hfits]
  mem := fun _ hx => s.segmentWritten_peek m b hx
  tableBase := (s.segmentWritten_table m b tbl).1
  tableSize := (s.segmentWritten_table m b tbl).2
  erstsz := s.registered_erstsz m b tbl regs
  erstba := s.registered_erstba m b tbl regs
  erdp := s.registered_erdp m b tbl regs
  mmio := fun _ hx => s.registered_peek m b tbl hx

/-- A 16-byte aligned address of the address space, merged with the status bits of `ERDP` (R103). -/
theorem erdpMerge_of_aligned (old : Word64) {b : Nat} (hb : b % 16 = 0) :
    erdpPtr (BitVec.ofNat 64 b) = BitVec.ofNat 64 b ∧
      erdpMerge old b = BitVec.ofNat 64 b ||| (old &&& erdpStatusMask) := by
  have hptr : erdpPtr (BitVec.ofNat 64 b) = BitVec.ofNat 64 b :=
    erdpPtr_of_aligned _ (by rw [BitVec.toNat_ofNat, Nat.mod_mod_of_dvd b (by decide), hb])
  exact ⟨hptr, congrArg (· ||| (old &&& erdpStatusMask)) hptr⟩

/-- Settles O35: both regions are placed, every access has an address. -/
theorem eventRingInitSucceeds : Obligations.EventRingInitSucceeds := by
  intro s j e hl hu harena he hs m regs b tbl h1 hmax hroom hr
  have hend : s.cfg.poolEnd ≤ addressSpace := of_decide_eq_true harena
  have hfits : tbl + 16 ≤ addressSpace := hroom.trans hend
  have hbefore : b + 16 * m ≤ tbl := le_alignUp _ _
  have hbase : b % 64 = 0 := Nat.mod_eq_zero_of_dvd (dvd_alignUp (by decide))
  have htable : tbl % 64 = 0 := Nat.mod_eq_zero_of_dvd (dvd_alignUp (by decide))
  have hcap : BitVec.ofNat 64 m = s.port.arg0 := by rw [BitVec.ofNat_toNat, BitVec.setWidth_eq]
  obtain ⟨hptr, hmerge⟩ := erdpMerge_of_aligned (s.erdp regs) (b := b) (by omega)
  have hevents := State.registerEvents_undisturbed { s with cursor := tbl + 16 } (m := m) hu
    (hbefore.trans (by omega)) hfits hr
  have hdone := State.registered_all { s with cursor := tbl + 16 } (m := m) regs hbase htable hfits
  obtain ⟨r, hreg⟩ : ∃ r, r = State.registered { s with cursor := tbl + 16 } m b tbl regs := ⟨_, rfl⟩
  rw [← hreg] at hdone hevents
  obtain ⟨hwhole, hmem, htblbase, htblsize, hsz, hba, hdp, hmmio⟩ := hdone
  have hlive : (r.setEventRing j (EventRing.fresh b m tbl s.port.arg1)).live := by rw [hwhole]; exact hl
  refine ⟨State.withResult (r.setEventRing j (EventRing.fresh b m tbl s.port.arg1)) 0 (BitVec.ofNat 64 b), ?_, ?_,
    fun x hlo hhi => (hmem x (.inl (by omega))).trans (if_pos ⟨hlo, hhi⟩), htblbase, htblsize.trans hcap,
    fun x hb ht => (hmem x ht).trans (if_neg (by omega)), hsz, hba, hdp.trans (congrArg _ hmerge), ?_, hmmio⟩
  · rw [exec_erInit_placed hl he hs h1 hmax rfl rfl hroom, hevents]
    exact State.next_done_live _ hlive
  · rw [EventRing.fresh, hcap, hwhole]
    rfl
  · refine (congrArg erdpPtr hdp).trans ?_
    rw [erdpPtr_erdpAfter, erdpPtr_erdpMerge, hptr]

end Sys2Proof.Machine
end

section
/-! PROOFS. No result of an EventRing command depends on the status bits of `ERDP` or on `erdp_write_model` (R47,
R255): the same command on two states that differ in the register space and in that parameter alone. -/

namespace Sys2Proof.Machine

/-! ### Two states that differ in the register space and in `erdp_write_model` -/

def State.withRegisters (s : State) (m : Memory) (model : ErdpWriteModel) : State :=
  { s with mmio := m, cfg := { s.cfg with erdpWriteModel := model } }

/-- Two undisturbed states that differ in the register space and in `erdp_write_model` alone. -/
inductive Twin : State → State → Prop
  | mk (s : State) (m : Memory) (model : ErdpWriteModel) : s.undisturbed → Twin s (s.withRegisters m model)

theorem Twin.of_eq {s s' : State} (hu : s.undisturbed)
    (h : s' = s.withRegisters s'.mmio s'.cfg.erdpWriteModel) : Twin s s' := by
  rw [h]
  exact .mk s _ _ hu

theorem Twin.undisturbed {s s' : State} (h : Twin s s') : s.undisturbed ∧ s'.undisturbed := by
  obtain ⟨m, model, hu⟩ := h
  exact ⟨hu, hu⟩

theorem Twin.endWith {s s' : State} (h : Twin s s') (c : ResultCode) (f : Bool) (v : Word64) :
    Twin (s.endWith c f v) (s'.endWith c f v) := by
  obtain ⟨m, model, hu⟩ := h
  exact .of_eq hu rfl

theorem Twin.setEventRing {s s' : State} (h : Twin s s') (j : Nat) (e : EventRing) :
    Twin (s.setEventRing j e) (s'.setEventRing j e) := by
  obtain ⟨m, model, hu⟩ := h
  exact .of_eq hu rfl

theorem Twin.doneNat {s s' : State} (h : Twin s s') (v : Nat) : Twin (s.doneNat v) (s'.doneNat v) := by
  obtain ⟨m, model, hu⟩ := h
  simp only [State.doneNat]
  split
  · exact .of_eq hu rfl
  · exact .of_eq hu rfl

/-! ### Parts of a command on both states -/

/-- The same part of a command on both states: it goes on in both, or stops in both. -/
inductive RunTwin {α : Type} (R : α → α → Prop) : Run α → Run α → Prop
  | ok (a b : α) : R a b → RunTwin R (.ok a) (.ok b)
  | stop : RunTwin R (.error (.fault .busAddress)) (.error (.fault .busAddress))

theorem RunTwin.bind {α β : Type} {R : α → α → Prop} {Q : β → β → Prop} {x y : Run α} {f g : α → Run β}
    (h : RunTwin R x y) (hf : ∀ a b, R a b → RunTwin Q (f a) (g b)) : RunTwin Q (x >>= f) (y >>= g) := by
  cases h with
  | ok a b hab => exact hf a b hab
  | stop => exact .stop

theorem RunTwin.outcome {x y : Run State} {t : State} (h : RunTwin Twin x y) (ht : Run.outcome x = .next t) :
    ∃ t', Run.outcome y = .next t' ∧ Twin t t' := by
  cases h with
  | ok a b hab =>
    obtain rfl := Host.Outcome.next.inj ht
    exact ⟨b, rfl, hab⟩
  | stop => cases ht

/-- Every event: the same access has an address in both states or in neither. -/
theorem RunTwin.event {α : Type} {R : α → α → Prop} {s s' : State} (h : Twin s s') (c : Bool) {f g : State → α}
    (hf : R (f s) (g s')) :
    RunTwin R (s.nextEvent >>= fun u => if c then .ok (f u) else .error (.fault .busAddress))
      (s'.nextEvent >>= fun u => if c then .ok (g u) else .error (.fault .busAddress)) := by
  obtain ⟨hu, hu'⟩ := h.undisturbed
  rw [s.nextEvent_undisturbed hu, s'.nextEvent_undisturbed hu']
  cases c with
  | true => exact .ok _ _ hf
  | false => exact .stop

theorem Twin.memWrite32 {s s' : State} (h : Twin s s') (a : Nat) (v : Word32) :
    RunTwin Twin (s.memWrite32 a v) (s'.memWrite32 a v) := by
  refine .event h _ ?_
  obtain ⟨m, model, hu⟩ := h
  exact .of_eq hu rfl

theorem Twin.memWrite64 {s s' : State} (h : Twin s s') (a : Nat) (v : Word64) :
    RunTwin Twin (s.memWrite64 a v) (s'.memWrite64 a v) := by
  refine .event h _ ?_
  obtain ⟨m, model, hu⟩ := h
  exact .of_eq hu rfl

theorem Twin.erstszEvent {s s' : State} (h : Twin s s') (regs : Nat) (v : Word32) :
    RunTwin Twin (s.erstszEvent regs v) (s'.erstszEvent regs v) := by
  refine .event h _ ?_
  obtain ⟨m, model, hu⟩ := h
  exact .of_eq hu rfl

/-- Memory is the same, so the controller starts producing into the same segment. -/
theorem Twin.erstbaEvent {s s' : State} (h : Twin s s') (regs : Nat) (v : Word64) :
    RunTwin Twin (s.erstbaEvent regs v) (s'.erstbaEvent regs v) := by
  refine .event h _ ?_
  obtain ⟨m, model, hu⟩ := h
  exact .of_eq hu rfl

theorem Twin.erdpWrite {s s' : State} (h : Twin s s') (regs : Nat) (v v' : Word64) :
    Twin (s.erdpWrite regs v) (s'.erdpWrite regs v') := by
  obtain ⟨m, model, hu⟩ := h
  exact .of_eq hu rfl

theorem Twin.erdpUpdate {s s' : State} (h : Twin s s') (regs : Nat) (next : Nat → Nat) :
    RunTwin (fun a b => Twin a.2 b.2) (s.erdpUpdate regs next) (s'.erdpUpdate regs next) := by
  have hread : RunTwin (fun a b => Twin a.2 b.2) (s.erdpReadEvent regs) (s'.erdpReadEvent regs) := .event h _ h
  refine hread.bind fun a b hab => ?_
  have hwrite (v v' : Word64) : RunTwin Twin (a.2.erdpWriteEvent regs v) (b.2.erdpWriteEvent regs v') :=
    .event hab _ (hab.erdpWrite regs v v')
  exact (hwrite _ _).bind fun t t' ht => .ok _ _ ht

theorem Twin.entryEvents {s s' : State} (h : Twin s s') (a : Nat) (e : Entry) :
    RunTwin Twin (s.entryEvents a e) (s'.entryEvents a e) :=
  (h.memWrite32 _ _).bind fun _ _ h => (h.memWrite32 _ _).bind fun _ _ h => (h.memWrite32 _ _).bind fun _ _ h =>
    h.memWrite32 _ _

theorem Twin.zeroFill {s s' : State} (h : Twin s s') (n a : Nat) :
    RunTwin Twin (zeroFill n a s) (Machine.zeroFill n a s') := by
  induction n generalizing a s s' with
  | zero => exact .ok _ _ h
  | succ n ih => exact (h.entryEvents _ _).bind fun _ _ h => ih h _

theorem Twin.registerEvents {s s' : State} (h : Twin s s') (m b t regs : Nat) :
    RunTwin Twin (s.registerEvents m b t regs) (s'.registerEvents m b t regs) :=
  (h.zeroFill _ _).bind fun _ _ h => (h.memWrite64 _ _).bind fun _ _ h => (h.memWrite64 _ _).bind fun _ _ h =>
    (h.erstszEvent _ _).bind fun _ _ h => (h.erdpUpdate _ _).bind fun _ _ h => h.erstbaEvent _ _

/-! ### The commands on both states -/

/-- The allocator sees neither the register space nor `erdp_write_model`. -/
theorem State.allocate_withRegisters (s : State) (m : Memory) (model : ErdpWriteModel) (size alignment boundary : Nat) :
    (s.withRegisters m model).allocate size alignment boundary =
      (s.allocate size alignment boundary).map fun x => (x.1, x.2.withRegisters m model) := by
  have hplace : placeRegion (s.withRegisters m model).cfg.poolEnd (s.withRegisters m model).cursor size alignment
      boundary = placeRegion s.cfg.poolEnd s.cursor size alignment boundary := rfl
  rw [State.allocate, State.allocate, hplace]
  cases placeRegion s.cfg.poolEnd s.cursor size alignment boundary with
  | none => rfl
  | some a => rfl

theorem Twin.eventRingInit {s s' t : State} (h : Twin s s') (j : Nat) (e : EventRing)
    (ht : s.eventRingInit j e = .next t) : ∃ t', s'.eventRingInit j e = .next t' ∧ Twin t t' := by
  obtain ⟨mmio, model, hu⟩ := h
  have hfail (u : State) (c : ResultCode) (hu : u.undisturbed) (ht : u.failEventRing j e c = .next t) :
      ∃ t', (u.withRegisters mmio model).failEventRing j e c = .next t' ∧ Twin t t' := by
    obtain rfl := Host.Outcome.next.inj ht
    exact ⟨_, rfl, ((Twin.mk u mmio model hu).setEventRing j _).endWith c false 0⟩
  by_cases hm : s.CapacityLegal
  · have hm' : (s.withRegisters mmio model).CapacityLegal := hm
    have hfirst := s.allocate_withRegisters mmio model (operandNat s.port.arg0 * entryBytes) erAlign erBoundary
    rcases s.allocate_cases (operandNat s.port.arg0 * entryBytes) erAlign erBoundary with hb | ⟨b, hb, -⟩ <;>
      rw [hb] at hfirst
    · rw [State.eventRingInit_no_buffer hm hb] at ht
      rw [State.eventRingInit_no_buffer hm' hfirst]
      exact hfail s _ hu ht
    · generalize hs1 : { s with cursor := b + operandNat s.port.arg0 * entryBytes } = s1 at hb hfirst
      have hu1 : s1.undisturbed := hs1 ▸ hu
      have hsecond := s1.allocate_withRegisters mmio model erstEntryBytes erstAlign erstBoundary
      rcases s1.allocate_cases erstEntryBytes erstAlign erstBoundary with htbl | ⟨tbl, htbl, -⟩ <;>
        rw [htbl] at hsecond
      · rw [State.eventRingInit_no_table hm hb htbl] at ht
        rw [State.eventRingInit_no_table hm' hfirst hsecond]
        exact hfail s1 _ hu1 ht
      · rw [State.eventRingInit_room hm hb htbl] at ht
        rw [State.eventRingInit_room hm' hfirst hsecond]
        refine RunTwin.outcome (((Twin.mk { s1 with cursor := tbl + erstEntryBytes } mmio model hu1).registerEvents
          _ b tbl _).bind fun u u' h => ?_) ht
        exact .ok _ _ ((h.setEventRing j _).endWith .ok false _)
  · have hm' := not_not.mp hm
    simp only [State.eventRingInit, if_pos hm'] at ht
    obtain ⟨t', ht', htwin⟩ := hfail s _ hu ht
    exact ⟨t', (if_pos hm').trans ht', htwin⟩

/-- The checks of an `ER` command end alike, and so does the command if its pseudocode does. -/
theorem Twin.onEventRing {s s' t : State} (h : Twin s s') {j : Nat} {need : Lifecycle}
    {run run' : EventRing → Outcome} (ht : s.onEventRing j need run = .next t)
    (hrun : ∀ e, s.live → s.erings[j]? = some e → e.state = need → run e = .next t →
      ∃ t', run' e = .next t' ∧ Twin t t') :
    ∃ t', s'.onEventRing j need run' = .next t' ∧ Twin t t' := by
  have hchecks (c : ResultCode) (f : Bool) (hs : s.onEventRing j need run = .next (s.endWith c f 0))
      (hs' : s'.onEventRing j need run' = .next (s'.endWith c f 0)) :
      ∃ t', s'.onEventRing j need run' = .next t' ∧ Twin t t' := by
    obtain rfl := Host.Outcome.next.inj (ht.symm.trans hs)
    exact ⟨_, hs', h.endWith c f 0⟩
  have hhalted : s'.halted = s.halted := by
    obtain ⟨m, model, hu⟩ := h
    rfl
  have herings : s'.erings = s.erings := by
    obtain ⟨m, model, hu⟩ := h
    rfl
  rcases s.onEventRing_cases j need run with ⟨hh, ho⟩ | ⟨hl, hj, ho⟩ | ⟨e, hl, he, hs, ho⟩ | ⟨e, hl, he, hs, ho⟩
  · exact hchecks _ _ ho (s'.unlessHalted_halted _ (hhalted.trans hh))
  · refine hchecks _ _ ho ?_
    rw [State.onEventRing, s'.unlessHalted_live _ (hhalted.trans hl), herings, List.getElem?_eq_none hj]
    rfl
  · exact hchecks _ _ ho (s'.onEventRing_wrongState _ (hhalted.trans hl) (herings ▸ he) hs)
  · rw [s'.onEventRing_run j need run' e (hhalted.trans hl) (herings ▸ he) hs]
    exact hrun e hl he hs (ho ▸ ht)

/-- The three commands that begin with a read of `ERDP` stop where the register has no address. -/
theorem State.regsFit_of_next {s t : State} {j : Nat} {e : EventRing} (hu : s.undisturbed)
    (h : s.hasFront e = .next t ∨ s.front e = .next t ∨ s.pop j e = .next t) : regsFit e.regs := by
  by_contra hr
  have hstop := s.erdpReadEvent_beyond e.regsAddr hu hr
  simp only [State.hasFront, State.front, State.pop, State.frontEvents, hstop, bind, Except.bind, Run.outcome] at h
  rcases h with h | h | h <;> cases h

section
variable {s t : State} {m : Memory} {model : ErdpWriteModel} {j : Nat} {e : EventRing}

theorem State.hasFront_withRegisters (hl : s.live) (hu : s.undisturbed) (he : s.erings[j]? = some e)
    (hs : e.state = .ready)
    (hptr : erdpPtr ((s.withRegisters m model).erdp e.regsAddr) = erdpPtr (s.erdp e.regsAddr))
    (h : s.hasFront e = .next t) : ∃ t', (s.withRegisters m model).hasFront e = .next t' ∧ Twin t t' := by
  have hr : regsFit e.regs := State.regsFit_of_next (j := j) hu (.inl h)
  have hrun (u : State) (hl : u.live) (he : u.erings[j]? = some e) : exec (.erHasFront j) u = u.hasFront e :=
    u.onEventRing_run j .ready _ e hl he hs
  have hnext := exec_erHasFront_undisturbed s j e hl hu he hs hr
  have hnext' := exec_erHasFront_undisturbed (s.withRegisters m model) j e hl hu he hs hr
  rw [hrun s hl he, h] at hnext
  rw [hrun (s.withRegisters m model) hl he, hptr] at hnext'
  obtain rfl := Host.Outcome.next.inj hnext
  exact ⟨_, hnext', .of_eq hu rfl⟩

theorem State.front_withRegisters (hl : s.live) (hu : s.undisturbed) (he : s.erings[j]? = some e)
    (hs : e.state = .ready)
    (hptr : erdpPtr ((s.withRegisters m model).erdp e.regsAddr) = erdpPtr (s.erdp e.regsAddr))
    (h : s.front e = .next t) : ∃ t', (s.withRegisters m model).front e = .next t' ∧ Twin t t' := by
  have hr : regsFit e.regs := State.regsFit_of_next (j := j) hu (.inr (.inl h))
  have hrun (u : State) (hl : u.live) (he : u.erings[j]? = some e) : exec (.erFront j) u = u.front e :=
    u.onEventRing_run j .ready _ e hl he hs
  have hnext := exec_erFront_undisturbed hl hu he hs hr
  have hnext' := exec_erFront_undisturbed (s := s.withRegisters m model) hl hu he hs hr
  rw [hrun s hl he, h] at hnext
  rw [hrun (s.withRegisters m model) hl he, hptr] at hnext'
  obtain rfl := Host.Outcome.next.inj hnext
  exact ⟨_, hnext', .of_eq hu rfl⟩

/-- The new pointer and the cycle bit come from the pointer read; the value written goes to the register space. -/
theorem State.pop_withRegisters (hl : s.live) (hu : s.undisturbed) (he : s.erings[j]? = some e)
    (hs : e.state = .ready)
    (hptr : erdpPtr ((s.withRegisters m model).erdp e.regsAddr) = erdpPtr (s.erdp e.regsAddr))
    (h : s.pop j e = .next t) : ∃ t', (s.withRegisters m model).pop j e = .next t' ∧ Twin t t' := by
  have hr : regsFit e.regs := State.regsFit_of_next hu (.inr (.inr h))
  have hrun (u : State) (hl : u.live) (he : u.erings[j]? = some e) : exec (.erPop j) u = u.pop j e :=
    u.onEventRing_run j .ready _ e hl he hs
  have hnext := exec_erPop_undisturbed hl hu he hs hr
  have hnext' := exec_erPop_undisturbed (s := s.withRegisters m model) hl hu he hs hr
  rw [hrun s hl he, h] at hnext
  rw [hrun (s.withRegisters m model) hl he, State.poppedState, hptr] at hnext'
  obtain rfl := Host.Outcome.next.inj hnext
  exact ⟨_, hnext', (((Twin.mk s m model hu).erdpWrite _ _ _).setEventRing j _).doneNat _⟩

end

/-- Settles O44: the two next states are twins. -/
theorem erdpStatusBitsDoNotShow : Obligations.ErdpStatusBitsDoNotShow := by
  intro s t m model j hu s' hptr i hi h
  have htwin : Twin s s' := .mk s m model hu
  obtain ⟨t', ht', halike⟩ : ∃ t', exec i s' = .next t' ∧ Twin t t' := by
    simp only [List.mem_cons, List.not_mem_nil, or_false] at hi
    rcases hi with rfl | rfl | rfl | rfl
    · exact htwin.onEventRing h fun e _ _ _ => htwin.eventRingInit j e
    · exact htwin.onEventRing h fun e hl he hs => s.hasFront_withRegisters hl hu he hs (hptr e he hs)
    · exact htwin.onEventRing h fun e hl he hs => s.front_withRegisters hl hu he hs (hptr e he hs)
    · exact htwin.onEventRing h fun e hl he hs => s.pop_withRegisters hl hu he hs (hptr e he hs)
  obtain ⟨m', model', -⟩ := halike
  exact ⟨_, ht', rfl, rfl, rfl, rfl, rfl⟩

end Sys2Proof.Machine
end

section
/-! PROOFS. The queue of events between the controller's producer and the block (R197 to R200): what a produce step, a
word written ahead, and a pop make of it. -/

namespace Sys2Proof.Machine

/-! ### Slots of a ring -/

theorem add_mod_eq_ite {k n c : Nat} (hk : k < c) (hn : n ≤ c) :
    (k + n) % c = if k + n < c then k + n else k + n - c := by
  split
  · next h => exact Nat.mod_eq_of_lt h
  · next h => rw [Nat.mod_eq_sub_mod (Nat.le_of_not_lt h), Nat.mod_eq_of_lt (by omega)]

theorem succ_mod_eq_ite {n c : Nat} (hc : 0 < c) : (n + 1) % c = if n % c + 1 = c then 0 else n % c + 1 := by
  rcases succ_div_mod (P := n) hc with ⟨hwrap, hmod, -⟩ | ⟨hlap, hmod, -⟩
  · rw [if_pos hwrap, hmod]
  · rw [if_neg (Nat.ne_of_lt hlap), hmod]

theorem EventRing.slot_disjoint {e : EventRing} {x y : Nat} (h : x ≠ y) :
    e.slot x + 16 ≤ e.slot y ∨ e.slot y + 16 ≤ e.slot x := by
  simp only [EventRing.slot, entryBytes]
  omega

theorem EventRing.slot_injective {e : EventRing} {x y : Nat} : e.slot x = e.slot y ↔ x = y := by
  simp only [EventRing.slot, entryBytes]
  omega

/-- A word written beside an entry leaves the entry. -/
theorem Memory.entryAt_write32_outside (m : Memory) (a b : Nat) (v : Word32) (h : b + 16 ≤ a ∨ a + 4 ≤ b) :
    (m.write32 a v).entryAt b = m.entryAt b := by
  simp only [Memory.entryAt]
  rw [Memory.read32_write32_outside _ _ _ _ (by omega), Memory.read32_write32_outside _ _ _ _ (by omega),
    Memory.read32_write32_outside _ _ _ _ (by omega), Memory.read32_write32_outside _ _ _ _ (by omega)]

/-- A pop writes no DMA memory and changes no producer. -/
theorem State.poppedState_frame (u : State) (j : Nat) (e : EventRing) (old : Word64) :
    (u.poppedState j e old).mem = u.mem ∧ (u.poppedState j e old).producers = u.producers := by
  rw [State.poppedState]
  rcases State.doneNat_cases _ _ with ⟨-, h⟩ | ⟨-, h⟩ <;> rw [h] <;> exact ⟨rfl, rfl⟩

namespace EventsQueued

variable {s : State} {e : EventRing} {p : Producer} {k : Nat} {q : List Entry}

theorem bufferFits (h : EventsQueued s e p k q) : e.Fits := ⟨h.aligned, h.fits⟩

theorem position_lt (h : EventsQueued s e p k q) : k < e.cap.toNat := h.dequeue.1

/-! ### The producer at its slot (R198, R199) -/

theorem enqueue_lt (h : EventsQueued s e p k q) : (k + q.length) % e.cap.toNat < e.cap.toNat :=
  Nat.mod_lt _ (Nat.zero_lt_of_lt h.position_lt)

/-- The producer wraps where the slot it stands at is the last one. -/
theorem wraps_iff (h : EventsQueued s e p k q) :
    p.enq.toNat + 16 = p.base.toNat + 16 * p.size.toNat ↔ (k + q.length) % e.cap.toNat + 1 = e.cap.toNat := by
  rw [h.enqueue, h.base, h.size]
  exact EventRing.segmentEnd_iff

theorem nextEnq_eq (h : EventsQueued s e p k q) :
    p.nextEnq = e.slot ((k + q.length + 1) % e.cap.toNat) := by
  have hnext : p.nextEnq = e.nextSlot p.enq.toNat := by
    rw [p.nextEnq_eq, h.base, h.size]
    rfl
  rw [hnext, h.enqueue, EventRing.nextSlot_slot h.enqueue_lt, Nat.mod_add_mod]

/-- The slot after the producer's is the consumer's exactly where all slots but one are queued. -/
theorem next_eq_iff (h : EventsQueued s e p k q) :
    (k + q.length + 1) % e.cap.toNat = k ↔ q.length + 1 = e.cap.toNat := by
  have hk := h.position_lt
  have hroom := h.room
  rw [Nat.add_assoc, add_mod_eq_ite hk hroom]
  split <;> omega

theorem mayProduce_iff (h : EventsQueued s e p k q) :
    p.mayProduce (erdpPtr (s.erdp e.regsAddr)) = true ↔ q.length + 1 < e.cap.toNat := by
  have hroom := h.room
  have hslot : p.enq.toNat + 16 ≤ addressSpace := h.enqueue ▸ h.bufferFits.slot_lt h.enqueue_lt
  have hnext : p.nextEnq < addressSpace := by
    have hlt := h.bufferFits.slot_lt (Nat.mod_lt (k + q.length + 1) (Nat.zero_lt_of_lt h.position_lt))
    rw [h.nextEnq_eq]
    omega
  rw [p.mayProduce_iff, h.dequeue.2, h.nextEnq_eq, ne_eq, EventRing.slot_injective, h.next_eq_iff]
  refine ⟨fun ⟨hne, _⟩ => by omega, fun hlt => ⟨by omega, hslot, h.nextEnq_eq ▸ hnext⟩⟩

/-- The slots of the queue lie beside the producer's. -/
theorem slot_ne_enqueue (h : EventsQueued s e p k q) {n : Nat} (hn : n < q.length) :
    (k + q.length) % e.cap.toNat ≠ (k + n) % e.cap.toNat := by
  have hk := h.position_lt
  have hroom := h.room
  rw [add_mod_eq_ite hk hroom.le, add_mod_eq_ite hk (by omega)]
  split <;> split <;> omega

/-- The producer's cycle bit flips at the last slot. -/
theorem advance_pcs (h : EventsQueued s e p k q) :
    p.advance.pcs = if (k + q.length) % e.cap.toNat + 1 = e.cap.toNat then !p.pcs else p.pcs := by
  rw [p.advance_eq]
  simp only [h.wraps_iff]

theorem advance_enq (h : EventsQueued s e p k q) :
    p.advance.enq.toNat = e.slot ((k + (q.length + 1)) % e.cap.toNat) := by
  have hlt := h.bufferFits.slot_lt (Nat.mod_lt (k + q.length + 1) (Nat.zero_lt_of_lt h.position_lt))
  rw [p.advance_eq, h.nextEnq_eq]
  exact toNat_ofNat64_of_lt (by simp only [addressSpace] at hlt; omega)

/-- The lap the producer advances into, seen from the consumer's slot. -/
theorem advance_lap (h : EventsQueued s e p k q) (hroom : q.length + 1 < e.cap.toNat) :
    p.advance.pcs = if k + (q.length + 1) < e.cap.toNat then e.ccs else !e.ccs := by
  have hk := h.position_lt
  rw [h.advance_pcs, h.lap, add_mod_eq_ite hk h.room.le]
  rcases Nat.lt_trichotomy (k + q.length + 1) e.cap.toNat with hinside | hlast | hbehind
  · have hlt : k + q.length < e.cap.toNat := by omega
    rw [if_pos hlt, if_pos hlt, if_neg (by omega), if_pos (by omega)]
  · have hlt : k + q.length < e.cap.toNat := by omega
    rw [if_pos hlt, if_pos hlt, if_pos hlast, if_neg (by omega)]
  · have hge : ¬k + q.length < e.cap.toNat := by omega
    rw [if_neg hge, if_neg hge, if_neg (by omega), if_neg (by omega)]

/-! ### The controller's steps -/

/-- An entry written to the producer's slot leaves the slots of the queue. -/
theorem entries_append (h : EventsQueued s e p k q) (x : Entry) (n : Nat) (hn : n < (q ++ [x]).length) :
    (s.mem.writeEntry p.enq.toNat x).entryAt (e.slot ((k + n) % e.cap.toNat)) = (q ++ [x])[n] := by
  rw [List.length_append] at hn
  rcases Nat.lt_succ_iff_lt_or_eq.mp hn with hold | rfl
  · have hbeside := EventRing.slot_disjoint (e := e) (h.slot_ne_enqueue hold)
    rw [h.enqueue, Memory.entryAt_writeEntry_outside _ _ _ _ hbeside.symm, h.entries n hold,
      List.getElem_append_left hold]
  · rw [h.enqueue, Memory.entryAt_writeEntry, List.getElem_append_right (Nat.le_refl _)]
    simp

/-- The slots up to the producer's carry the cycle bit of its lap once that slot is written. -/
theorem cycles_through (h : EventsQueued s e p k q) {x : Entry} (hx : cycleOf x.w3 = p.pcs) {y : Nat}
    (hy : y < e.cap.toNat) : cycleOf ((s.mem.writeEntry p.enq.toNat x).read32 (e.slot y + 12)) =
      if y ≤ (k + q.length) % e.cap.toNat then p.pcs else !p.pcs := by
  by_cases hslot : (k + q.length) % e.cap.toNat = y
  · have hnew : (s.mem.writeEntry p.enq.toNat x).entryAt (e.slot y) = x := by
      rw [← hslot, ← h.enqueue, Memory.entryAt_writeEntry]
    rw [if_pos hslot.ge]
    exact (congrArg (fun z : Entry => cycleOf z.w3) hnew).trans hx
  · have hbeside := EventRing.slot_disjoint (e := e) hslot
    have hkeep := Memory.entryAt_writeEntry_outside s.mem _ _ x (h.enqueue ▸ hbeside.symm)
    have hiff : y < (k + q.length) % e.cap.toNat ↔ y ≤ (k + q.length) % e.cap.toNat := by omega
    refine (congrArg (fun z : Entry => cycleOf z.w3) hkeep).trans ((h.cycles y hy).trans ?_)
    simp only [hiff]

/-- The slot at `h_eq` joins the queue, with the cycle bit of the producer's lap. -/
theorem produce (h : EventsQueued s e p k q) (payload : Entry) (hroom : q.length + 1 < e.cap.toNat) :
    EventsQueued (s.controllerStep (.produce e.regsAddr payload)) e p.advance k
      (q ++ [{ payload with w3 := stamp payload.w3 p.pcs }]) := by
  have hk := h.position_lt
  have hlen (x : Entry) : (q ++ [x]).length = q.length + 1 := List.length_append
  rw [State.controllerStep, State.produce_of_ready ⟨h.producer, h.mayProduce_iff.mpr hroom⟩]
  refine ⟨h.ready, h.fits, h.aligned, h.registers, by rw [tableGet_put, if_pos rfl], h.base, h.size, h.dequeue,
    by rw [hlen]; exact hroom, by rw [hlen]; exact h.advance_enq, by rw [hlen]; exact h.advance_lap hroom,
    h.entries_append _, fun x hx => ?_⟩
  rw [hlen, ← Nat.add_assoc, succ_mod_eq_ite (Nat.zero_lt_of_lt hk), h.advance_pcs]
  refine (h.cycles_through (cycleOf_stamp _ _) hx).trans ?_
  by_cases hwrap : (k + q.length) % e.cap.toNat + 1 = e.cap.toNat
  · rw [if_pos hwrap, if_pos hwrap, if_neg (Nat.not_lt_zero x), if_pos (by omega), Bool.not_not]
  · rw [if_neg hwrap, if_neg hwrap]
    simp only [Nat.lt_succ_iff]

/-- A full ring refuses the entry. -/
theorem produce_full (h : EventsQueued s e p k q) (payload : Entry) (hfull : q.length + 1 = e.cap.toNat) :
    s.controllerStep (.produce e.regsAddr payload) = s :=
  State.produce_of_not_mayProduce h.producer (fun hmay => absurd (h.mayProduce_iff.mp hmay) (by omega)) payload

/-- Words 0 to 2 of the producer's slot are in no queued entry, and carry no cycle bit. -/
theorem writeWord (h : EventsQueued s e p k q) (n : Fin 3) (v : Word32) :
    EventsQueued (s.controllerStep (.writeWord e.regsAddr n v)) e p k q := by
  by_cases hmay : p.mayProduce (erdpPtr (s.erdp e.regsAddr)) = true
  · have hn := n.isLt
    rw [State.controllerStep, State.writeWord_of_ready ⟨h.producer, hmay⟩]
    refine ⟨h.ready, h.fits, h.aligned, h.registers, h.producer, h.base, h.size, h.dequeue, h.room, h.enqueue, h.lap,
      fun i hi => ?_, fun x hx => ?_⟩
    · have hbeside := EventRing.slot_disjoint (e := e) (h.slot_ne_enqueue hi)
      rw [← h.entries i hi]
      exact Memory.entryAt_write32_outside _ _ _ _ (by rw [h.enqueue]; omega)
    · have hbeside : (k + q.length) % e.cap.toNat = x ∨ e.slot ((k + q.length) % e.cap.toNat) + 16 ≤ e.slot x ∨
          e.slot x + 16 ≤ e.slot ((k + q.length) % e.cap.toNat) := by
        by_cases hx : (k + q.length) % e.cap.toNat = x
        · exact .inl hx
        · exact .inr (EventRing.slot_disjoint hx)
      rw [← h.cycles x hx]
      refine congrArg cycleOf (Memory.read32_write32_outside _ _ _ _ ?_)
      rw [h.enqueue]
      rcases hbeside with rfl | hbeside <;> omega
  · have hnot (p' : Producer) : ¬s.ProducerReady e.regsAddr p' := fun ⟨hp', hmay'⟩ => by
      obtain rfl := Option.some.inj (h.producer.symm.trans hp')
      exact hmay hmay'
    rw [State.controllerStep, State.writeWord_of_not_ready hnot]
    exact h

/-! ### The block's commands -/

/-- The cycle bit at the dequeue pointer is the consumer's exactly where an entry is queued (R155, R198). -/
theorem cycle_at_dequeue (h : EventsQueued s e p k q) :
    cycleOf (s.mem.read32 (e.slot k + 12)) = e.ccs ↔ q ≠ [] := by
  have hk := h.position_lt
  have hroom := h.room
  rw [h.cycles k hk, h.lap, add_mod_eq_ite hk hroom.le, ← List.length_pos_iff]
  by_cases hlap : k + q.length < e.cap.toNat
  · have hiff : k < k + q.length ↔ 0 < q.length := by omega
    simp only [if_pos hlap, hiff]
    by_cases hq : 0 < q.length <;> simp [hq]
  · have hbehind : ¬k < k + q.length - e.cap.toNat := by omega
    simp only [if_neg hlap, if_neg hbehind, Bool.not_not, true_iff]
    omega

theorem hasFront (h : EventsQueued s e p k q) {j : Nat} (hl : s.live) (hu : s.undisturbed)
    (he : s.erings[j]? = some e) :
    exec (.erHasFront j) s = .next (s.withResult 0 (if q = [] then 0 else 1)) := by
  rw [exec_erHasFront_undisturbed s j e hl hu he h.ready h.registers, h.dequeue.2, bit64_beq]
  simp only [h.cycle_at_dequeue, ne_eq, ite_not]

theorem front (h : EventsQueued s e p k q) {j : Nat} {x : Entry} {rest : List Entry} (hl : s.live)
    (hu : s.undisturbed) (he : s.erings[j]? = some e) (hq : q = x :: rest) :
    ∃ t, exec (.erFront j) s = .next t ∧ t.port.front = x ∧ t.mem = s.mem := by
  have hfirst : s.mem.entryAt (e.slot k) = x := by
    have hentry := h.entries 0 (by simp [hq])
    rw [Nat.add_zero, Nat.mod_eq_of_lt h.position_lt] at hentry
    simpa [hq] using hentry
  refine ⟨_, exec_erFront_undisturbed hl hu he h.ready h.registers, ?_, rfl⟩
  rw [h.dequeue.2, hfirst]
  rfl

/-- The entries left after the first lie from the next slot on, and the consumer's lap is that slot's. -/
theorem pop (h : EventsQueued s e p k q) {j : Nat} {x : Entry} {rest : List Entry} (hl : s.live)
    (hu : s.undisturbed) (he : s.erings[j]? = some e) (hq : q = x :: rest) :
    ∃ t e', exec (.erPop j) s = .next t ∧ t.erings[j]? = some e' ∧
      EventsQueued t e' p ((k + 1) % e.cap.toNat) rest := by
  have hk := h.position_lt
  have hroom := h.room
  have hlen : q.length = rest.length + 1 := by rw [hq, List.length_cons]
  have hbehind (n : Nat) : ((k + 1) % e.cap.toNat + n) % e.cap.toNat = (k + (n + 1)) % e.cap.toNat := by
    rw [Nat.mod_add_mod, Nat.add_assoc, Nat.add_comm 1]
  have hindex : j < s.erings.length := (List.getElem?_eq_some_iff.mp he).1
  have hdequeue := State.dequeueAt_popped h.bufferFits hk h.dequeue.2 s j
  obtain ⟨hmem, hproducers⟩ := s.poppedState_frame j e (s.erdp e.regsAddr)
  refine ⟨_, { e with ccs := if k + 1 = e.cap.toNat then !e.ccs else e.ccs },
    exec_erPop_undisturbed hl hu he h.ready h.registers, ?_, h.ready, h.fits, h.aligned, h.registers,
    hproducers ▸ h.producer, h.base, h.size, hdequeue, by show rest.length < e.cap.toNat; omega, ?_, ?_,
    fun n hn => ?_, fun y hy => ?_⟩
  · rw [s.poppedState_erings, List.getElem?_set_self hindex, h.dequeue.2, EventRing.popped_slot]
    split <;> rfl
  · rw [h.enqueue, hlen]
    exact congrArg e.slot (hbehind _).symm
  · rw [h.lap, hlen]
    show _ = if (k + 1) % e.cap.toNat + rest.length < e.cap.toNat then _ else _
    rw [add_mod_eq_ite hk (by omega)]
    by_cases hlast : k + 1 = e.cap.toNat
    · rw [if_neg (by omega), if_neg (show ¬k + 1 < e.cap.toNat by omega), if_pos (by omega), if_pos hlast]
    · have hinside : k + 1 < e.cap.toNat := by omega
      rw [if_pos hinside, if_neg hlast, Nat.add_assoc, Nat.add_comm 1]
  · have hentry := h.entries (n + 1) (by omega)
    rw [hmem]
    simp only [hq, List.getElem_cons_succ] at hentry
    rw [← hentry]
    exact congrArg (fun i => s.mem.entryAt (e.slot i)) (hbehind n)
  · rw [hmem]
    refine (h.cycles y hy).trans ?_
    rw [hlen]
    exact congrArg (fun i => if y < i then p.pcs else !p.pcs) (hbehind _).symm

end EventsQueued

/-- Settles O55: each step of the controller and each command, from what the queue is before it. -/
theorem eventRingDeliversInOrder : Obligations.EventRingDeliversInOrder :=
  fun _ _ _ _ _ _ he h => ⟨fun payload hroom => ⟨_, h.produce payload hroom⟩, h.produce_full, h.writeWord,
    fun hl hu => ⟨h.hasFront hl hu he, fun _ _ hq => ⟨h.front hl hu he hq, h.pop hl hu he hq⟩⟩⟩

end Sys2Proof.Machine
end

section
/-! PROOFS. The queue of entries between the block and the controller's consumer (R191 to R195): what a push and a read
make of it. -/

namespace Sys2Proof.Machine

/-! ### Memory after a push, slot by slot (R139) -/

theorem Ring.slot_beside {r : Ring} {x y : Nat} (h : x ≠ y) : r.slot x + 16 ≤ r.slot y ∨ r.slot y + 16 ≤ r.slot x :=
  (Nat.lt_or_gt_of_ne h).imp Ring.slot_disjoint Ring.slot_disjoint

/-- The slot pushed to holds the stamped entry. -/
theorem Memory.afterPush_at (m : Memory) {r : Ring} (e : Entry) (hcap : r.widx.toNat + 2 ≤ r.cap.toNat) :
    (m.afterPush r e).entryAt (r.slot r.widx.toNat) = r.stamped e := by
  rcases Nat.eq_or_lt_of_le hcap with hwrap | hlap
  · rw [m.afterPush_of_wrap e hwrap,
      Memory.entryAt_writeEntry_outside _ _ _ _ (Ring.slot_beside (r := r) (by omega)), Memory.entryAt_writeEntry]
  · rw [m.afterPush_of_no_wrap e hlap, Memory.entryAt_writeEntry]

/-- Every other slot is as before, the Link entry's only where the push does not wrap. -/
theorem Memory.afterPush_beside (m : Memory) {r : Ring} (e : Entry) {x : Nat} (hcap : r.widx.toNat + 2 ≤ r.cap.toNat)
    (hx : x ≠ r.widx.toNat) (hlink : x + 1 = r.cap.toNat → r.widx.toNat + 2 ≠ r.cap.toNat) :
    (m.afterPush r e).entryAt (r.slot x) = m.entryAt (r.slot x) := by
  have hslot := Memory.entryAt_writeEntry_outside m _ _ (r.stamped e) (Ring.slot_beside (r := r) hx)
  rcases Nat.eq_or_lt_of_le hcap with hwrap | hlap
  · have hbeside : x ≠ r.cap.toNat - 1 := fun h => hlink (by omega) hwrap
    rw [m.afterPush_of_wrap e hwrap, Memory.entryAt_writeEntry_outside _ _ _ _ (Ring.slot_beside hbeside), hslot]
  · rw [m.afterPush_of_no_wrap e hlap, hslot]

/-- A push that wraps leaves the Link entry with the cycle bit before the wrap. -/
theorem Memory.afterPush_link (m : Memory) {r : Ring} (e : Entry) (hwrap : r.widx.toNat + 2 = r.cap.toNat) :
    (m.afterPush r e).entryAt (r.slot (r.cap.toNat - 1)) = linkEntry r.base r.pcs := by
  rw [m.afterPush_of_wrap e hwrap, Memory.entryAt_writeEntry]

/-- The stamp leaves the type of an entry. -/
theorem isLink_stamp (w : Word32) (c : Bool) : isLink (stamp w c) = isLink w := by
  have htype : (stamp w c).extractLsb' 10 6 = w.extractLsb' 10 6 := by
    refine BitVec.eq_of_getLsbD_eq fun k hk => ?_
    rw [BitVec.getLsbD_extractLsb', BitVec.getLsbD_extractLsb', getLsbD_stamp, if_neg (by omega)]
  rw [isLink, isLink, htype]

/-- The slot of the usable slots' sequence `0, 1, …` of two laps: the Link entry's slot is in none. -/
def Ring.place (r : Ring) (n : Nat) : Nat := if n < r.cap.toNat - 1 then n else n - (r.cap.toNat - 1)

namespace EntriesQueued

variable {s : State} {r : Ring} {c : Consumer} {k : Nat} {q : List Entry}

theorem bufferFits (h : EntriesQueued s r c k q) : r.Fits := ⟨h.cursor, h.fits⟩

/-- The consumer is in the Ring's lap, or one behind. -/
theorem position_cases (h : EntriesQueued s r c k q) :
    c.ccs = r.pcs ∧ k + q.length = r.widx.toNat ∨
      c.ccs = !r.pcs ∧ k < r.cap.toNat ∧ r.widx.toNat ≤ k ∧ k + q.length = r.cap.toNat - 1 + r.widx.toNat ∧
        s.mem.entryAt (r.slot (r.cap.toNat - 1)) = linkEntry r.base (!r.pcs) := by
  by_cases hlap : c.ccs = r.pcs
  · exact .inl ⟨hlap, h.sameLap hlap⟩
  · exact .inr ⟨Bool.eq_not.mpr hlap, h.lapBehind hlap⟩

theorem entry_at_place (h : EntriesQueued s r c k q) {n : Nat} (hn : n < q.length) :
    s.mem.entryAt (r.slot (r.place (k + n))) = q[n] := h.entries n hn

/-! ### A push -/

/-- The entry pushed goes to the slot after those of the queue; the queue's are others, and not the Link entry's. -/
theorem place_push (h : EntriesQueued s r c k q) (hroom : q.length < r.cap.toNat - 1) :
    r.place (k + q.length) = r.widx.toNat ∧
      ∀ n < q.length, r.place (k + n) ≠ r.widx.toNat ∧ r.place (k + n) + 1 < r.cap.toNat := by
  have hcap := h.cursor
  simp only [Ring.place]
  rcases h.position_cases with ⟨-, hlen⟩ | ⟨-, hk, hle, hlen, -⟩
  · exact ⟨by rw [if_pos (by omega), hlen], fun n hn => by rw [if_pos (by omega)]; omega⟩
  · refine ⟨by rw [if_neg (by omega), hlen]; omega, fun n hn => ?_⟩
    split <;> omega

/-- An entry the consumer has begun to read is not in the slot pushed to. -/
theorem position_ne_cursor (h : EntriesQueued s r c k q) (hroom : q.length < r.cap.toNat - 1) (hgot : c.got ≠ []) :
    k ≠ r.widx.toNat := by
  have hcap := h.cursor
  have hbegun : k + 1 < r.cap.toNat ∧ 0 < q.length ∨ k + 1 = r.cap.toNat :=
    (h.begun hgot).imp (And.imp_right List.length_pos_iff.mpr) And.left
  rcases h.position_cases with ⟨-, hlen⟩ | ⟨-, hk, hle, hlen, -⟩ <;> omega

/-- After a push the slots of the queue, the one pushed to among them, hold the queue with the stamped entry. -/
theorem pushed_entries (h : EntriesQueued s r c k q) (i : Nat) (hroom : q.length < r.cap.toNat - 1) (n : Nat)
    (hn : n < (q ++ [r.stamped s.port.entry]).length) :
    (s.pushedState i r).mem.entryAt (r.slot (r.place (k + n))) = (q ++ [r.stamped s.port.entry])[n] := by
  obtain ⟨hplace, hothers⟩ := h.place_push hroom
  show (s.mem.afterPush r s.port.entry).entryAt _ = _
  rw [List.length_append] at hn
  rcases Nat.lt_succ_iff_lt_or_eq.mp hn with hold | rfl
  · obtain ⟨hne, hlt⟩ := hothers n hold
    rw [Memory.afterPush_beside _ _ h.cursor hne (fun hl => absurd hl (Nat.ne_of_lt hlt)), h.entry_at_place hold,
      List.getElem_append_left hold]
  · rw [hplace, Memory.afterPush_at _ _ h.cursor, List.getElem_append_right (Nat.le_refl _)]
    simp

theorem pushed_payload (h : EntriesQueued s r c k q) (hplain : isLink s.port.ent3 = false) :
    ∀ e ∈ q ++ [r.stamped s.port.entry], isLink e.w3 = false := by
  intro e he
  rcases List.mem_append.mp he with he | he
  · exact h.payload e he
  · rw [List.mem_singleton.mp he]
    exact (isLink_stamp _ _).trans hplain

/-- A push changes no entry the consumer has begun to read. -/
theorem pushed_reading (h : EntriesQueued s r c k q) (i : Nat) (hroom : q.length < r.cap.toNat - 1)
    (hfollowed : k + 1 = r.cap.toNat → r.widx.toNat + 2 ≠ r.cap.toNat) :
    c.got = ((fun e : Entry => [e.w3, e.w0, e.w1]) ((s.pushedState i r).mem.entryAt (r.slot k))).take c.got.length := by
  by_cases hgot : c.got = []
  · rw [hgot]
    rfl
  · have hkeep : (s.pushedState i r).mem.entryAt (r.slot k) = s.mem.entryAt (r.slot k) :=
      Memory.afterPush_beside _ _ h.cursor (h.position_ne_cursor hroom hgot) hfollowed
    rw [hkeep]
    exact h.reading

/-- After a push the slots up to the one pushed to carry the cycle bit of the lap. -/
theorem pushed_cycles (h : EntriesQueued s r c k q) (i : Nat) {x : Nat} (hx : x < r.cap.toNat - 1) :
    cycleOf ((s.pushedState i r).mem.read32 (r.slot x + 12)) = if x ≤ r.widx.toNat then r.pcs else !r.pcs := by
  by_cases hslot : x = r.widx.toNat
  · have hnew : (s.pushedState i r).mem.entryAt (r.slot x) = r.stamped s.port.entry := by
      rw [hslot]
      exact Memory.afterPush_at _ _ h.cursor
    refine (congrArg (fun e : Entry => cycleOf e.w3) hnew).trans ?_
    rw [if_pos hslot.le]
    exact cycleOf_stamp _ _
  · have hold := Memory.afterPush_beside s.mem s.port.entry h.cursor hslot (fun hl => by omega)
    refine (congrArg (fun e : Entry => cycleOf e.w3) hold).trans ((h.cycles x hx).trans ?_)
    have hiff : x < r.widx.toNat ↔ x ≤ r.widx.toNat := by omega
    simp only [hiff]

/-- A push that does not wrap over the Link entry the consumer stands at appends the stamped entry: at the wrap the
consumer falls one lap behind, inside a lap it stays where it is. -/
theorem push (h : EntriesQueued s r c k q) (i : Nat) (hroom : q.length < r.cap.toNat - 1)
    (hplain : isLink s.port.ent3 = false) (hfollowed : k + 1 = r.cap.toNat → r.widx.toNat + 2 ≠ r.cap.toNat) :
    EntriesQueued (s.pushedState i r) r.advance c k (q ++ [r.stamped s.port.entry]) := by
  have hcap := h.cursor
  have hlen : (q ++ [r.stamped s.port.entry]).length = q.length + 1 := List.length_append
  have hentries := h.pushed_entries i hroom
  have hpayload := h.pushed_payload hplain
  have hreading := h.pushed_reading i hroom hfollowed
  have hbegun (hgot : c.got ≠ []) : k + 1 < r.cap.toNat ∧ q ++ [r.stamped s.port.entry] ≠ [] ∨
      k + 1 = r.cap.toNat ∧ c.got.length ≤ 2 :=
    (h.begun hgot).imp_left (And.imp_right fun _ => by simp)
  rcases Nat.eq_or_lt_of_le hcap with hwrap | hlap
  · rw [Ring.advance_of_wrap hwrap]
    refine ⟨h.ready, h.fits, h.aligned, by show 0 + 2 ≤ r.cap.toNat; omega, h.position, fun hc => ?_, fun hc => ?_,
      hentries, hpayload, fun x hx => ?_, hreading, hbegun⟩
    · replace hc : c.ccs = !r.pcs := hc
      rcases h.position_cases with ⟨hsame, -⟩ | ⟨-, hk, -, hsum, -⟩
      · rw [hsame] at hc
        exact absurd hc (Bool.self_ne_not _)
      · exact absurd hwrap (hfollowed (by omega))
    · replace hc : c.ccs ≠ !r.pcs := hc
      rcases h.position_cases with ⟨-, hsum⟩ | ⟨hbehind, -⟩
      · have hlink := s.mem.afterPush_link s.port.entry hwrap
        rw [← Bool.not_not r.pcs] at hlink
        exact ⟨by show k < r.cap.toNat; omega, Nat.zero_le k, by show _ = r.cap.toNat - 1 + 0; omega, hlink⟩
      · exact absurd hbehind hc
    · have hle : x ≤ r.widx.toNat := by
        have hx' : x < r.cap.toNat - 1 := hx
        omega
      exact (h.pushed_cycles i hx).trans ((if_pos hle).trans (Bool.not_not r.pcs).symm)
  · have hwidx : (r.widx + 1).toNat = r.widx.toNat + 1 := by
      have hlt := r.cap.isLt
      have hone : (1 : Word64).toNat = 1 := rfl
      rw [BitVec.toNat_add, hone, Nat.mod_eq_of_lt (by omega)]
    rw [Ring.advance_of_no_wrap hlap]
    refine ⟨h.ready, h.fits, h.aligned, by show (r.widx + 1).toNat + 2 ≤ r.cap.toNat; omega, h.position,
      fun hc => ?_, fun hc => ?_, hentries, hpayload, fun x hx => ?_, hreading, hbegun⟩
    · show _ = (r.widx + 1).toNat
      rw [hwidx, hlen, ← h.sameLap hc, Nat.add_assoc]
    · obtain ⟨hk, hle, hsum, hlink⟩ := h.lapBehind hc
      refine ⟨hk, ?_, ?_, ?_⟩
      · show (r.widx + 1).toNat ≤ k
        omega
      · show _ = r.cap.toNat - 1 + (r.widx + 1).toNat
        omega
      · rw [← hlink]
        exact Memory.afterPush_beside (x := r.cap.toNat - 1) _ _ hcap (by omega) (fun _ => by omega)
    · refine (h.pushed_cycles i hx).trans ?_
      show _ = if x < (r.widx + 1).toNat then r.pcs else !r.pcs
      simp only [hwidx, Nat.lt_succ_iff]

/-! ### A read of the consumer -/

/-- A state in which another consumer has been put agrees with the queue if that consumer does. -/
theorem read_on (h : EntriesQueued s r c k q) (i : Nat) {l : List Word32}
    (hl : l = ((fun e : Entry => [e.w3, e.w0, e.w1]) (s.mem.entryAt (r.slot k))).take l.length)
    (hbegun : k + 1 < r.cap.toNat ∧ q ≠ [] ∨ k + 1 = r.cap.toNat ∧ l.length ≤ 2) :
    EntriesQueued (s.withConsumer i (c.withGot l)) r (c.withGot l) k q :=
  ⟨h.ready, h.fits, h.aligned, h.cursor, h.position, h.sameLap, h.lapBehind, h.entries, h.payload, h.cycles, hl,
    fun _ => hbegun⟩

/-- The words the consumer has read, by how many they are. -/
theorem got_cases (h : EntriesQueued s r c k q) :
    c.got = [] ∨ c.got = [(s.mem.entryAt (r.slot k)).w3] ∨
      c.got = [(s.mem.entryAt (r.slot k)).w3, (s.mem.entryAt (r.slot k)).w0] ∨
      c.got = [(s.mem.entryAt (r.slot k)).w3, (s.mem.entryAt (r.slot k)).w0, (s.mem.entryAt (r.slot k)).w1] := by
  have hread := h.reading
  match hlen : c.got.length with
  | 0 => exact .inl (List.length_eq_zero_iff.mp hlen)
  | 1 => exact .inr (.inl (by rw [hlen] at hread; exact hread))
  | 2 => exact .inr (.inr (.inl (by rw [hlen] at hread; exact hread)))
  | n + 3 => exact .inr (.inr (.inr (by rw [hlen] at hread; simpa using hread)))

/-- At the Link entry's slot the consumer is one lap behind, and the entry is there with its cycle bit. -/
theorem at_link (h : EntriesQueued s r c k q) (hk : k + 1 = r.cap.toNat) :
    c.ccs = (!r.pcs) ∧ q.length = r.widx.toNat ∧ s.mem.entryAt (r.slot k) = linkEntry r.base (!r.pcs) := by
  have hcap := h.cursor
  rcases h.position_cases with ⟨-, hsum⟩ | ⟨hc, -, -, hsum, hlink⟩
  · omega
  · have hlast : k = r.cap.toNat - 1 := by omega
    exact ⟨hc, by omega, hlast ▸ hlink⟩

/-- Where nothing is queued the consumer finds a stale entry, where something is, that entry's cycle bit is its own. -/
theorem cycle_at_position (h : EntriesQueued s r c k q) (hk : k + 1 < r.cap.toNat) :
    cycleOf (s.mem.entryAt (r.slot k)).w3 = c.ccs ↔ q ≠ [] := by
  refine (iff_of_eq (congrArg (· = c.ccs) (h.cycles k (by omega)))).trans ?_
  rw [← List.length_pos_iff]
  rcases h.position_cases with ⟨hc, hsum⟩ | ⟨hc, -, hle, hsum, -⟩
  · have hiff : k < r.widx.toNat ↔ 0 < q.length := by omega
    simp only [hc, hiff]
    by_cases hq : 0 < q.length <;> simp [hq]
  · rw [if_neg (by omega), hc]
    simp only [true_iff]
    omega

/-- A stale entry at the consumer's slot is no progress; everything stays. -/
theorem look_nothing (h : EntriesQueued s r c k q) (hk : k + 1 < r.cap.toNat) (hq : q = []) : c.look s.mem = c := by
  have hgot : c.got = [] := by
    by_contra hne
    rcases h.begun hne with ⟨-, hne⟩ | ⟨hlast, -⟩
    · exact hne hq
    · omega
  refine Consumer.look_stale hgot ?_
  rw [h.position]
  exact fun hc => (h.cycle_at_position hk).mp hc hq

/-- The state after a read that takes the oldest entry (R192). -/
theorem take (h : EntriesQueued s r c k q) (i : Nat) {x : Entry} {rest : List Entry} (hk : k + 1 < r.cap.toNat)
    (hq : q = x :: rest) (c' : Consumer) (hdq : c'.dq.toNat = r.slot (k + 1)) (hccs : c'.ccs = c.ccs)
    (hgot : c'.got = []) : EntriesQueued (s.withConsumer i c') r c' (k + 1) rest := by
  have hlen : q.length = rest.length + 1 := by rw [hq, List.length_cons]
  refine ⟨h.ready, h.fits, h.aligned, h.cursor, hdq, fun hc => ?_, fun hc => ?_, fun n hn => ?_, fun e he => ?_,
    h.cycles, by rw [hgot]; rfl, fun hne => absurd hgot hne⟩
  · have hsum := h.sameLap (hccs ▸ hc)
    omega
  · obtain ⟨-, hle, hsum, hlink⟩ := h.lapBehind (hccs ▸ hc)
    exact ⟨hk, by omega, by omega, hlink⟩
  · have hentry := h.entry_at_place (n := n + 1) (by omega)
    simp only [hq, List.getElem_cons_succ, ← Nat.add_assoc, Nat.add_right_comm k n 1] at hentry
    exact hentry
  · exact h.payload e (hq ▸ List.mem_cons_of_mem x he)

/-- The state after a read that follows the Link entry (R193). -/
theorem follow (h : EntriesQueued s r c k q) (i : Nat) (hk : k + 1 = r.cap.toNat) (c' : Consumer)
    (hdq : c'.dq.toNat = r.slot 0) (hccs : c'.ccs = r.pcs) (hgot : c'.got = []) :
    EntriesQueued (s.withConsumer i c') r c' 0 q := by
  have hcap := h.cursor
  obtain ⟨-, hlen, -⟩ := h.at_link hk
  refine ⟨h.ready, h.fits, h.aligned, h.cursor, hdq, fun _ => by omega, fun hc => absurd hccs hc, fun n hn => ?_,
    h.payload, h.cycles, by rw [hgot]; rfl, fun hne => absurd hgot hne⟩
  have hentry := h.entry_at_place hn
  have hplace : r.place (k + n) = r.place (0 + n) := by
    rw [Ring.place, Ring.place, if_neg (by omega), if_pos (by omega)]
    omega
  rw [hplace] at hentry
  exact hentry

theorem position_le (h : EntriesQueued s r c k q) : k + 1 ≤ r.cap.toNat := by
  have hcap := h.cursor
  rcases h.position_cases with ⟨-, hsum⟩ | ⟨-, hk, -⟩ <;> omega

/-- The next read of the words of the entry at the consumer's slot, by how many it has read. -/
theorem look_eq (h : EntriesQueued s r c k q) (hcycle : cycleOf (s.mem.entryAt (r.slot k)).w3 = c.ccs) :
    let x := s.mem.entryAt (r.slot k)
    (c.got = [] → c.look s.mem = c.withGot [x.w3]) ∧ (c.got = [x.w3] → c.look s.mem = c.withGot [x.w3, x.w0]) ∧
      (c.got = [x.w3, x.w0] → isLink x.w3 = true → c.look s.mem = c.follow x.w3 x.w0 x.w1) ∧
      (c.got = [x.w3, x.w0] → isLink x.w3 = false → c.look s.mem = c.withGot [x.w3, x.w0, x.w1]) ∧
      (c.got = [x.w3, x.w0, x.w1] → c.look s.mem = c.take x) := by
  have hdq := h.position
  refine ⟨fun hgot => ?_, fun hgot => ?_, fun hgot hlink => ?_, fun hgot hplain => ?_, fun hgot => ?_⟩
  · rw [Consumer.look_first hgot (hdq ▸ hcycle), hdq]
    rfl
  · rw [Consumer.look_second hgot, hdq]
    rfl
  · rw [Consumer.look_link hgot hlink, hdq]
    rfl
  · rw [Consumer.look_third hgot (by rw [hplain]; decide), hdq]
    rfl
  · rw [Consumer.look_last hgot, hdq]
    rfl

/-- A read at the Link entry's slot goes on with it, and the third one follows it to slot 0 and the Ring's lap. -/
theorem read_link (h : EntriesQueued s r c k q) (i : Nat) (hk : k + 1 = r.cap.toNat) :
    ∃ k', EntriesQueued (s.withConsumer i (c.look s.mem)) r (c.look s.mem) k' q ∧
      (c.look s.mem).taken = c.taken ∧
      if c.got.length < 2 then k' = k ∧ (c.look s.mem).got.length = c.got.length + 1
      else k' = 0 ∧ (c.look s.mem).ccs = r.pcs ∧ (c.look s.mem).got = [] := by
  obtain ⟨hccs, -, hlink⟩ := h.at_link hk
  obtain ⟨hflag, htoggle, hcycle⟩ := linkEntry_flags r.base (!r.pcs)
  obtain ⟨hfirst, hsecond, hfollow, -, -⟩ := h.look_eq (by rw [hlink, hcycle, hccs])
  rcases h.got_cases with hgot | hgot | hgot | hgot
  · rw [hfirst hgot, hgot]
    exact ⟨k, h.read_on i rfl (.inr ⟨hk, by simp⟩), rfl, rfl, rfl⟩
  · rw [hsecond hgot, hgot]
    exact ⟨k, h.read_on i rfl (.inr ⟨hk, by simp⟩), rfl, rfl, rfl⟩
  · have htarget : (c.look s.mem).dq.toNat = r.slot 0 := by
      rw [hfollow hgot (by rw [hlink, hflag]), hlink]
      exact congrArg BitVec.toNat
        ((linkTarget_linkEntry _ _).trans (erdpPtr_of_aligned _ (by have := h.aligned; omega)))
    have hflip : (c.look s.mem).ccs = r.pcs := by
      rw [hfollow hgot (by rw [hlink, hflag]), hlink]
      exact (if_pos htoggle).trans ((congrArg not hccs).trans (Bool.not_not _))
    have hempty : (c.look s.mem).got = [] := by
      rw [hfollow hgot (by rw [hlink, hflag])]
      rfl
    refine ⟨0, h.follow i hk _ htarget hflip hempty, ?_, ?_⟩
    · rw [hfollow hgot (by rw [hlink, hflag])]
      rfl
    · rw [hgot, if_neg (by simp)]
      exact ⟨rfl, hflip, hempty⟩
  · rcases h.begun (by simp [hgot]) with ⟨hlt, -⟩ | ⟨-, hlen⟩
    · omega
    · simp [hgot] at hlen

/-- A read at the oldest entry goes on with it, and the fourth one takes it. -/
theorem read_plain (h : EntriesQueued s r c k q) (i : Nat) {x : Entry} {rest : List Entry} (hk : k + 1 < r.cap.toNat)
    (hq : q = x :: rest) :
    ∃ k' q', EntriesQueued (s.withConsumer i (c.look s.mem)) r (c.look s.mem) k' q' ∧
      (c.look s.mem).taken ++ q' = c.taken ++ q ∧
      4 * (c.look s.mem).taken.length + (c.look s.mem).got.length = 4 * c.taken.length + c.got.length + 1 := by
  have hne : q ≠ [] := by simp [hq]
  have hx : s.mem.entryAt (r.slot k) = x := by
    have hentry := h.entry_at_place (n := 0) (by simp [hq])
    rw [Nat.add_zero, Ring.place, if_pos (by omega)] at hentry
    simpa [hq] using hentry
  have hplain : isLink (s.mem.entryAt (r.slot k)).w3 = false := by
    rw [hx]
    exact h.payload x (by simp [hq])
  obtain ⟨hfirst, hsecond, -, hthird, hlast⟩ := h.look_eq ((h.cycle_at_position hk).mpr hne)
  rcases h.got_cases with hgot | hgot | hgot | hgot
  · rw [hfirst hgot, hgot]
    exact ⟨k, q, h.read_on i rfl (.inl ⟨hk, hne⟩), rfl, rfl⟩
  · rw [hsecond hgot, hgot]
    exact ⟨k, q, h.read_on i rfl (.inl ⟨hk, hne⟩), rfl, rfl⟩
  · rw [hthird hgot hplain, hgot]
    exact ⟨k, q, h.read_on i rfl (.inl ⟨hk, hne⟩), rfl, rfl⟩
  · have hnext : c.dq.toNat + 16 < addressSpace := by
      have hslot := h.bufferFits.slot_le (k := k + 1) hk
      rw [h.position]
      simp only [Ring.slot, entryBytes] at hslot ⊢
      omega
    have htake := (hlast hgot).trans (Consumer.take_of_lt _ hnext)
    have hdq : (c.dq + 16).toNat = r.slot (k + 1) := by
      have hsixteen : (16 : Word64).toNat = 16 := rfl
      rw [BitVec.toNat_add, hsixteen, Nat.mod_eq_of_lt (show _ < 2 ^ 64 from hnext), h.position]
      rfl
    rw [htake, hx, hgot]
    refine ⟨k + 1, rest, h.take i hk hq _ hdq rfl rfl, ?_, ?_⟩
    · rw [hq, List.append_assoc]
      rfl
    · simp only [List.length_append, List.length_cons, List.length_nil]
      omega

/-! ### A push that rewrites the Link entry (assumption 16) -/

/-- The consumer at an unread Link entry of the lap before finds it with the next lap's cycle bit. -/
theorem stalls (h : EntriesQueued s r c k q) {i : Nat} (hc : s.consumers[i]? = some (some c))
    (hk : k + 1 = r.cap.toNat) (hwrap : r.widx.toNat + 2 = r.cap.toNat) (hgot : c.got = []) :
    (s.pushedState i r).controllerStep (.consume i) = s.pushedState i r := by
  obtain ⟨hccs, -, -⟩ := h.at_link hk
  have hlast : k = r.cap.toNat - 1 := by omega
  have hlink : (s.mem.afterPush r s.port.entry).entryAt (r.slot k) = linkEntry r.base r.pcs := by
    rw [hlast, Memory.afterPush_link _ _ hwrap]
  have hstale : cycleOf ((s.pushedState i r).mem.read32 (c.dq.toNat + 12)) ≠ c.ccs := by
    obtain ⟨-, -, hflag⟩ := linkEntry_flags r.base r.pcs
    have hcycle : cycleOf ((s.pushedState i r).mem.read32 (r.slot k + 12)) = r.pcs :=
      (congrArg (fun x : Entry => cycleOf x.w3) hlink).trans hflag
    rw [h.position, hcycle, hccs]
    exact Bool.self_ne_not _
  have hc' : (s.pushedState i r).consumers[i]? = some (some c) := hc
  rw [State.controllerStep, State.consume_of_some hc', Consumer.look_stale hgot hstale, State.withConsumer_self hc']

end EntriesQueued

/-- A read of a consumer moves that consumer alone. -/
theorem State.controllerStep_consume {s : State} {i : Nat} {c : Consumer} (hc : s.consumers[i]? = some (some c)) :
    s.controllerStep (.consume i) = s.withConsumer i (c.look s.mem) ∧
      (s.withConsumer i (c.look s.mem)).consumers[i]? = some (some (c.look s.mem)) :=
  ⟨State.consume_of_some hc, List.getElem?_set_self (List.getElem?_eq_some_iff.mp hc).1⟩

/-- Settles O54: the push, the read by where the consumer stands, and the stall. -/
theorem ringDeliversInOrder : Obligations.RingDeliversInOrder := by
  intro s i k r c q hr hc h
  have hexec (hl : s.live) (hu : s.undisturbed) := exec_ringPush_undisturbed hl hu hr h.ready h.bufferFits
  refine ⟨fun hl hu hroom hplain hfollowed => ?_, ?_,
    fun hl hu hk hwrap hgot => ⟨_, hexec hl hu, h.stalls hc hk hwrap hgot⟩⟩
  · have hindex : i < s.rings.length := (List.getElem?_eq_some_iff.mp hr).1
    exact ⟨_, r.advance, hexec hl hu, List.getElem?_set_self hindex, hc, h.push i hroom hplain hfollowed⟩
  · obtain ⟨hstep, hget⟩ := State.controllerStep_consume hc
    rw [hstep]
    rcases Nat.eq_or_lt_of_le h.position_le with hk | hk
    · obtain ⟨k', hqueue, htaken, hlink⟩ := h.read_link i hk
      exact ⟨_, k', q, hr, hget, hqueue, by rw [htaken], fun _ hlt => by omega, fun _ => ⟨htaken, hlink⟩⟩
    · match q with
      | [] =>
        rw [h.look_nothing hk rfl, State.withConsumer_self hc]
        exact ⟨c, k, [], hr, hc, h, rfl, fun hne => absurd rfl hne, fun hlast => by omega⟩
      | x :: rest =>
        obtain ⟨k', q', hqueue, htaken, hread⟩ := h.read_plain i hk rfl
        exact ⟨_, k', q', hr, hget, hqueue, htaken, fun _ _ => hread, fun hlast => by omega⟩

end Sys2Proof.Machine
end
